-- ==== Sys2Proof/Word.lean ====
section
/-! DEFINITION. The words of FBP and their plainest arithmetic (spec/00_scope.md R8, spec/30_encoding.md R70, R71). -/

namespace Sys2Proof

/-- One byte: a vertical strip of eight pixels, bit 0 the top one (10_state.md R23), or a luminance, or a contrast. -/
abbrev Byte := BitVec 8

/-- One 16-bit operand slot or register value (30_encoding.md R71, 10_state.md R31). -/
abbrev Half := BitVec 16

/-- One command word `W[127:0]` (30_encoding.md R70). -/
abbrev Word := BitVec 128

/-- A point of the plane, in caller coordinates (00_scope.md R10): mathematical integers, 1-indexed. -/
abbrev Point := Int × Int

end Sys2Proof
end

