-- ==== Sys2Proof/Syntax.lean ====
section
/-! DEFINITION. The 23 commands of FBP command set 1 (spec/30_encoding.md R74, spec/opcode_table.json), their operands
already assembled (R72): coordinates and the percentage are integers, sizes and indices are naturals. -/

namespace Sys2Proof

/-- One constructor per row of the opcode table, operands in slot order. -/
inductive Instr where
  | setPixel (x y : Int) (on : Bool)
  | getPixel (x y : Int)
  | clearBuffer
  | clearScreen
  | rdByte (idx : Nat)
  | hLine (x y : Int) (w : Nat)
  | vLine (x y : Int) (h : Nat)
  | line (x0 y0 x1 y1 : Int)
  | rect (x y : Int) (w h : Nat)
  | square (x y : Int) (s : Nat)
  | fillRect (x y : Int) (w h : Nat)
  | fillSquare (x y : Int) (s : Nat)
  | circle (cx cy : Int) (r : Nat)
  | fillCircle (cx cy : Int) (r : Nat)
  | tri (x0 y0 x1 y1 x2 y2 : Int)
  | triBox (cx cy : Int) (w h : Nat)
  | fillTri (x0 y0 x1 y1 x2 y2 : Int)
  | sendBuffer
  | displayImage
  | setContrast (pct : Int)
  | init
  | release
  | rdReg (n : Nat)
  deriving DecidableEq, Repr

end Sys2Proof
end

