-- ==== Sys2Proof/WellFormed.lean ====
section
/-! DEFINITION. Which instructions a command word can carry: every operand in the range of its slot (spec/30_encoding.md
R72). An operand outside is "an assembly error, not a command" (R85). -/

namespace Sys2Proof

/-- A signed 16-bit slot: -32768 .. 32767 (30_encoding.md R72, coordinates and the percentage). -/
def isSigned16 (v : Int) : Bool := decide (-32768 ≤ v ∧ v ≤ 32767)

/-- An unsigned 16-bit slot: 0 .. 65535 (30_encoding.md R72, sizes and indices). -/
def isUnsigned16 (v : Nat) : Bool := decide (v ≤ 65535)

/-- Every operand fits its slot. -/
def Instr.wellFormed : Instr → Bool
  | .setPixel x y _ => isSigned16 x && isSigned16 y
  | .getPixel x y => isSigned16 x && isSigned16 y
  | .clearBuffer => true
  | .clearScreen => true
  | .rdByte idx => isUnsigned16 idx
  | .hLine x y w => isSigned16 x && isSigned16 y && isUnsigned16 w
  | .vLine x y h => isSigned16 x && isSigned16 y && isUnsigned16 h
  | .line x0 y0 x1 y1 => isSigned16 x0 && isSigned16 y0 && isSigned16 x1 && isSigned16 y1
  | .rect x y w h => isSigned16 x && isSigned16 y && isUnsigned16 w && isUnsigned16 h
  | .square x y s => isSigned16 x && isSigned16 y && isUnsigned16 s
  | .fillRect x y w h => isSigned16 x && isSigned16 y && isUnsigned16 w && isUnsigned16 h
  | .fillSquare x y s => isSigned16 x && isSigned16 y && isUnsigned16 s
  | .circle cx cy r => isSigned16 cx && isSigned16 cy && isUnsigned16 r
  | .fillCircle cx cy r => isSigned16 cx && isSigned16 cy && isUnsigned16 r
  | .tri x0 y0 x1 y1 x2 y2 =>
      isSigned16 x0 && isSigned16 y0 && isSigned16 x1 && isSigned16 y1 && isSigned16 x2 && isSigned16 y2
  | .triBox cx cy w h => isSigned16 cx && isSigned16 cy && isUnsigned16 w && isUnsigned16 h
  | .fillTri x0 y0 x1 y1 x2 y2 =>
      isSigned16 x0 && isSigned16 y0 && isSigned16 x1 && isSigned16 y1 && isSigned16 x2 && isSigned16 y2
  | .sendBuffer => true
  | .displayImage => true
  | .setContrast pct => isSigned16 pct
  | .init => true
  | .release => true
  | .rdReg n => isUnsigned16 n

end Sys2Proof
end

