-- ==== Sys2Proof/Decode.lean ====
section
/-! DEFINITION. The decoder (total on all 2^128 words, spec/30_encoding.md R70 to R76, R82, R83) and, after it, the
encoder, written from the same tables. -/

namespace Sys2Proof

/-! ## Fields (R71) -/

/-- `OPC = W[127:120]`. -/
def opcOf (w : Word) : Byte := w.extractLsb' 120 8

/-- `ON = W[96]`. -/
def onOf (w : Word) : Bool := w.getLsbD 96

/-- Slot A, `W[95:80]`. -/
def slotA (w : Word) : Half := w.extractLsb' 80 16

/-- Slot B, `W[79:64]`. -/
def slotB (w : Word) : Half := w.extractLsb' 64 16

/-- Slot C, `W[63:48]`. -/
def slotC (w : Word) : Half := w.extractLsb' 48 16

/-- Slot D, `W[47:32]`. -/
def slotD (w : Word) : Half := w.extractLsb' 32 16

/-- Slot E, `W[31:16]`. -/
def slotE (w : Word) : Half := w.extractLsb' 16 16

/-- Slot F, `W[15:0]`. -/
def slotF (w : Word) : Half := w.extractLsb' 0 16

/-- A signed operand, `sext_16(slot)` (R72). -/
def sext (h : Half) : Int := h.toInt

/-- An unsigned operand, `zext_16(slot)` (R72). -/
def zext (h : Half) : Nat := h.toNat

/-! ## Formats and masks (R73, R75) -/

/-- The nine formats of R73. -/
inductive Format where
  | z | p | xy | u1 | s1 | s3 | s4 | q | t
  deriving DecidableEq, Repr

/-- The mask of a format: a 1 at every bit that is fixed (the table of R75). -/
def formatMask : Format → Word
  | .z  => 0xFFFFFFFFFFFFFFFFFFFFFFFFFFFFFFFF#128
  | .p  => 0xFFFFFFFE00000000FFFFFFFFFFFFFFFF#128
  | .xy => 0xFFFFFFFF00000000FFFFFFFFFFFFFFFF#128
  | .u1 => 0xFFFFFFFF0000FFFFFFFFFFFFFFFFFFFF#128
  | .s1 => 0xFFFFFFFF0000FFFFFFFFFFFFFFFFFFFF#128
  | .s3 => 0xFFFFFFFF000000000000FFFFFFFFFFFF#128
  | .s4 => 0xFFFFFFFF0000000000000000FFFFFFFF#128
  | .q  => 0xFFFFFFFF0000000000000000FFFFFFFF#128
  | .t  => 0xFFFFFFFF000000000000000000000000#128

/-! ## The opcode map (R74) -/

/-- The row of R74 for an opcode, with the operands of `w` read in slot order (R72, R73); `none` for the 233 reserved
opcodes (R83). -/
def opcodeRow (opc : Byte) (w : Word) : Option (Format × Instr) :=
  match opc.toNat with
  | 0x01 => some (.p,  .setPixel (sext (slotA w)) (sext (slotB w)) (onOf w))
  | 0x02 => some (.xy, .getPixel (sext (slotA w)) (sext (slotB w)))
  | 0x03 => some (.z,  .clearBuffer)
  | 0x04 => some (.z,  .clearScreen)
  | 0x05 => some (.u1, .rdByte (zext (slotA w)))
  | 0x10 => some (.s3, .hLine (sext (slotA w)) (sext (slotB w)) (zext (slotC w)))
  | 0x11 => some (.s3, .vLine (sext (slotA w)) (sext (slotB w)) (zext (slotC w)))
  | 0x12 => some (.q,  .line (sext (slotA w)) (sext (slotB w)) (sext (slotC w)) (sext (slotD w)))
  | 0x13 => some (.s4, .rect (sext (slotA w)) (sext (slotB w)) (zext (slotC w)) (zext (slotD w)))
  | 0x14 => some (.s3, .square (sext (slotA w)) (sext (slotB w)) (zext (slotC w)))
  | 0x15 => some (.s4, .fillRect (sext (slotA w)) (sext (slotB w)) (zext (slotC w)) (zext (slotD w)))
  | 0x16 => some (.s3, .fillSquare (sext (slotA w)) (sext (slotB w)) (zext (slotC w)))
  | 0x17 => some (.s3, .circle (sext (slotA w)) (sext (slotB w)) (zext (slotC w)))
  | 0x18 => some (.s3, .fillCircle (sext (slotA w)) (sext (slotB w)) (zext (slotC w)))
  | 0x19 => some (.t,  .tri (sext (slotA w)) (sext (slotB w)) (sext (slotC w)) (sext (slotD w)) (sext (slotE w)) (sext (slotF w)))
  | 0x1A => some (.s4, .triBox (sext (slotA w)) (sext (slotB w)) (zext (slotC w)) (zext (slotD w)))
  | 0x1B => some (.t,  .fillTri (sext (slotA w)) (sext (slotB w)) (sext (slotC w)) (sext (slotD w)) (sext (slotE w)) (sext (slotF w)))
  | 0x30 => some (.z,  .sendBuffer)
  | 0x31 => some (.z,  .displayImage)
  | 0x32 => some (.s1, .setContrast (sext (slotA w)))
  | 0x40 => some (.z,  .init)
  | 0x41 => some (.z,  .release)
  | 0x42 => some (.u1, .rdReg (zext (slotA w)))
  | _ => none

/-- The opcode alone in its place, `OPC << 120` (R75, R76). -/
def opcodePart (opc : Byte) : Word := opc.setWidth 128 <<< 120

/-- Why a word is illegal (R82): both reasons give the one status ILLEGAL. -/
inductive Illegal where
  /-- `OPC` is not one of the 23 values of R74. -/
  | reservedOpcode
  /-- A must-be-zero bit of the word's format is 1. -/
  | nonzeroFixedBit
  deriving DecidableEq, Repr

/-- The decoder of R76, with the reason of a rejection. -/
def decodeOr (w : Word) : Except Illegal Instr :=
  match opcodeRow (opcOf w) w with
  | none => .error .reservedOpcode
  | some (fmt, i) => if w &&& formatMask fmt = opcodePart (opcOf w) then .ok i else .error .nonzeroFixedBit

/-- `decode(W)` of R76; `none` is `Illegal`. -/
def decode (w : Word) : Option Instr := (decodeOr w).toOption

/-! ## The encoder -/

/-- A word from its fields, most significant first: `OPC`, 23 zero bits, `ON`, slots A to F (R71). -/
def pack (opc : Byte) (on : Bool) (a b c d e f : Half) : Word :=
  opc ++ 0#23 ++ BitVec.ofBool on ++ a ++ b ++ c ++ d ++ e ++ f

/-- The slot of a signed operand (R72). -/
def signedSlot (v : Int) : Half := BitVec.ofInt 16 v

/-- The slot of an unsigned operand (R72). -/
def unsignedSlot (v : Nat) : Half := BitVec.ofNat 16 v

/-- `OPC` of an instruction (R74). -/
def opcode : Instr → Byte
  | .setPixel .. => 0x01#8
  | .getPixel .. => 0x02#8
  | .clearBuffer => 0x03#8
  | .clearScreen => 0x04#8
  | .rdByte .. => 0x05#8
  | .hLine .. => 0x10#8
  | .vLine .. => 0x11#8
  | .line .. => 0x12#8
  | .rect .. => 0x13#8
  | .square .. => 0x14#8
  | .fillRect .. => 0x15#8
  | .fillSquare .. => 0x16#8
  | .circle .. => 0x17#8
  | .fillCircle .. => 0x18#8
  | .tri .. => 0x19#8
  | .triBox .. => 0x1A#8
  | .fillTri .. => 0x1B#8
  | .sendBuffer => 0x30#8
  | .displayImage => 0x31#8
  | .setContrast .. => 0x32#8
  | .init => 0x40#8
  | .release => 0x41#8
  | .rdReg .. => 0x42#8

/-- The command word of an instruction; unused slots are zero (R71, R73). -/
def encode (i : Instr) : Word :=
  let S := signedSlot
  let U := unsignedSlot
  match i with
  | .setPixel x y on => pack (opcode i) on (S x) (S y) 0 0 0 0
  | .getPixel x y => pack (opcode i) false (S x) (S y) 0 0 0 0
  | .clearBuffer | .clearScreen | .sendBuffer | .displayImage | .init | .release => pack (opcode i) false 0 0 0 0 0 0
  | .rdByte n | .rdReg n => pack (opcode i) false (U n) 0 0 0 0 0
  | .setContrast pct => pack (opcode i) false (S pct) 0 0 0 0 0
  | .hLine x y n | .vLine x y n | .square x y n | .fillSquare x y n | .circle x y n | .fillCircle x y n =>
      pack (opcode i) false (S x) (S y) (U n) 0 0 0
  | .rect x y w h | .fillRect x y w h | .triBox x y w h => pack (opcode i) false (S x) (S y) (U w) (U h) 0 0
  | .line x0 y0 x1 y1 => pack (opcode i) false (S x0) (S y0) (S x1) (S y1) 0 0
  | .tri x0 y0 x1 y1 x2 y2 | .fillTri x0 y0 x1 y1 x2 y2 => pack (opcode i) false (S x0) (S y0) (S x1) (S y1) (S x2) (S y2)

/-- The command word a row of spec/opcode_table.json stands for: a command is ONE 128-bit word, handed over whole (R70,
20_memory.md R54: it has no byte order), so the table's bit numbers are the word's own. Bits above `nbits` are 0. -/
def tableWord (nbits w : Nat) : Word := BitVec.ofNat 128 (w % 2 ^ nbits)

/-- The instruction the decoder reads from an instruction whose bits, numbered as the table numbers them, are `w`. -/
def decodeTableWord (nbits w : Nat) : Option Instr := decode (tableWord nbits w)

end Sys2Proof
end

