-- ==== Sys2Proof/Config.lean ====
section
/-! DEFINITION. What an implementation of FBP fixes: its parameters (spec/00_scope.md R6) and the free values the
spec leaves open (spec/10_state.md R38, spec/44_transmission.md R150). -/

namespace Sys2Proof

/-- A device command, handed to the device whole and kept symbolic (44_transmission.md R150, decision D12). The first
five are the five kinds of R150. `other n` stands for a command of INITSEQ that is none of the five (45_system.md R166,
vector X10); DESIGN CHOICE, log 11, safe: only its identity is used. -/
inductive DeviceCmd where
  | setColumnAddress (first last : Nat)
  | setPageRange (first last : Nat)
  | displayOn
  | displayOff
  | setContrast (v : Byte)
  | other (n : Nat)
  deriving DecidableEq, Repr

/-- CONTRAST_TIE (44_transmission.md R156): at each of the five tie percentages, whether `round` takes the upper of the
two admitted values. -/
structure ContrastTie where
  up10 : Bool
  up30 : Bool
  up50 : Bool
  up70 : Bool
  up90 : Bool
  deriving DecidableEq, Repr

/-- The parameters of 00_scope.md R6 that the spec leaves OPEN. Every value is fixed when the block is built; no step
changes them. -/
structure Config where
  columns      : Nat
  rows         : Nat
  dimSeconds   : Nat
  sleepSeconds : Nat
  contrastInit : Byte
  initSeq      : List DeviceCmd
  tie          : ContrastTie
  deriving DecidableEq, Repr

/-- The configuration of `State.reset`: the "Default configuration" of 95_test_vectors.md. The sizes and the two
thresholds are DOC0's own example values (00_scope.md R6); `contrastInit`, `initSeq` and `tie` have no source at all.
DESIGN CHOICE, log 1, unsafe for a claim about runs from `State.reset`; a claim over all states holds for every
configuration. -/
def Config.standard : Config :=
  { columns := 128, rows := 64, dimSeconds := 45, sleepSeconds := 60, contrastInit := 207#8, initSeq := [],
    tie := { up10 := true, up30 := true, up50 := true, up70 := true, up90 := true } }

/-- FREE VALUE (log 2): the contents of frame buffer cell `i` after the `epoch`-th reset, before its first write.
10_state.md R38: unspecified, "a draw". -/
opaque Config.fbAtReset : Nat → Nat → Byte

/-- FREE VALUE (log 3): `contrast` after the `epoch`-th reset, until INIT writes it. 10_state.md R38. -/
opaque Config.contrastAtReset : Nat → Byte

/-- FREE VALUE (log 3): `preDim` after the `epoch`-th reset, until the first entry to Dim. 10_state.md R38. -/
opaque Config.preDimAtReset : Nat → Byte

/-- DEVCMD (44_transmission.md R150): the bytes of a device command. OPEN and uninterpreted (log 17); the bus trace
carries the symbolic command. -/
opaque Config.devCmdBytes : DeviceCmd → List Byte

end Sys2Proof
end

