-- ==== Sys2Proof/Machine/State.lean ====
section
/-! DEFINITION. The state of FBP as plain data (spec/10_state.md), the inputs of a step held beside it (R34), the reasons
a step can stop, and the state after reset (R37, R38, spec/70_reset_and_hazards.md R201). -/

namespace Sys2Proof.Machine

/-- The frame buffer's written cells, address first, strictly rising addresses. An address that is not listed has not
been written since reset and holds no specified value (10_state.md R38); log 2. -/
abbrev Memory := List Host.Cell

/-- `pstate` (10_state.md R24). -/
inductive PowerState where
  | off | on | dim | sleep
  deriving DecidableEq, Repr

/-- Which threshold an armed timer runs with (10_state.md R27). -/
inductive TimerPhase where
  | dimPhase | sleepPhase
  deriving DecidableEq, Repr

/-- `timer` (10_state.md R27). `since` is the time of arming, carried for the timed model (60_exceptions.md R185). -/
inductive Timer where
  | stopped
  | armed (phase : TimerPhase) (since : Rat)
  deriving DecidableEq, Repr

/-- The three sticky flags (10_state.md R29). -/
structure Flags where
  busErrSeen  : Bool
  fatal       : Bool
  illegalSeen : Bool
  deriving DecidableEq, Repr

/-- Status codes (60_exceptions.md R175). -/
inductive Status where
  | ok | illegal | badState | range | busErr | fatal
  deriving DecidableEq, Repr

/-- One completion record `CR` (30_encoding.md R80). -/
structure Completion where
  status : Status
  data   : Half
  deriving DecidableEq, Repr

/-- One transfer on the device bus (00_scope.md R9): a whole device command or one data chunk, first byte first. -/
inductive Transfer where
  | cmd (c : DeviceCmd)
  | data (bytes : List Byte)
  deriving DecidableEq, Repr

/-- The device's answer to one transfer (00_scope.md R9, `BusCmd` and `BusData`). -/
inductive BusAnswer where
  | accept | refuse | silent
  deriving DecidableEq, Repr

/-- What the canvas port answers (43_canvas_pack.md R140): luminances keyed by pixel number `x' + y' * columns`; a
pixel that is not listed has luminance 0. Every total function on the panel's pixels is such a list (log 7). -/
abbrev Canvas := List Host.Cell

/-- What the outside world does next (10_state.md R34, 70_reset_and_hazards.md R204); log 4. -/
inductive Event where
  /-- The host hands over one command word. -/
  | command (w : Word)
  /-- The idle timer fires: one `IdleFire()` takes its place here in the order of operations (60_exceptions.md R185). -/
  | fire
  /-- Between operations the host changes what the canvas port answers (43_canvas_pack.md R140). -/
  | present (c : Canvas)
  /-- The time is now `t` seconds (timed model, 60_exceptions.md R185). Time never runs back. -/
  | clock (t : Rat)
  /-- The reset input (70_reset_and_hazards.md R200). -/
  | reset
  deriving DecidableEq, Repr

/-- Everything FBP holds, and the inputs of its steps. -/
structure State where
  /-- The configuration (00_scope.md R6, 10_state.md R30); no step changes it. -/
  cfg         : Config
  /-- The frame buffer (10_state.md R23). -/
  fb          : Memory
  /-- The power state (10_state.md R24). -/
  pstate      : PowerState
  /-- The last contrast value sent (10_state.md R25). -/
  contrast    : Byte
  /-- The cached contrast (10_state.md R26). -/
  preDim      : Byte
  /-- The idle timer (10_state.md R27). -/
  timer       : Timer
  /-- The sticky flags (10_state.md R29). -/
  flags       : Flags
  /-- The fault coordinates (10_state.md R28). -/
  faultX      : Half
  faultY      : Half
  /-- An operation waits for an answer the device never gives (60_exceptions.md R191). -/
  hung        : Bool
  /-- The bus trace since reset, oldest first (00_scope.md R9). -/
  trace       : List Transfer
  /-- The completion records handed to the host since reset, oldest first (30_encoding.md R80). -/
  completions : List Completion
  /-- Input: what happens next, the first event first (log 4). -/
  inputs      : List Event
  /-- Input: the device's answers to the coming transfers; when the list is used up it accepts (log 5). -/
  device      : List BusAnswer
  /-- Input: what the canvas port answers (43_canvas_pack.md R140). -/
  canvas      : Canvas
  /-- Input: the time in seconds (timed model, log 8). -/
  now         : Rat
  /-- The MODEL's own counter of resets, which the free values of reset are applied to (log 2). -/
  epoch       : Nat
  deriving DecidableEq, Repr

/-- Why the machine stops. Only `step` and the shared guard `guarded` raise it. -/
inductive Fault where
  /-- An operation hangs and the next event is an operation of either agent: no command is accepted and no timer
  transition runs, the block is stuck until reset (60_exceptions.md R191, 93 U9 "stuck"). Raised by `guarded`. Safe. -/
  | deviceHung
  deriving DecidableEq, Repr

/-- Why the model gives no meaning. -/
inductive Refusal where
  /-- An instruction whose meaning is not written. Raised by an arm of `exec` only. Safe. -/
  | notModelled (mnemonic : String)
  /-- The configuration is outside the admitted set (00_scope.md R7: "A model refuses (gives no meaning to) a
  configuration outside this set"). Raised by `guarded`. Safe. -/
  | configNotAdmitted
  /-- The schedule lists a fire while the timer is stopped: no behaviour of FBP (60_exceptions.md R183: "enabled when
  `timer = Armed(_)`"). Raised by the fire event. Safe. -/
  | fireNotEnabled
  /-- Timed model only: a fire before or after its due time, or time passing beyond it (60_exceptions.md R185). Raised
  by `timedStep`. Safe. -/
  | notDue
  deriving DecidableEq, Repr

/-- The block right after its `epoch`-th reset with configuration `cfg` and idle inputs (10_state.md R37, R38,
70_reset_and_hazards.md R201). -/
def State.resetOf (cfg : Config) (epoch : Nat) : State :=
  { cfg := cfg, fb := [], pstate := .off,
    contrast := Config.contrastAtReset epoch, preDim := Config.preDimAtReset epoch,
    timer := .stopped, flags := { busErrSeen := false, fatal := false, illegalSeen := false },
    faultX := 0, faultY := 0, hung := false, trace := [], completions := [],
    inputs := [], device := [], canvas := [], now := 0, epoch := epoch }

/-- The machine right after power-on: no command handed over yet (log 1, log 4). -/
def State.reset : State := State.resetOf Config.standard 0

end Sys2Proof.Machine
end

