-- ==== Sys2Proof/Machine/Params.lean ====
section
/-! DEFINITION. The parameters derived from a configuration, the admitted configurations (spec/00_scope.md R6, R7) and
the contrast target (spec/44_transmission.md R156). -/

namespace Sys2Proof.Machine

/-- `pages = ceil(rows/8)` (00_scope.md R6). -/
def pages (c : Config) : Nat := (c.rows + 7) / 8

/-- `FBLEN = columns * pages` (00_scope.md R6). -/
def fbLen (c : Config) : Nat := c.columns * pages c

/-- `pageCount`: 8 if `rows > 32`, else 4 (44_transmission.md R151). -/
def pageCount (c : Config) : Nat := if c.rows > 32 then 8 else 4

/-- `maxPage = pageCount - 1` (44_transmission.md R151). -/
def maxPage (c : Config) : Nat := pageCount c - 1

/-- The admitted configurations, items 1 to 4 of 00_scope.md R7. -/
def admitted (c : Config) : Bool :=
  decide (c.rows = 32 ∨ c.rows = 64)
    && decide (1 ≤ c.columns) && decide (fbLen c % 16 = 0)
    && decide (fbLen c ≤ 65535)
    && decide (c.dimSeconds ≤ 65535) && decide (c.sleepSeconds ≤ 65535)
    && decide (¬(c.dimSeconds = 0 ∧ c.sleepSeconds > 0))

/-- "either threshold is configured" (60_exceptions.md R181). -/
def timerConfigured (c : Config) : Bool := decide (c.dimSeconds > 0) || decide (c.sleepSeconds > 0)

/-- The interval of a phase, in seconds (10_state.md R27). -/
def interval (c : Config) : TimerPhase → Rat
  | .dimPhase => (c.dimSeconds : Rat)
  | .sleepPhase => (c.sleepSeconds : Rat)

/-- `min(max(pct, 0), 100)` (44_transmission.md R155). -/
def clampPercent (pct : Int) : Nat := (min (max pct 0) 100).toNat

/-- `Target(p)`, the integer nearest to `p * 255 / 100`; at the five ties the configuration's choice (44_transmission.md
R156). -/
def target (c : Config) (p : Nat) : Byte :=
  match p with
  | 10 => if c.tie.up10 then 26 else 25
  | 30 => if c.tie.up30 then 77 else 76
  | 50 => if c.tie.up50 then 128 else 127
  | 70 => if c.tie.up70 then 179 else 178
  | 90 => if c.tie.up90 then 230 else 229
  | p => BitVec.ofNat 8 ((p * 255 + 50) / 100)

end Sys2Proof.Machine
end

