-- ==== Sys2Proof/Machine/Operands.lean ====
section
/-! DEFINITION. The addressing modes of FBP (spec/20_memory.md R50, R66): pixel, byte index, sweep; the frame buffer's
byte access and the canvas port (spec/00_scope.md R9, spec/43_canvas_pack.md R140). -/

namespace Sys2Proof.Machine

/-! ## The frame buffer as a list of cells -/

/-- The listed byte at an address; `none` when the address has not been written since reset. -/
def Memory.read? : Memory → Nat → Option Byte
  | [], _ => none
  | (j, b) :: m, i => if j = i then some b else Memory.read? m i

/-- One byte written, keeping the addresses strictly rising. -/
def Memory.write : Memory → Nat → Byte → Memory
  | [], i, v => [(i, v)]
  | (j, b) :: m, i, v =>
    if i < j then (i, v) :: (j, b) :: m
    else if j = i then (i, v) :: m
    else (j, b) :: Memory.write m i v

/-- The sweep: byte `f i` written at every `i` from 0 to `n - 1`, ascending (20_memory.md R66). Cells from `n` on keep
their bytes. -/
def Memory.sweep (n : Nat) (f : Nat → Byte) (m : Memory) : Memory :=
  ((List.range n).map fun i => (i, f i)) ++ m.filter fun c => decide (n ≤ c.1)

/-- The canonical form: strictly rising addresses. An unlisted address holds no value, so no entry can equal what an
unlisted address holds (log 2). -/
def Memory.wf : Memory → Bool
  | [] => true
  | [_] => true
  | (i, _) :: (j, b) :: m => decide (i < j) && Memory.wf ((j, b) :: m)

/-- Every listed address is below `n`. -/
def Memory.within (n : Nat) (m : Memory) : Bool := m.all fun c => decide (c.1 < n)

/-- `MemRead(i, 1)` (00_scope.md R9). A byte not written since reset reads as the free value of log 2 (10_state.md R38). -/
def State.readByte (s : State) (i : Nat) : Byte := (s.fb.read? i).getD (Config.fbAtReset s.epoch i)

/-- `MemWrite(i, 1, v)` (00_scope.md R9). -/
def State.writeByte (s : State) (i : Nat) (v : Byte) : State := { s with fb := s.fb.write i v }

/-- A sweep over the whole frame buffer. -/
def State.sweepBytes (s : State) (f : Nat → Byte) : State := { s with fb := s.fb.sweep (fbLen s.cfg) f }

/-! ## Pixel addressing (R50, R66) -/

/-- The byte index and bit position of the pixel at caller coordinates `(x, y)`, after the conversion to 0-indexed
coordinates and the bounds check of 40_framebuffer.md R90; `none` outside the panel. -/
def pixelAddr (c : Config) (x y : Int) : Option (Nat × Nat) :=
  let x' := x - 1
  let y' := y - 1
  if x' < 0 ∨ (c.columns : Int) ≤ x' ∨ y' < 0 ∨ (c.rows : Int) ≤ y' then none
  else some (x'.toNat + (y'.toNat / 8) * c.columns, y'.toNat % 8)

/-- The pixel at caller coordinates `(x, y)`, `none` outside the panel (20_memory.md R50). -/
def State.pixel (s : State) (x y : Int) : Option Bool :=
  (pixelAddr s.cfg x y).map fun a => (s.readByte a.1).getLsbD a.2

/-- Byte index addressing: `idx < FBLEN` (20_memory.md R66). -/
def byteAddr (c : Config) (idx : Nat) : Option Nat := if idx < fbLen c then some idx else none

/-! ## The canvas port (43_canvas_pack.md R140) -/

/-- `CvRead(x', y')`, 0-indexed buffer coordinates. -/
def State.cvRead (s : State) (x' y' : Nat) : Byte := (Memory.read? s.canvas (x' + y' * s.cfg.columns)).getD 0

end Sys2Proof.Machine
end

