-- ==== Sys2Proof/Machine/Flags.lean ====
section
/-! DEFINITION. Statuses, completion records, the sticky flags and the register table (spec/60_exceptions.md R175 to R178,
spec/30_encoding.md R80, spec/10_state.md R24, R27 to R31). FBP has no condition codes (10_state.md R22). -/

namespace Sys2Proof.Machine

/-- The code of a status in `CR[19:16]` (60_exceptions.md R175). -/
def Status.code : Status → BitVec 4
  | .ok => 0
  | .illegal => 1
  | .badState => 2
  | .range => 3
  | .busErr => 4
  | .fatal => 5

/-- The 20 bits of a completion record (30_encoding.md R80). -/
def Completion.bits (c : Completion) : BitVec 20 := c.status.code ++ c.data

/-- `complete(status, data)` (00_scope.md R9): the record goes to the host. -/
def State.complete (s : State) (st : Status) (data : Half) : State :=
  { s with completions := s.completions ++ [{ status := st, data := data }] }

/-- The index into the host's command list that 10_state.md R21 and 45_system.md R171 give a model as its pc: one more
for every completed command, whatever its status. -/
def State.k (s : State) : Nat := s.completions.length

/-- BUSERR_SEEN is set at the moment the status is raised (60_exceptions.md R176). -/
def State.noteBusErr (s : State) : State := { s with flags := { s.flags with busErrSeen := true } }

/-- ILLEGAL_SEEN (30_encoding.md R82). -/
def State.noteIllegal (s : State) : State := { s with flags := { s.flags with illegalSeen := true } }

/-- The arithmetic fault (60_exceptions.md R177): the offending caller coordinates, truncated to 16 bits, and the sticky
flag. No rule of the spec raises it and no meaning calls this operation (log 10). -/
def State.latchFatal (s : State) (x y : Int) : State :=
  { s with faultX := BitVec.ofInt 16 x, faultY := BitVec.ofInt 16 y, flags := { s.flags with fatal := true } }

/-- The two bits of `pstate` (10_state.md R24). -/
def PowerState.code : PowerState → Half
  | .off => 0
  | .on => 1
  | .dim => 2
  | .sleep => 3

/-- Register 9, TIMER: bit 0 ARMED, bit 1 PHASE (10_state.md R31). -/
def Timer.code : Timer → Half
  | .stopped => 0
  | .armed .dimPhase _ => 1
  | .armed .sleepPhase _ => 3

/-- Register 10, FLAGS: bit 0 BUSERR_SEEN, bit 1 FATAL, bit 2 ILLEGAL_SEEN, the rest 0 (10_state.md R31). -/
def Flags.code (f : Flags) : Half :=
  (0#13 ++ BitVec.ofBool f.illegalSeen ++ BitVec.ofBool f.fatal ++ BitVec.ofBool f.busErrSeen : BitVec 16)

/-- `reg(n)`, the table of 10_state.md R31 as 16-bit patterns; `none` for the reserved numbers from 13 on. -/
def State.reg (s : State) (n : Nat) : Option Half :=
  match n with
  | 0 => some (BitVec.ofNat 16 s.cfg.columns)
  | 1 => some (BitVec.ofNat 16 s.cfg.rows)
  | 2 => some (BitVec.ofNat 16 (fbLen s.cfg))
  | 3 => some (BitVec.ofNat 16 (maxPage s.cfg))
  | 4 => some (BitVec.ofNat 16 s.cfg.dimSeconds)
  | 5 => some (BitVec.ofNat 16 s.cfg.sleepSeconds)
  | 6 => some s.pstate.code
  | 7 => some (s.contrast.setWidth 16)
  | 8 => some (s.preDim.setWidth 16)
  | 9 => some s.timer.code
  | 10 => some s.flags.code
  | 11 => some s.faultX
  | 12 => some s.faultY
  | _ => none

end Sys2Proof.Machine
end

