-- ==== Sys2Proof/Machine/Ops.lean ====
section
/-! DEFINITION. The operations the meanings share: the pixel write (spec/40_framebuffer.md R90), the bus primitives
(spec/00_scope.md R9), the fade (spec/44_transmission.md R157), the activity reset and the idle transition
(spec/60_exceptions.md R181 to R183), and the frame every command runs in (admission, spec/45_system.md R165; completion,
spec/30_encoding.md R80; a status is FBP's exception, spec/60_exceptions.md R175, R188). -/

namespace Sys2Proof.Machine

/-! ## Pixels -/

/-- The mask of a bit position, `1 << (y' & 7)` (40_framebuffer.md R90). -/
def bitMask (b : Nat) : Byte := 1#8 <<< b

/-- `SetPixel(x, y, on)` (40_framebuffer.md R90). -/
def State.setPixel (s : State) (x y : Int) (on : Bool) : State :=
  match pixelAddr s.cfg x y with
  | none => s
  | some (idx, bit) =>
    if on then s.writeByte idx (s.readByte idx ||| bitMask bit)
    else s.writeByte idx (s.readByte idx &&& ~~~ bitMask bit)

/-- A sequence of `Plot` calls, first point first (00_scope.md R9, 41_rasterizer_lines_rects.md R100). -/
def State.plotAll (s : State) (pts : List Point) : State := pts.foldl (fun s p => s.setPixel p.1 p.2 true) s

/-! ## Running a procedure that uses the bus -/

/-- How a procedure stands after its steps so far (00_scope.md R9, R11): it goes on, it raised `BusError`, or it waits
for an answer that never comes. -/
inductive Progress where
  | going | busError | hung
  deriving DecidableEq, Repr

/-- The state a procedure has reached, and how it stands. -/
structure Ran where
  st  : State
  how : Progress
  deriving DecidableEq, Repr

/-- A procedure that goes on. -/
def going (s : State) : Ran := { st := s, how := .going }

/-- Steps happen in the order written, each bus transfer completing before the next step starts (20_memory.md R59); after
a bus error or a hang no later step happens (60_exceptions.md R187, R191). -/
def Ran.andThen (r : Ran) (f : State → Ran) : Ran :=
  match r.how with
  | .going => f r.st
  | .busError => r
  | .hung => r

/-- Hand one transfer to the device and wait (00_scope.md R9). Accepted: it joins the trace. Refused: BUSERR_SEEN is set
and `BusError` raised, the transfer is not in the trace (60_exceptions.md R187). Never answered: the operation hangs
(R191; that the transfer is not in the trace is log 6). -/
def busTransfer (t : Transfer) (s : State) : Ran :=
  match s.device with
  | [] => going { s with trace := s.trace ++ [t] }
  | .accept :: rest => going { s with device := rest, trace := s.trace ++ [t] }
  | .refuse :: rest => { st := State.noteBusErr { s with device := rest }, how := .busError }
  | .silent :: rest => { st := { s with device := rest, hung := true }, how := .hung }

/-- `BusCmd(c)`. -/
def busCmd (c : DeviceCmd) (s : State) : Ran := busTransfer (.cmd c) s

/-- `BusData(b)`. -/
def busData (b : List Byte) (s : State) : Ran := busTransfer (.data b) s

/-- `for c in cs: BusCmd(c)`. -/
def busCmds : List DeviceCmd → State → Ran
  | [], s => going s
  | c :: cs, s => (busCmd c s).andThen (busCmds cs)

/-! ## The fade (44_transmission.md R157) -/

/-- `contrast + sgn(t - contrast)`, for `contrast != t`. -/
def stepToward (c t : Byte) : Byte := if c < t then c + 1 else c - 1

/-- `abs(t - contrast)`. -/
def fadeDelta (c t : Byte) : Nat := (c.toNat - t.toNat) + (t.toNat - c.toNat)

/-- `n` steps of the fade: `contrast` one unit toward `t`, then the device command carrying it. The delay after a step
changes no state (70_reset_and_hazards.md R212). -/
def fadeSteps : Nat → Byte → State → Ran
  | 0, _, s => going s
  | n + 1, t, s =>
    let c := stepToward s.contrast t
    (busCmd (.setContrast c) { s with contrast := c }).andThen (fadeSteps n t)

/-- `FadeTo(t)`: `abs(t - contrast)` steps, none when already there. -/
def fadeTo (t : Byte) (s : State) : Ran := fadeSteps (fadeDelta s.contrast t) t s

/-! ## Activity and the idle timer (60_exceptions.md R181 to R183) -/

/-- `timer <- t`. -/
def State.setTimer (s : State) (t : Timer) : State := { s with timer := t }

/-- `UnDim()` (R182). -/
def unDim (s : State) : Ran := (fadeTo s.preDim s).andThen fun s => going { s with pstate := .on }

/-- `Wake()` (R182). -/
def wake (s : State) : Ran := (busCmd .displayOn s).andThen unDim

/-- "stop and restart the idle timer with interval `dimSeconds`", if either threshold is configured (R181). -/
def restartTimer (s : State) : State :=
  if timerConfigured s.cfg then s.setTimer (.armed .dimPhase s.now) else s

/-- The first half of `ActivityReset()`: restore On (R181). -/
def restoreOn (s : State) : Ran :=
  match s.pstate with
  | .dim => unDim s
  | .sleep => wake s
  | .on => going s
  | .off => going s

/-- `ActivityReset()` (R181). -/
def activityReset (s : State) : Ran := (restoreOn s).andThen fun s => going (restartTimer s)

/-- `IdleFire()` (R183): the whole of what the timer agent does. A bus error abandons it (R186). -/
def idleFire (s : State) : Ran :=
  let s := s.setTimer .stopped
  if s.flags.fatal then going s
  else
    match s.pstate with
    | .on =>
      (fadeTo 0 { s with preDim := s.contrast }).andThen fun s =>
        going { s with
          pstate := .dim
          timer := if s.cfg.sleepSeconds > 0 then .armed .sleepPhase s.now else .stopped }
    | .dim => (busCmd .displayOff s).andThen fun s => going { s with pstate := .sleep, timer := .stopped }
    | .sleep => going s
    | .off => going s

/-! ## The frame of every operation -/

/-- No operation has a meaning under a configuration that is not admitted (00_scope.md R7), and none starts while another
hangs (60_exceptions.md R191). -/
def guarded (s : State) (k : State → State) : Host.Outcome State Fault Refusal :=
  if admitted s.cfg then (if s.hung then .fault .deviceHung else .next (k s)) else .refused .configNotAdmitted

/-- Which admission a command asks for (45_system.md R165): RDREG always passes, INIT needs Off, the rest need On, Dim or
Sleep. -/
inductive Admission where
  | always | whenOff | whenRunning
  deriving DecidableEq, Repr

/-- Steps 2 to 5 of `Admit()` (45_system.md R165): the status that ends the command, or `none` when it is admitted. Step
1 is decode's. -/
def admitStatus (a : Admission) (s : State) : Option Status :=
  match a with
  | .always => none
  | .whenOff => if s.flags.fatal then some .fatal else if s.pstate = .off then none else some .badState
  | .whenRunning => if s.flags.fatal then some .fatal else if s.pstate = .off then some .badState else none

/-- One command: admission, then its body. A command that `Admit()` ends has no other effect (45_system.md R165). -/
def runCommand (a : Admission) (body : State → State) (s : State) : Host.Outcome State Fault Refusal :=
  guarded s fun s =>
    match admitStatus a s with
    | some st => s.complete st 0
    | none => body s

/-- The end of a command that used the bus: `(OK, 0)`, `(BUSERR, 0)` (60_exceptions.md R175), or no completion at all
(R191). -/
def Ran.finish (r : Ran) : State :=
  match r.how with
  | .going => r.st.complete .ok 0
  | .busError => r.st.complete .busErr 0
  | .hung => r.st

/-- The shape of every rasterizer command (41_rasterizer_lines_rects.md R100): one activity reset, then the plots. -/
def drawing (pts : List Point) (s : State) : Host.Outcome State Fault Refusal :=
  runCommand .whenRunning (fun s => ((activityReset s).andThen fun s => going (s.plotAll pts)).finish) s

/-- An illegal command word (30_encoding.md R82, 45_system.md R165 step 1). -/
def illegalWord (s : State) : Host.Outcome State Fault Refusal :=
  guarded s fun s => s.noteIllegal.complete .illegal 0

end Sys2Proof.Machine
end

