-- ==== Sys2Proof/Machine/Raster.lean ====
section
/-! DEFINITION. The plot sequences of the rasterizer, each the walk its rule gives (spec/41_rasterizer_lines_rects.md,
spec/42_rasterizer_circles_triangles.md). All coordinates are caller coordinates and all arithmetic is exact; only the set
of points can be observed (R101). The completions of DOC0's outlines are the spec's own (93 G1 to G4, log 13). -/

namespace Sys2Proof.Machine

/-- `HLine(x, y, w)` (R102). -/
def hSpan (x y : Int) (w : Nat) : List Point := (List.range w).map fun (i : Nat) => (x + i, y)

/-- `VLine(x, y, h)` (R103). -/
def vSpan (x y : Int) (h : Nat) : List Point := (List.range h).map fun (i : Nat) => (x, y + i)

/-! ## The general line (R104, R105) -/

/-- The loop of `Walk`: `n` iterations from long-axis position `x`. -/
def walkLoop (steep : Bool) (dx dy ystep : Int) : Nat → Int → Int → Int → List Point
  | 0, _, _, _ => []
  | n + 1, x, y, err =>
    (if steep then (y, x) else (x, y)) ::
      (if err - dy < 0 then walkLoop steep dx dy ystep n (x + 1) (y + ystep) (err - dy + dx)
       else walkLoop steep dx dy ystep n (x + 1) y (err - dy))

/-- `Walk` after its two swaps: `x0 <= x1`. -/
def walkOrdered (steep : Bool) (x0 y0 x1 y1 : Int) : List Point :=
  let dx := x1 - x0
  let dy := (y1 - y0).natAbs
  walkLoop steep dx dy (if y0 < y1 then 1 else -1) (dx + 1).toNat x0 y0 (dx / 2)

/-- The endpoint swap of `Walk`. -/
def walkSorted (steep : Bool) (x0 y0 x1 y1 : Int) : List Point :=
  if x0 > x1 then walkOrdered steep x1 y1 x0 y0 else walkOrdered steep x0 y0 x1 y1

/-- `Walk(x0, y0, x1, y1)` (R104). -/
def walk (x0 y0 x1 y1 : Int) : List Point :=
  if (y1 - y0).natAbs > (x1 - x0).natAbs then walkSorted true y0 x0 y1 x1 else walkSorted false x0 y0 x1 y1

/-- `Line(x0, y0, x1, y1)` (R105). -/
def lineOf (x0 y0 x1 y1 : Int) : List Point :=
  if x0 = x1 then vSpan x0 (min y0 y1) ((y1 - y0).natAbs + 1)
  else if y0 = y1 then hSpan (min x0 x1) y0 ((x1 - x0).natAbs + 1)
  else walk x0 y0 x1 y1

/-! ## Rectangles (R107, R109) -/

/-- `Rect(x, y, w, h)` (R107). -/
def rectOf (x y : Int) (w h : Nat) : List Point :=
  if w = 0 ∨ h = 0 then []
  else hSpan x y w ++ hSpan x (y + h - 1) w ++ vSpan x y h ++ vSpan (x + w - 1) y h

/-- `FillRect(x, y, w, h)` (R109). -/
def fillRectOf (x y : Int) (w h : Nat) : List Point := (List.range w).flatMap fun (i : Nat) => vSpan (x + i) y h

/-! ## Circles (R120, R122) -/

/-- The locals of the midpoint walk (R120). -/
structure Midpoint where
  f    : Int
  ddFx : Int
  ddFy : Int
  x    : Int
  y    : Int
  deriving DecidableEq, Repr

/-- The locals on entry (R120, R122). -/
def midpointStart (r : Nat) : Midpoint := { f := 1 - r, ddFx := 1, ddFy := -2 * r, x := 0, y := r }

/-- The part of one iteration under `if f >= 0`. -/
def midpointDrop (m : Midpoint) : Midpoint :=
  if m.f ≥ 0 then { m with y := m.y - 1, ddFy := m.ddFy + 2, f := m.f + (m.ddFy + 2) } else m

/-- The updates of one iteration of the loop (R120). -/
def midpointStep (m : Midpoint) : Midpoint :=
  let m := midpointDrop m
  { m with x := m.x + 1, ddFx := m.ddFx + 2, f := m.f + (m.ddFx + 2) }

/-- The eight plots of one iteration (R120). -/
def octants (cx cy x y : Int) : List Point :=
  [(cx + x, cy + y), (cx - x, cy + y), (cx + x, cy - y), (cx - x, cy - y),
   (cx + y, cy + x), (cx - y, cy + x), (cx + y, cy - x), (cx - y, cy - x)]

/-- `while x < y` of `Circle`. Each iteration adds 1 to `x` and none adds to `y`, so `r` iterations are enough from
`midpointStart r`. -/
def circleLoop (cx cy : Int) : Nat → Midpoint → List Point
  | 0, _ => []
  | n + 1, m =>
    if m.x < m.y then
      let m' := midpointStep m
      octants cx cy m'.x m'.y ++ circleLoop cx cy n m'
    else []

/-- `Circle(cx, cy, r)` (R120). -/
def circleOf (cx cy : Int) (r : Nat) : List Point :=
  [(cx, cy + r), (cx, cy - r), (cx + r, cy), (cx - r, cy)] ++ circleLoop cx cy r (midpointStart r)

/-- A pair of vertical spans at distance `dx` from the centre column, from row `cy - dy`: bit 0 of `corners` is the right
half, bit 1 the left (R122). -/
def sideSpans (corners : Nat) (cx cy dx dy len : Int) : List Point :=
  (if corners.testBit 0 then vSpan (cx + dx) (cy - dy) len.toNat else [])
    ++ (if corners.testBit 1 then vSpan (cx - dx) (cy - dy) len.toNat else [])

/-- `while x < y` of `FillHelper` (R122), with its locals `px` and `py`. -/
def fillHelperLoop (corners : Nat) (cx cy delta : Int) : Nat → Midpoint → Int → Int → List Point
  | 0, _, _, _ => []
  | n + 1, m, px, py =>
    if m.x < m.y then
      let m' := midpointStep m
      (if m'.x < m'.y + 1 then sideSpans corners cx cy m'.x m'.y (2 * m'.y + delta) else [])
        ++ (if m'.y ≠ py then sideSpans corners cx cy py px (2 * px + delta) else [])
        ++ fillHelperLoop corners cx cy delta n m' m'.x (if m'.y ≠ py then m'.y else py)
    else []

/-- `FillHelper(cx, cy, r, corners, delta)` (R122). -/
def fillHelper (cx cy : Int) (r : Nat) (corners : Nat) (delta : Int) : List Point :=
  fillHelperLoop corners cx cy (delta + 1) r (midpointStart r) 0 r

/-- `FillCircle(cx, cy, r)` (R122). -/
def fillCircleOf (cx cy : Int) (r : Nat) : List Point :=
  vSpan cx (cy - r) (2 * r + 1) ++ fillHelper cx cy r 3 0

/-! ## Triangles (R125, R126, R128) -/

/-- `Tri(x0, y0, x1, y1, x2, y2)` (R125). -/
def triOf (x0 y0 x1 y1 x2 y2 : Int) : List Point :=
  lineOf x0 y0 x1 y1 ++ lineOf x1 y1 x2 y2 ++ lineOf x2 y2 x0 y0

/-- The triangle inscribed in the `w` by `h` box centred on `(cx, cy)` (R126). -/
def triBoxOf (cx cy : Int) (w h : Nat) : List Point :=
  triOf cx (cy - (h / 2 : Nat)) (cx - (w / 2 : Nat)) (cy + (h / 2 : Nat)) (cx + (w / 2 : Nat)) (cy + (h / 2 : Nat))

/-- The span of one row from `min(a, b)` to `max(a, b)`. -/
def rowSpan (a b y : Int) : List Point := hSpan (min a b) y (max a b - min a b + 1).toNat

/-- One region of the filled triangle (R128): `n` rows from `y`, between the edge from `xa` (accumulator `sa`, step `dxa`,
divisor `dya`) and the edge from `xb`. The division comes before the accumulator update and truncates (00_scope.md R8). -/
def scanRows (xa dxa dya xb dxb dyb : Int) : Nat → Int → Int → Int → List Point
  | 0, _, _, _ => []
  | n + 1, y, sa, sb =>
    rowSpan (xa + sa.tdiv dya) (xb + sb.tdiv dyb) y
      ++ scanRows xa dxa dya xb dxb dyb n (y + 1) (sa + dxa) (sb + dxb)

/-- `FillTri` after the sort: `y0 <= y1 <= y2` (R128). -/
def fillTriSorted (x0 y0 x1 y1 x2 y2 : Int) : List Point :=
  if y0 = y2 then
    let a := min x0 (min x1 x2)
    let b := max x0 (max x1 x2)
    hSpan a y0 (b - a + 1).toNat
  else
    let last := if y1 = y2 then y1 else y1 - 1
    scanRows x0 (x1 - x0) (y1 - y0) x0 (x2 - x0) (y2 - y0) (last + 1 - y0).toNat y0 0 0
      ++ scanRows x1 (x2 - x1) (y2 - y1) x0 (x2 - x0) (y2 - y0) (y2 - last).toNat (last + 1)
          ((x2 - x1) * (last + 1 - y1)) ((x2 - x0) * (last + 1 - y0))

/-- The third swap of the sort, on `y0 > y1`. -/
def fillTriSwap3 (x0 y0 x1 y1 x2 y2 : Int) : List Point :=
  if y0 > y1 then fillTriSorted x1 y1 x0 y0 x2 y2 else fillTriSorted x0 y0 x1 y1 x2 y2

/-- The second swap of the sort, on `y1 > y2`. -/
def fillTriSwap2 (x0 y0 x1 y1 x2 y2 : Int) : List Point :=
  if y1 > y2 then fillTriSwap3 x0 y0 x2 y2 x1 y1 else fillTriSwap3 x0 y0 x1 y1 x2 y2

/-- `FillTri(x0, y0, x1, y1, x2, y2)` (R128): three conditional swaps of paired x and y, then the regions. -/
def fillTriOf (x0 y0 x1 y1 x2 y2 : Int) : List Point :=
  if y0 > y1 then fillTriSwap2 x1 y1 x0 y0 x2 y2 else fillTriSwap2 x0 y0 x1 y1 x2 y2

end Sys2Proof.Machine
end

