-- ==== Sys2Proof/Machine/Lines.lean ====
section
/-! DEFINITION. The line and rectangle commands (spec/41_rasterizer_lines_rects.md R102 to R110). -/

namespace Sys2Proof.Machine

/-- HLINE (R102). -/
def execHLine (x y : Int) (w : Nat) (s : State) : Host.Outcome State Fault Refusal := drawing (hSpan x y w) s

/-- VLINE (R103). -/
def execVLine (x y : Int) (h : Nat) (s : State) : Host.Outcome State Fault Refusal := drawing (vSpan x y h) s

/-- LINE (R105). -/
def execLine (x0 y0 x1 y1 : Int) (s : State) : Host.Outcome State Fault Refusal := drawing (lineOf x0 y0 x1 y1) s

/-- RECT (R107). -/
def execRect (x y : Int) (w h : Nat) (s : State) : Host.Outcome State Fault Refusal := drawing (rectOf x y w h) s

/-- SQUARE (R108): `Rect(x, y, s, s)`. -/
def execSquare (x y : Int) (side : Nat) (s : State) : Host.Outcome State Fault Refusal :=
  drawing (rectOf x y side side) s

/-- FILLRECT (R109). -/
def execFillRect (x y : Int) (w h : Nat) (s : State) : Host.Outcome State Fault Refusal := drawing (fillRectOf x y w h) s

/-- FILLSQUARE (R110): `FillRect(x, y, s, s)`. -/
def execFillSquare (x y : Int) (side : Nat) (s : State) : Host.Outcome State Fault Refusal :=
  drawing (fillRectOf x y side side) s

end Sys2Proof.Machine
end

