-- ==== Sys2Proof/Machine/Transmission.lean ====
section
/-! DEFINITION. The canvas pack (spec/43_canvas_pack.md R141), the transmission pipeline (spec/44_transmission.md R152)
and the commands SENDBUFFER, DISPLAYIMAGE, SETCONTRAST (R153 to R155). -/

namespace Sys2Proof.Machine

/-- Chunk `k`: the bytes `fb[16k] .. fb[16k+15]`, ascending (R152, 20_memory.md R54). -/
def State.chunk (s : State) (k : Nat) : List Byte := (List.range 16).map fun j => s.readByte (16 * k + j)

/-- `n` chunks from chunk `k` on, ascending (R152). -/
def sendChunks : Nat → Nat → State → Ran
  | 0, _, s => going s
  | n + 1, k, s => (busData (s.chunk k) s).andThen (sendChunks n (k + 1))

/-- `Transmit()` (R152). -/
def transmit (s : State) : Ran :=
  (busCmds [.setColumnAddress 0 (s.cfg.columns - 1), .setPageRange 0 (maxPage s.cfg)] s).andThen
    (sendChunks (fbLen s.cfg / 16) 0)

/-- The byte of one page and column (43_canvas_pack.md R141): bit positions 0 to 7 of the loop take the rows of the page
from the bottom up, each shifted in at the right. -/
def packByte (s : State) (page col : Nat) : Byte :=
  (List.range 8).foldl
    (fun acc bit => (acc <<< 1) ||| (if s.cvRead col (page * 8 + (7 - bit)) > 0#8 then 1#8 else 0#8)) 0#8

/-- `Pack()` (43_canvas_pack.md R141), the whole canvas: the byte of `(col, page)` goes to `fb[col + page*columns]`. -/
def packCanvas (s : State) : State := s.sweepBytes fun i => packByte s (i / s.cfg.columns) (i % s.cfg.columns)

/-- SENDBUFFER (R153). -/
def execSendBuffer (s : State) : Host.Outcome State Fault Refusal :=
  runCommand .whenRunning (fun s => ((activityReset s).andThen transmit).finish) s

/-- DISPLAYIMAGE (R154): activity reset, pack, transmission, in that order. -/
def execDisplayImage (s : State) : Host.Outcome State Fault Refusal :=
  runCommand .whenRunning (fun s => ((activityReset s).andThen fun s => transmit (packCanvas s)).finish) s

/-- SETCONTRAST (R155): clamp, target, fade; no activity reset. -/
def execSetContrast (pct : Int) (s : State) : Host.Outcome State Fault Refusal :=
  runCommand .whenRunning (fun s => (fadeTo (target s.cfg (clampPercent pct)) s).finish) s

end Sys2Proof.Machine
end

