-- ==== Sys2Proof/Machine/PixelStore.lean ====
section
/-! DEFINITION. The pixel store commands (spec/40_framebuffer.md R91 to R95). -/

namespace Sys2Proof.Machine

/-- SETPIXEL (R91): no activity reset (decision D13). -/
def execSetPixel (x y : Int) (on : Bool) (s : State) : Host.Outcome State Fault Refusal :=
  runCommand .whenRunning (fun s => (s.setPixel x y on).complete .ok 0) s

/-- GETPIXEL (R92): RANGE outside the panel, else the pixel in bit 0. -/
def execGetPixel (x y : Int) (s : State) : Host.Outcome State Fault Refusal :=
  runCommand .whenRunning (fun s =>
    match pixelAddr s.cfg x y with
    | none => s.complete .range 0
    | some (idx, bit) => s.complete .ok (((s.readByte idx >>> bit) &&& 1#8).setWidth 16)) s

/-- `for i in 0 .. FBLEN-1: MemWrite(i, 1, 0)` (R93). -/
def zeroFill (s : State) : State := s.sweepBytes fun _ => 0

/-- CLEARBUFFER (R93): no bus, no activity reset. -/
def execClearBuffer (s : State) : Host.Outcome State Fault Refusal :=
  runCommand .whenRunning (fun s => (zeroFill s).complete .ok 0) s

/-- CLEARSCREEN (R94): activity reset, zero fill, transmission, in that order. -/
def execClearScreen (s : State) : Host.Outcome State Fault Refusal :=
  runCommand .whenRunning (fun s => ((activityReset s).andThen fun s => transmit (zeroFill s)).finish) s

/-- RDBYTE (R95): RANGE when `idx >= FBLEN`, else the byte zero-extended. -/
def execRdByte (idx : Nat) (s : State) : Host.Outcome State Fault Refusal :=
  runCommand .whenRunning (fun s =>
    match byteAddr s.cfg idx with
    | none => s.complete .range 0
    | some i => s.complete .ok ((s.readByte i).setWidth 16)) s

end Sys2Proof.Machine
end

