-- ==== Sys2Proof/Machine/Shapes.lean ====
section
/-! DEFINITION. The circle and triangle commands (spec/42_rasterizer_circles_triangles.md R120 to R128). -/

namespace Sys2Proof.Machine

/-- CIRCLE (R120). -/
def execCircle (cx cy : Int) (r : Nat) (s : State) : Host.Outcome State Fault Refusal := drawing (circleOf cx cy r) s

/-- FILLCIRCLE (R122). -/
def execFillCircle (cx cy : Int) (r : Nat) (s : State) : Host.Outcome State Fault Refusal :=
  drawing (fillCircleOf cx cy r) s

/-- TRI (R125). -/
def execTri (x0 y0 x1 y1 x2 y2 : Int) (s : State) : Host.Outcome State Fault Refusal :=
  drawing (triOf x0 y0 x1 y1 x2 y2) s

/-- TRIBOX (R126). -/
def execTriBox (cx cy : Int) (w h : Nat) (s : State) : Host.Outcome State Fault Refusal := drawing (triBoxOf cx cy w h) s

/-- FILLTRI (R128). -/
def execFillTri (x0 y0 x1 y1 x2 y2 : Int) (s : State) : Host.Outcome State Fault Refusal :=
  drawing (fillTriOf x0 y0 x1 y1 x2 y2) s

end Sys2Proof.Machine
end

