-- ==== Sys2Proof/Machine/SystemCommands.lean ====
section
/-! DEFINITION. The system commands INIT, RELEASE, RDREG (spec/45_system.md R166, R167, R169). -/

namespace Sys2Proof.Machine

/-- INIT (R166): INITSEQ on the bus, then `contrast`, `pstate` and the timer. It is admitted only in Off. -/
def execInit (s : State) : Host.Outcome State Fault Refusal :=
  runCommand .whenOff (fun s =>
    ((busCmds s.cfg.initSeq s).andThen fun s =>
      going (restartTimer { s with contrast := s.cfg.contrastInit, pstate := .on })).finish) s

/-- RELEASE (R167): nothing on the bus; timer stopped, then Off. -/
def execRelease (s : State) : Host.Outcome State Fault Refusal :=
  runCommand .whenRunning (fun s => { s with timer := .stopped, pstate := .off }.complete .ok 0) s

/-- RDREG (R169): RANGE for the reserved numbers. -/
def execRdReg (n : Nat) (s : State) : Host.Outcome State Fault Refusal :=
  runCommand .always (fun s =>
    match s.reg n with
    | none => s.complete .range 0
    | some v => s.complete .ok v) s

end Sys2Proof.Machine
end

