-- ==== Sys2Proof/Machine/Dispatch.lean ====
section
/-! DEFINITION. One arm per command: the meaning it has (spec/30_encoding.md R74, the last column). -/

namespace Sys2Proof.Machine

def exec (i : Instr) (s : State) : Host.Outcome State Fault Refusal :=
  match i with
  | .setPixel x y on => Sys2Proof.Machine.execSetPixel x y on s
  | .getPixel x y => Sys2Proof.Machine.execGetPixel x y s
  | .clearBuffer => Sys2Proof.Machine.execClearBuffer s
  | .clearScreen => Sys2Proof.Machine.execClearScreen s
  | .rdByte idx => Sys2Proof.Machine.execRdByte idx s
  | .hLine x y w => Sys2Proof.Machine.execHLine x y w s
  | .vLine x y h => Sys2Proof.Machine.execVLine x y h s
  | .line x0 y0 x1 y1 => Sys2Proof.Machine.execLine x0 y0 x1 y1 s
  | .rect x y w h => Sys2Proof.Machine.execRect x y w h s
  | .square x y side => Sys2Proof.Machine.execSquare x y side s
  | .fillRect x y w h => Sys2Proof.Machine.execFillRect x y w h s
  | .fillSquare x y side => Sys2Proof.Machine.execFillSquare x y side s
  | .circle cx cy r => Sys2Proof.Machine.execCircle cx cy r s
  | .fillCircle cx cy r => Sys2Proof.Machine.execFillCircle cx cy r s
  | .tri x0 y0 x1 y1 x2 y2 => Sys2Proof.Machine.execTri x0 y0 x1 y1 x2 y2 s
  | .triBox cx cy w h => Sys2Proof.Machine.execTriBox cx cy w h s
  | .fillTri x0 y0 x1 y1 x2 y2 => Sys2Proof.Machine.execFillTri x0 y0 x1 y1 x2 y2 s
  | .sendBuffer => Sys2Proof.Machine.execSendBuffer s
  | .displayImage => Sys2Proof.Machine.execDisplayImage s
  | .setContrast pct => Sys2Proof.Machine.execSetContrast pct s
  | .init => Sys2Proof.Machine.execInit s
  | .release => Sys2Proof.Machine.execRelease s
  | .rdReg n => Sys2Proof.Machine.execRdReg n s

end Sys2Proof.Machine
end

