-- ==== Sys2Proof/Machine/Events.lean ====
section
/-! DEFINITION. What each event of the outside world makes the block do: a command word handed over (spec/30_encoding.md
R70, R76, R82), a timer fire (spec/60_exceptions.md R183, R185), reset (spec/70_reset_and_hazards.md R200), and the two
changes of the environment that are no operation of FBP. -/

namespace Sys2Proof.Machine

/-- A command word is latched, decoded and executed to completion (30_encoding.md R70, 45_system.md R165). -/
def handOver (w : Word) (s : State) : Host.Outcome State Fault Refusal :=
  match decode w with
  | some i => exec i s
  | none => illegalWord s

/-- One timer transition, enabled only while the timer is armed (60_exceptions.md R183, R185). It yields no completion
record (R183, R186). -/
def timerFires (s : State) : Host.Outcome State Fault Refusal :=
  match s.timer with
  | .stopped => .refused .fireNotEnabled
  | .armed _ _ => guarded s fun s => (idleFire s).st

/-- Reset (70_reset_and_hazards.md R200, R201): the block's own state anew; the environment's inputs go on. -/
def resetBlock (s : State) : State :=
  { State.resetOf s.cfg (s.epoch + 1) with inputs := s.inputs, device := s.device, canvas := s.canvas, now := s.now }

/-- The effect of one event on a state whose event list is already past it. -/
def onEvent (e : Event) (s : State) : Host.Outcome State Fault Refusal :=
  match e with
  | .command w => handOver w s
  | .fire => timerFires s
  | .present c => .next { s with canvas := c }
  | .clock t => .next { s with now := max s.now t }
  | .reset => .next (resetBlock s)

/-- The next event. With none to come the block idles: it waits for a word (70_reset_and_hazards.md R202; log 4). -/
def nextEvent (s : State) : Host.Outcome State Fault Refusal :=
  match s.inputs with
  | [] => .next s
  | e :: rest => onEvent e { s with inputs := rest }

end Sys2Proof.Machine
end

