-- ==== Sys2Proof/Machine/Timed.lean ====
section
/-! DEFINITION. The timed model of the idle timer (spec/60_exceptions.md R185): `step` restricted to the schedules in which
every fire happens at its due time, operations taking no time (log 8). -/

namespace Sys2Proof.Machine

/-- When the armed timer's fire falls due: `t0 + interval` (R185). -/
def dueTime (s : State) : Option Rat :=
  match s.timer with
  | .stopped => none
  | .armed phase since => some (since + interval s.cfg phase)

/-- A fire happens at its due time and at no other. A hung block's timer never fires (R191), so time passes freely. -/
def timedEnabled (e : Event) (s : State) : Bool :=
  match e with
  | .fire =>
    match dueTime s with
    | none => true
    | some d => s.hung || decide (s.now = d)
  | .clock t =>
    match dueTime s with
    | none => true
    | some d => s.hung || decide (max s.now t ≤ d)
  | .command _ => true
  | .present _ => true
  | .reset => true

/-- One step of the timed model. At the instant a fire is due a command may still go first (92 D31): both orders are
schedules. -/
def timedStep (s : State) : Host.Outcome State Fault Refusal :=
  match s.inputs with
  | [] => step s
  | e :: _ => if timedEnabled e s then step s else .refused .notDue

/-- The timed model as a machine. -/
def timedCore : Host.Core :=
  { State := State, Fault := Fault, Refusal := Refusal, step := timedStep, reset := State.reset }

end Sys2Proof.Machine
end

