-- ==== Sys2Proof/Safety.lean ====
section
/-! DEFINITION. What counts as a safe run of FBP, in the terms claims use (spec/00_scope.md R11, spec/10_state.md R35,
spec/60_exceptions.md R176, R177, R180). -/

namespace Sys2Proof

/-- The activity class: the 15 commands that perform `ActivityReset()` (60_exceptions.md R180). -/
def Instr.isActivity : Instr → Bool
  | .hLine .. | .vLine .. | .line .. | .rect .. | .square .. | .fillRect .. | .fillSquare .. => true
  | .circle .. | .fillCircle .. | .tri .. | .triBox .. | .fillTri .. => true
  | .clearScreen | .sendBuffer | .displayImage => true
  | .setPixel .. | .getPixel .. | .clearBuffer | .rdByte .. => false
  | .setContrast .. | .init | .release | .rdReg .. => false

/-- The commands that send the frame buffer (20_memory.md R64). -/
def Instr.sendsFrame : Instr → Bool
  | .clearScreen | .sendBuffer | .displayImage => true
  | .setPixel .. | .getPixel .. | .clearBuffer | .rdByte .. => false
  | .hLine .. | .vLine .. | .line .. | .rect .. | .square .. | .fillRect .. | .fillSquare .. => false
  | .circle .. | .fillCircle .. | .tri .. | .triBox .. | .fillTri .. => false
  | .setContrast .. | .init | .release | .rdReg .. => false

namespace Machine

/-- R11's reading of the statuses: ILLEGAL, BADSTATE and RANGE are refusals of the command. -/
def Status.isRefusal : Status → Bool
  | .illegal | .badState | .range => true
  | .ok | .busErr | .fatal => false

/-- Operations have a meaning and may start: the configuration is admitted and nothing hangs. -/
abbrev State.Usable (s : State) : Prop := admitted s.cfg = true ∧ s.hung = false

/-- Every command but INIT is admitted (45_system.md R165): usable, no FATAL, not Off. -/
abbrev State.Ready (s : State) : Prop := s.Usable ∧ s.flags.fatal = false ∧ s.pstate ≠ .off

/-- The device accepts the next `n` transfers. -/
abbrev State.Accepts (s : State) (n : Nat) : Prop := ∀ a ∈ s.device.take n, a = .accept

/-- The device accepts the next `k` transfers, refuses the one after them, and then answers as `rest` says. -/
abbrev State.RefusesAfter (s : State) (k : Nat) (rest : List BusAnswer) : Prop :=
  s.device = List.replicate k .accept ++ .refuse :: rest

/-- `s` after the transfers `ts` were handed to the device and accepted. -/
def State.sending (s : State) (ts : List Transfer) : State :=
  { s with trace := s.trace ++ ts, device := s.device.drop ts.length }

/-- `s` after the first `k` transfers of `ts` were accepted and the next one refused (60_exceptions.md R187). -/
def State.refusedAt (s : State) (ts : List Transfer) (k : Nat) (rest : List BusAnswer) : State :=
  State.noteBusErr { s with trace := s.trace ++ ts.take k, device := rest }

/-- The value that command `k` (from 0) of a fade from `a` to `b` carries: `k + 1` units from `a` toward `b` (44_transmission.md
R158). -/
def fadeValue (a b : Byte) (k : Nat) : Byte :=
  if a < b then a + BitVec.ofNat 8 (k + 1) else a - BitVec.ofNat 8 (k + 1)

/-- The law of the fade (44_transmission.md R158): from `a` to `b`, one device command per unit, `a ± 1, a ± 2, .., b`. -/
def fadeTransfers (a b : Byte) : List Transfer :=
  (List.range ((b.toNat : Int) - a.toNat).natAbs).map fun k => .cmd (.setContrast (fadeValue a b k))

/-- What the activity reset sends (60_exceptions.md R184): nothing in On, the fade back to `preDim` in Dim, `DisplayOn` and
that fade in Sleep. -/
def wakeTransfers (s : State) : List Transfer :=
  match s.pstate with
  | .off => []
  | .on => []
  | .dim => fadeTransfers s.contrast s.preDim
  | .sleep => .cmd .displayOn :: fadeTransfers s.contrast s.preDim

/-- The rows "activity command" of 60_exceptions.md R184: On, the contrast restored from Dim and Sleep, the timer
restarted from now if a threshold is configured, and the transfers made. -/
def State.afterActivity (s : State) : State :=
  State.sending
    { s with
      pstate := .on
      contrast := if s.pstate = .on then s.contrast else s.preDim
      timer := if 0 < s.cfg.dimSeconds ∨ 0 < s.cfg.sleepSeconds then .armed .dimPhase s.now else s.timer }
    (wakeTransfers s)

/-- The transfers of one frame (44_transmission.md R151, R152): the addressing pair, then the bytes of the buffer in chunks
of 16, ascending. -/
def frameTransfers (s : State) : List Transfer :=
  [.cmd (.setColumnAddress 0 (s.cfg.columns - 1)), .cmd (.setPageRange 0 (if s.cfg.rows > 32 then 7 else 3))]
    ++ (List.range (fbLen s.cfg / 16)).map fun k => .data ((List.range 16).map fun j => s.readByte (16 * k + j))

/-- Items 1 to 4 and 6 of R35, which hold also after a BUSERR (60_exceptions.md R187). -/
structure State.PowerInv (s : State) : Prop where
  off_stopped : s.pstate = .off → s.timer = .stopped
  dimPhase_on : ∀ t, s.timer = .armed .dimPhase t → s.pstate = .on
  sleepPhase_dim : ∀ t, s.timer = .armed .sleepPhase t → s.pstate = .dim ∧ 0 < s.cfg.sleepSeconds
  sleep_stopped : s.pstate = .sleep → s.timer = .stopped
  armed_configured : ∀ p t, s.timer = .armed p t → 0 < s.cfg.dimSeconds

/-- The frame buffer keeps its canonical form and its length: every cell lies below FBLEN (10_state.md R23). -/
abbrev State.MemInv (s : State) : Prop := Memory.wf s.fb = true ∧ Memory.within (fbLen s.cfg) s.fb = true

/-- The arithmetic fault never happened (60_exceptions.md R177). -/
abbrev State.NeverFatal (s : State) : Prop := s.flags.fatal = false ∧ s.faultX = 0 ∧ s.faultY = 0

/-- The invariant of FBP. -/
structure State.Inv (s : State) : Prop where
  power : s.PowerInv
  mem : s.MemInv
  fatal : s.NeverFatal

/-- Caller coordinates of a pixel of the panel: `(1, 1)` to `(columns, rows)` (00_scope.md R10). -/
abbrev OnPanel (c : Config) (x y : Int) : Prop := 1 ≤ x ∧ x ≤ c.columns ∧ 1 ≤ y ∧ y ≤ c.rows

/-- From `s` to `t` each in-bounds point of `S` is turned on and nothing else of the frame buffer changes
(41_rasterizer_lines_rects.md R101): pixel by pixel, and for every byte that no point of `S` lies in. -/
def Drawn (s t : State) (S : Int → Int → Prop) : Prop :=
  (∀ x y, OnPanel s.cfg x y → (t.pixel x y = some true ↔ s.pixel x y = some true ∨ S x y)) ∧
  (∀ a, (∀ x y b, S x y → pixelAddr s.cfg x y ≠ some (a, b)) → t.readByte a = s.readByte a)

/-- A rasterizer command that plots the set `S` (41_rasterizer_lines_rects.md R100, R101): ready, and with a device that
accepts what the activity reset sends, it completes OK; the state it leaves is the one the activity reset leaves, with the
points of `S` on and nothing else of the frame buffer changed. -/
def Draws (i : Instr) (S : Int → Int → Prop) : Prop :=
  ∀ s : State, s.Ready → s.Accepts (wakeTransfers s).length →
    ∃ fb, exec i s = .next (State.complete { s.afterActivity with fb := fb } .ok 0) ∧ Drawn s { s with fb := fb } S

/-- The event list of `s` with one more event in front: what happens next. -/
def State.before (s : State) (e : Event) : State := { s with inputs := e :: s.inputs }

/-! ## Illegal words, bit by bit -/

/-- The 23 opcodes (30_encoding.md R74, R83). -/
def legalOpcodes : List Nat :=
  [0x01, 0x02, 0x03, 0x04, 0x05, 0x10, 0x11, 0x12, 0x13, 0x14, 0x15, 0x16, 0x17, 0x18, 0x19, 0x1A, 0x1B,
   0x30, 0x31, 0x32, 0x40, 0x41, 0x42]

/-- How many operand slots, from A on, the command with an opcode uses (30_encoding.md R73, R74). -/
def slotsUsed (opc : Nat) : Nat :=
  if opc = 0x03 ∨ opc = 0x04 ∨ opc = 0x30 ∨ opc = 0x31 ∨ opc = 0x40 ∨ opc = 0x41 then 0
  else if opc = 0x05 ∨ opc = 0x32 ∨ opc = 0x42 then 1
  else if opc = 0x01 ∨ opc = 0x02 then 2
  else if opc = 0x12 ∨ opc = 0x13 ∨ opc = 0x15 ∨ opc = 0x1A then 4
  else if opc = 0x19 ∨ opc = 0x1B then 6
  else 3

/-- "its `OPC` is not one of the 23 values of rule R74, or any must-be-zero bit of its format is 1 (any bit of `MBZ`, `ON`
outside `SETPIXEL`, any bit of an unused slot)" (30_encoding.md R82), on the word as a number. -/
def IllegalWord (w : Word) : Prop :=
  w.toNat / 2 ^ 120 ∉ legalOpcodes
    ∨ w.toNat / 2 ^ 97 % 2 ^ 23 ≠ 0
    ∨ (w.toNat / 2 ^ 96 % 2 = 1 ∧ w.toNat / 2 ^ 120 ≠ 0x01)
    ∨ w.toNat % 2 ^ (96 - 16 * slotsUsed (w.toNat / 2 ^ 120)) ≠ 0

/-! ## The points of the shapes, without a loop -/

/-- How far the short axis has moved after `k` steps along the long one, of a line that spans `long` and `short` there
(41_rasterizer_lines_rects.md R104): the number of times an error that starts at `long / 2` has gone negative. -/
def minorSteps (long short k : Int) : Int := (k * short + long - 1 - long / 2) / long

/-- The points of a line that is not steep, `x0 <= x1`, `abs(y1 - y0) <= x1 - x0` (R104). -/
def FlatLine (x0 y0 x1 y1 x y : Int) : Prop :=
  x0 ≤ x ∧ x ≤ x1 ∧
    y = y0 + (if y0 < y1 then 1 else -1) * minorSteps (x1 - x0) ((y1 - y0).natAbs : Int) (x - x0)

/-- The points of the line between two points, along its long axis from the endpoint that is smaller there (R104 to R106). -/
def LineSet (x0 y0 x1 y1 x y : Int) : Prop :=
  if (y1 - y0).natAbs ≤ (x1 - x0).natAbs then
    if x0 ≤ x1 then FlatLine x0 y0 x1 y1 x y else FlatLine x1 y1 x0 y0 x y
  else
    if y0 ≤ y1 then FlatLine y0 x0 y1 x1 y x else FlatLine y1 x1 y0 x0 y x

/-- The points of the triangle outline: its three lines (42_rasterizer_circles_triangles.md R125). -/
def TriSet (x0 y0 x1 y1 x2 y2 x y : Int) : Prop :=
  LineSet x0 y0 x1 y1 x y ∨ LineSet x1 y1 x2 y2 x y ∨ LineSet x2 y2 x0 y0 x y

/-- The x of the edge from `(xa, ya)` to `(xb, yb)` at row `y`, rounded toward zero (R128: "the long-hand linear
interpolation"). -/
def edgeX (xa ya xb yb y : Int) : Int := xa + ((xb - xa) * (y - ya)).tdiv (yb - ya)

/-- The points of the filled triangle with vertices sorted by y (R128): on row `y` everything between the long edge 0-2 and
the edge 0-1 (rows above `y1`, and row `y1` when the bottom is flat) or 1-2. -/
def FillTriSet (x0 y0 x1 y1 x2 y2 x y : Int) : Prop :=
  if y0 = y2 then y = y0 ∧ min x0 (min x1 x2) ≤ x ∧ x ≤ max x0 (max x1 x2)
  else
    let a := if y < y1 ∨ y1 = y2 then edgeX x0 y0 x1 y1 y else edgeX x1 y1 x2 y2 y
    let b := edgeX x0 y0 x2 y2 y
    y0 ≤ y ∧ y ≤ y2 ∧ min a b ≤ x ∧ x ≤ max a b

/-- The points of the circle outline, `(u, v)` from the centre (R120): with `m` the larger of `abs(u)` and `abs(v)`, the
circle passes between `m - 1/2` and `m + 1/2`. Radius 0 is the centre alone. -/
def CircleSet (r : Nat) (u v : Int) : Prop :=
  if r = 0 then u = 0 ∧ v = 0
  else
    let m : Int := max u.natAbs v.natAbs
    u * u + v * v - (r : Int) * r < m ∧ -m ≤ u * u + v * v - (r : Int) * r

/-- The points of the disc: the outline and all inside it (R122). -/
def DiscSet (r : Nat) (u v : Int) : Prop :=
  if r = 0 then u = 0 ∧ v = 0 else u * u + v * v - (r : Int) * r < (max u.natAbs v.natAbs : Int)

/-- `s` right after reset: any configuration, any inputs (70_reset_and_hazards.md R201). -/
def State.IsReset (s : State) : Prop :=
  ∃ cfg epoch, { s with inputs := [], device := [], canvas := [], now := 0 } = State.resetOf cfg epoch

end Machine

end Sys2Proof
end

