-- ==== Sys2Proof/Certificates/Slice0/Obligations.lean ====
section
/-! DEFINITION. The statements about the model, for the provers. Each docstring names the rule of spec/ it formalises; where a
rule is the spec's own inference ("[derived]") or its supplied completion, or a clause is a choice of the model, the
docstring says so. -/

section
open Sys2Proof Sys2Proof.Machine

/-! ## Encoding -/

/-- 30_encoding.md R70 to R76: decoding the word of a well-formed instruction gives it back, for all 23 commands and every
operand value a slot admits. -/
def Obligations.DecodeOfEncodeIsIdentity : Prop :=
  ∀ i : Instr, i.wellFormed = true → decode (encode i) = some i

/-- 30_encoding.md R70 to R76, the other direction: a word that decodes is the encoding of what it decodes to, and the
operands fit their slots. So each command has exactly one word per operand list. -/
def Obligations.EncodeOfDecodeIsIdentity : Prop :=
  ∀ (w : Word) (i : Instr), decode w = some i → encode i = w ∧ i.wellFormed = true

/-- Words written out by 30_encoding.md R85 and 95_test_vectors.md section 2.1 decode to the commands they stand for. -/
def Obligations.SpecWordsDecode : Prop :=
  decode 0x01000001000100010000000000000000#128 = some (.setPixel 1 1 true) ∧
  decode 0x12000000000100010010000800000000#128 = some (.line 1 1 16 8) ∧
  decode 0x10000000FFFE0005000A000000000000#128 = some (.hLine (-2) 5 10) ∧
  decode 0x30000000000000000000000000000000#128 = some .sendBuffer ∧
  decode 0x15000000000200020003000200000000#128 = some (.fillRect 2 2 3 2) ∧
  decode 0x1B000000000A00020004000A0010000A#128 = some (.fillTri 10 2 4 10 16 10) ∧
  decode 0x32000000FFFF00000000000000000000#128 = some (.setContrast (-1)) ∧
  decode 0x42000000000A00000000000000000000#128 = some (.rdReg 10) ∧
  decode 0x00000000000000000000000000000000#128 = none

/-- 30_encoding.md R82, R83: a word is illegal exactly when its opcode is not one of the 23 or a must-be-zero bit of its
format is 1; handed over in any power state, with or without FATAL, it sets ILLEGAL_SEEN, completes `(ILLEGAL, 0)` and
changes nothing else. -/
def Obligations.IllegalWordsExactly : Prop :=
  ∀ w : Word, (decode w = none ↔ IllegalWord w) ∧
    (IllegalWord w → ∀ s : State, s.Usable →
      step (s.before (.command w)) =
        .next { s with
          flags := { s.flags with illegalSeen := true }
          completions := s.completions ++ [{ status := .illegal, data := 0 }] })

/-- 30_encoding.md R80, 60_exceptions.md R175: the 20 bits of a completion record and the numbers of the statuses. -/
def Obligations.CompletionRecordBits : Prop :=
  (∀ c : Completion, c.bits.toNat = c.status.code.toNat * 65536 + c.data.toNat) ∧
  Status.ok.code = 0 ∧ Status.illegal.code = 1 ∧ Status.badState.code = 2 ∧ Status.range.code = 3 ∧
  Status.busErr.code = 4 ∧ Status.fatal.code = 5

/-! ## The step, reset, the environment -/

/-- 30_encoding.md R70, 45_system.md R165: when the next event is a word that decodes to `i`, the step is `exec i` on the
state with that event taken off the list; `withFetchWord` puts such an event there (log 4: the list of events is the
model's form of the host). -/
def Obligations.StepRunsDecodedInstruction : Prop :=
  ∀ (s : State) (w : Word) (i : Instr), decode w = some i →
    step (s.before (.command w)) = exec i s ∧ step (s.withFetchWord 128 w.toNat) = exec i s

/-- The MODEL's form of the environment (log 4, log 7, log 8): with no event to come the block waits; a canvas presented or a
time told changes that input alone; a fire of an armed timer is the timer transition (60_exceptions.md R183). That a fire
listed while the timer is stopped is the refusal `fireNotEnabled` is the model's choice too (log 9). -/
def Obligations.EnvironmentEvents : Prop :=
  ∀ s : State,
    (s.inputs = [] → step s = .next s) ∧
    (∀ c, step (s.before (.present c)) = .next { s with canvas := c }) ∧
    (∀ t, step (s.before (.clock t)) = .next { s with now := if t ≤ s.now then s.now else t }) ∧
    (∀ p t0, s.Usable → s.timer = .armed p t0 → step (s.before .fire) = .next (idleFire s).st) ∧
    (s.timer = .stopped → step (s.before .fire) = .refused .fireNotEnabled)

/-- 10_state.md R37, 70_reset_and_hazards.md R200, R201: reset, from any state, also a hung one and one with FATAL set (R200),
leaves the power state Off, the timer stopped, the flags and the fault coordinates 0, no command in progress, an empty trace
and the configuration as it was (R37, R201). `State.reset` is such a state. That no completion record handed over before
remains in the list is the model's (log 15, DEDUCED). -/
def Obligations.ResetValues : Prop :=
  (∀ s : State, ∃ t, step (s.before .reset) = .next t ∧ t.IsReset ∧ t.cfg = s.cfg) ∧
  State.reset.IsReset ∧
  ∀ s : State, s.IsReset →
    s.pstate = .off ∧ s.timer = .stopped ∧
    s.flags = { busErrSeen := false, fatal := false, illegalSeen := false } ∧
    s.faultX = 0 ∧ s.faultY = 0 ∧ s.hung = false ∧ s.trace = [] ∧ s.completions = []

/-- 00_scope.md R7: a model refuses a configuration outside the admitted set: no command, no illegal word and no timer
transition has a meaning there. The statement covers hung states too; that the configuration is looked at before the hang
is the model's choice (log 14). -/
def Obligations.InadmissibleConfigRefused : Prop :=
  ∀ s : State,
    ¬ ((s.cfg.rows = 32 ∨ s.cfg.rows = 64) ∧
       (1 ≤ s.cfg.columns ∧ s.cfg.columns * ((s.cfg.rows + 7) / 8) % 16 = 0) ∧
       s.cfg.columns * ((s.cfg.rows + 7) / 8) ≤ 65535 ∧
       (s.cfg.dimSeconds ≤ 65535 ∧ s.cfg.sleepSeconds ≤ 65535 ∧ ¬ (s.cfg.dimSeconds = 0 ∧ 0 < s.cfg.sleepSeconds))) →
    (∀ i, exec i s = .refused .configNotAdmitted) ∧
    (∀ w, step (s.before (.command w)) = .refused .configNotAdmitted) ∧
    (∀ p t0, s.timer = .armed p t0 → step (s.before .fire) = .refused .configNotAdmitted)

/-! ## Admission and completion -/

/-- 45_system.md R165, the six steps of `Admit()` in their order. A command that `Admit()` ends has no other effect; one that
it lets go on does not end FATAL or BADSTATE. -/
def Obligations.AdmissionOrder : Prop :=
  ∀ s : State, s.Usable →
    (∀ w, decode w = none → step (s.before (.command w)) = .next (s.noteIllegal.complete .illegal 0)) ∧
    (∀ n, ∃ st d, (st = .ok ∨ st = .range) ∧ exec (.rdReg n) s = .next (s.complete st d)) ∧
    (∀ i : Instr, (∀ n, i ≠ .rdReg n) →
      (s.flags.fatal = true → exec i s = .next (s.complete .fatal 0)) ∧
      (s.flags.fatal = false →
        (i = .init → s.pstate ≠ .off → exec i s = .next (s.complete .badState 0)) ∧
        (i ≠ .init → s.pstate = .off → exec i s = .next (s.complete .badState 0)) ∧
        ((i = .init ↔ s.pstate = .off) →
          ∃ t, exec i s = .next t ∧
            ∀ c : Completion, t.completions = s.completions ++ [c] → c.status ≠ .badState ∧ c.status ≠ .fatal)))

/-- 60_exceptions.md R178: with FATAL set every command but RDREG completes `(FATAL, 0)` with no effect, and a timer fire does
nothing but stop the timer. -/
def Obligations.AfterFatal : Prop :=
  ∀ s : State, s.Usable → s.flags.fatal = true →
    (∀ i : Instr, (∀ n, i ≠ .rdReg n) →
      exec i s = .next { s with completions := s.completions ++ [{ status := .fatal, data := 0 }] }) ∧
    (∀ p t0, s.timer = .armed p t0 → step (s.before .fire) = .next { s with timer := .stopped })

/-- 30_encoding.md R80, 60_exceptions.md R175, R187: every command whose operation may start answers a next state. Either it
hands over exactly one record, whose status is not ILLEGAL, whose data is 0 unless the status is OK, and whose status BUSERR
comes with BUSERR_SEEN; or it hangs and hands over none. The refusals BADSTATE, RANGE and the status FATAL have no effect
but the record ("precise"). -/
def Obligations.EveryCommandEndsOnce : Prop :=
  ∀ (i : Instr) (s : State), s.Usable →
    ∃ t, exec i s = .next t ∧
      ((t.hung = false ∧ ∃ c : Completion, t.completions = s.completions ++ [c] ∧ c.status ≠ .illegal ∧
          (c.status ≠ .ok → c.data = 0) ∧ (c.status = .busErr → t.flags.busErrSeen = true) ∧
          (c.status.isRefusal = true ∨ c.status = .fatal → t = s.complete c.status 0)) ∨
        (t.hung = true ∧ t.completions = s.completions))

/-- 60_exceptions.md R191: an operation whose transfer is never answered returns no completion and sets no flag; after it no
later command and no timer transition runs, whatever the word (that an illegal word stops there too is the model's choice,
log 14). The first clause shows the hang arise at each transfer of a frame; that the unanswered transfer is not in the trace
is the model's choice (log 6). -/
def Obligations.HangIsForever : Prop :=
  (∀ (s : State) (k : Nat) (rest : List BusAnswer), s.Ready → s.pstate = .on → k < (frameTransfers s).length →
    s.device = List.replicate k .accept ++ .silent :: rest →
    ∃ t, exec .sendBuffer s = .next t ∧ t.hung = true ∧ t.trace = s.trace ++ (frameTransfers s).take k) ∧
  (∀ (i : Instr) (s t : State), exec i s = .next t → t.hung = true → t.completions = s.completions ∧ t.flags = s.flags) ∧
  (∀ (s t : State), step (s.before .fire) = .next t → t.hung = true →
    t.completions = s.completions ∧ t.flags = s.flags) ∧
  (∀ s : State, admitted s.cfg = true → s.hung = true →
    (∀ i, exec i s = .fault .deviceHung) ∧
    (∀ w, step (s.before (.command w)) = .fault .deviceHung) ∧
    (∀ p t0, s.timer = .armed p t0 → step (s.before .fire) = .fault .deviceHung))

/-! ## The pixel store -/

/-- 40_framebuffer.md R90, through SETPIXEL (R91): in bounds exactly one bit of one byte is set or cleared, the index being
inside the buffer; out of bounds nothing changes. No bus, no activity reset, no flag. -/
def Obligations.SetPixelWritesOneBit : Prop :=
  ∀ (s : State) (x y : Int) (on : Bool), s.Ready →
    (¬ OnPanel s.cfg x y → exec (.setPixel x y on) s = .next (s.complete .ok 0)) ∧
    (OnPanel s.cfg x y → ∃ fb,
      exec (.setPixel x y on) s = .next (State.complete { s with fb := fb } .ok 0) ∧
      (let t : State := { s with fb := fb }
       let idx := (x - 1).toNat + (y - 1).toNat / 8 * s.cfg.columns
       let m : Byte := 1#8 <<< ((y - 1).toNat % 8)
       idx < fbLen s.cfg ∧
       t.readByte idx = (if on then s.readByte idx ||| m else s.readByte idx &&& ~~~ m) ∧
       ∀ a, a ≠ idx → t.readByte a = s.readByte a))

/-- 40_framebuffer.md R92, 20_memory.md R50: GETPIXEL completes with bit `(y-1) & 7` of byte
`(x-1) + ((y-1) div 8) * columns`, or RANGE outside the panel, and changes nothing. -/
def Obligations.GetPixelReadsOneBit : Prop :=
  ∀ (s : State) (x y : Int), s.Ready →
    (¬ OnPanel s.cfg x y → exec (.getPixel x y) s = .next (s.complete .range 0)) ∧
    (OnPanel s.cfg x y →
      exec (.getPixel x y) s =
        .next (s.complete .ok
          (if (s.readByte ((x - 1).toNat + (y - 1).toNat / 8 * s.cfg.columns)).getLsbD ((y - 1).toNat % 8) then 1 else 0)))

/-- 40_framebuffer.md R93: CLEARBUFFER zeroes every byte of the buffer and changes nothing else. -/
def Obligations.ClearBufferZeroesAll : Prop :=
  ∀ s : State, s.Ready → ∃ fb,
    exec .clearBuffer s = .next (State.complete { s with fb := fb } .ok 0) ∧
    ∀ a, State.readByte { s with fb := fb } a = if a < s.cfg.columns * ((s.cfg.rows + 7) / 8) then 0 else s.readByte a

/-- 40_framebuffer.md R95: RDBYTE completes with the byte zero-extended, or RANGE from FBLEN on, and changes nothing. -/
def Obligations.RdByteReadsOneByte : Prop :=
  ∀ (s : State) (idx : Nat), s.Ready →
    exec (.rdByte idx) s =
      .next (if idx < s.cfg.columns * ((s.cfg.rows + 7) / 8) then s.complete .ok (BitVec.ofNat 16 (s.readByte idx).toNat)
        else s.complete .range 0)

/-- 40_framebuffer.md R96, P1 and P2 (the spec's derived laws): after CLEARBUFFER, or a CLEARSCREEN that completes OK, every
pixel of the panel reads 0; a pixel set (cleared) in bounds reads back 1 (0); SETPIXEL out of range leaves every byte. -/
def Obligations.PixelReadBackLaws : Prop :=
  ∀ (s : State), s.Ready →
    (∀ t, exec .clearBuffer s = .next t ∨
        (exec .clearScreen s = .next t ∧ t.completions = s.completions ++ [{ status := .ok, data := 0 }]) →
      ∀ x y, OnPanel s.cfg x y → exec (.getPixel x y) t = .next (t.complete .ok 0)) ∧
    (∀ x y on t, exec (.setPixel x y on) s = .next t →
      (OnPanel s.cfg x y → exec (.getPixel x y) t = .next (t.complete .ok (if on then 1 else 0))) ∧
      (¬ OnPanel s.cfg x y → ∀ a, t.readByte a = s.readByte a))

/-- 40_framebuffer.md R96, the last paragraph (derived): SETPIXEL on distinct coordinates commute, as whole states; and the
same SETPIXEL twice equals once. The premise is the canonical form of the model's memory (log 2). -/
def Obligations.SetPixelsCommute : Prop :=
  ∀ (s : State), s.Ready → s.MemInv → ∀ (x y x' y' : Int) (on on' : Bool),
    ((x, y) ≠ (x', y') → ∀ t u t' u',
      exec (.setPixel x y on) s = .next t → exec (.setPixel x' y' on') t = .next u →
      exec (.setPixel x' y' on') s = .next t' → exec (.setPixel x y on) t' = .next u' → u = u') ∧
    (∀ t u, exec (.setPixel x y on) s = .next t → exec (.setPixel x y on) t = .next u → u.fb = t.fb)

/-! ## The rasterizer -/

/-- 41_rasterizer_lines_rects.md R102, R103: HLINE plots exactly the `w` pixels at row `y`, columns `[x, x+w)`, and VLINE
exactly the `h` pixels at column `x`, rows `[y, y+h)`. -/
def Obligations.HLineVLineSpans : Prop :=
  ∀ (x y : Int) (n : Nat),
    Draws (.hLine x y n) (fun u v => v = y ∧ x ≤ u ∧ u < x + n) ∧
    Draws (.vLine x y n) (fun u v => u = x ∧ y ≤ v ∧ v < y + n)

/-- 41_rasterizer_lines_rects.md R107, R108: the outline, border of the box `[x, x+w) × [y, y+h)`. -/
def Obligations.RectSquareOutline : Prop :=
  ∀ (x y : Int) (w h : Nat),
    Draws (.rect x y w h) (fun i j => x ≤ i ∧ i < x + w ∧ y ≤ j ∧ j < y + h ∧
      (i = x ∨ i = x + w - 1 ∨ j = y ∨ j = y + h - 1)) ∧
    Draws (.square x y w) (fun i j => x ≤ i ∧ i < x + w ∧ y ≤ j ∧ j < y + w ∧
      (i = x ∨ i = x + w - 1 ∨ j = y ∨ j = y + w - 1))

/-- 41_rasterizer_lines_rects.md R109, R110: the whole box. -/
def Obligations.FillRectSquareBox : Prop :=
  ∀ (x y : Int) (w h : Nat),
    Draws (.fillRect x y w h) (fun i j => x ≤ i ∧ i < x + w ∧ y ≤ j ∧ j < y + h) ∧
    Draws (.fillSquare x y w) (fun i j => x ≤ i ∧ i < x + w ∧ y ≤ j ∧ j < y + w)

/-- 41_rasterizer_lines_rects.md R104, R105: LINE plots the line's set, in closed form, for every pair of endpoints: fast
paths and walk, either order, steep or not. The steps R104 supplies as the standard completion are the spec's
(93_implementation_defined.md G1, log 13). -/
def Obligations.LinePlotsBresenhamSet : Prop :=
  ∀ x0 y0 x1 y1 : Int, Draws (.line x0 y0 x1 y1) (LineSet x0 y0 x1 y1)

/-- 41_rasterizer_lines_rects.md R106 items 1 and 2 (derived), of the procedure `Line`: exactly
`max(abs(x1-x0), abs(y1-y0)) + 1` distinct points, both endpoints among them, and the same set for the endpoints in either
order. -/
def Obligations.LineEndpointsCountSymmetry : Prop :=
  ∀ x0 y0 x1 y1 : Int,
    (lineOf x0 y0 x1 y1).toFinset.card = max (x1 - x0).natAbs (y1 - y0).natAbs + 1 ∧
    (x0, y0) ∈ lineOf x0 y0 x1 y1 ∧ (x1, y1) ∈ lineOf x0 y0 x1 y1 ∧
    ∀ p, p ∈ lineOf x0 y0 x1 y1 ↔ p ∈ lineOf x1 y1 x0 y0

/-- 42_rasterizer_circles_triangles.md R120: the midpoint walk plots, for every radius, exactly the points between the
circles of half a pixel less and more, in closed form. The completion of DOC0's outline is the spec's (G2, log 13). -/
def Obligations.CirclePlotsMidpointSet : Prop :=
  ∀ (cx cy : Int) (r : Nat), Draws (.circle cx cy r) (fun x y => CircleSet r (x - cx) (y - cy))

/-- 42_rasterizer_circles_triangles.md R122: the filled disc, the outline plus its interior. The completion of DOC0's outline
is the spec's (G3, log 13). -/
def Obligations.FillCirclePlotsDisc : Prop :=
  ∀ (cx cy : Int) (r : Nat), Draws (.fillCircle cx cy r) (fun x y => DiscSet r (x - cx) (y - cy))

/-- 42_rasterizer_circles_triangles.md R121, DOC0's scenario: 128×64, `DrawCircle(64,32,16)`: four pixels on, the centre
keeps its value. -/
def Obligations.CircleScenario : Prop :=
  ∀ s : State, s.Ready → s.cfg.columns = 128 → s.cfg.rows = 64 → s.Accepts (wakeTransfers s).length →
    s.pixel 64 32 = some false →
    ∃ t, exec (.circle 64 32 16) s = .next t ∧
      t.pixel 64 48 = some true ∧ t.pixel 64 16 = some true ∧ t.pixel 80 32 = some true ∧ t.pixel 48 32 = some true ∧
      t.pixel 64 32 = some false

/-- 42_rasterizer_circles_triangles.md R125, R126: TRI plots its three lines; TRIBOX those of the inscribed triangle with
vertices `(cx, cy-h/2)`, `(cx-w/2, cy+h/2)`, `(cx+w/2, cy+h/2)`. Each line is the closed form of 41_rasterizer_lines_rects.md
R104, whose steps are the spec's completion (93_implementation_defined.md G1, log 13, PRESUMED). -/
def Obligations.TrianglesPlotThreeLines : Prop :=
  (∀ x0 y0 x1 y1 x2 y2 : Int, Draws (.tri x0 y0 x1 y1 x2 y2) (TriSet x0 y0 x1 y1 x2 y2)) ∧
  (∀ (cx cy : Int) (w h : Nat), Draws (.triBox cx cy w h)
    (TriSet cx (cy - (h : Int) / 2) (cx - (w : Int) / 2) (cy + (h : Int) / 2) (cx + (w : Int) / 2) (cy + (h : Int) / 2)))

/-- 42_rasterizer_circles_triangles.md R128: whatever the order in which the three vertices are given, FILLTRI plots on each
row of the triangle sorted by y the span between its two edges, each edge interpolated with division toward zero. The
completion of DOC0's outline is the spec's (G4, log 13). -/
def Obligations.FillTriPlotsScanlines : Prop :=
  ∀ p q r a b c : Point, p.2 ≤ q.2 → q.2 ≤ r.2 → List.Perm [a, b, c] [p, q, r] →
    Draws (.fillTri a.1 a.2 b.1 b.2 c.1 c.2) (FillTriSet p.1 p.2 q.1 q.2 r.1 r.2)

/-! ## Activity -/

/-- 60_exceptions.md R180, R181, 20_memory.md R60: a command of the activity class that completes OK leaves the panel On, the
contrast restored if it was dimmed or asleep, the timer restarted from now if a threshold is configured, and what the
restoring sent stands before its own transfers. The class has these 15 commands. -/
def Obligations.ActivityRestoresOn : Prop :=
  ∀ (i : Instr) (s t : State), i.isActivity = true → s.Ready → exec i s = .next t →
    t.completions = s.completions ++ [{ status := .ok, data := 0 }] →
    t.pstate = .on ∧
    t.contrast = (if s.pstate = .on then s.contrast else s.preDim) ∧
    t.preDim = s.preDim ∧
    t.timer = (if 0 < s.cfg.dimSeconds ∨ 0 < s.cfg.sleepSeconds then .armed .dimPhase s.now else s.timer) ∧
    ∃ own, t.trace = s.trace ++ wakeTransfers s ++ own ∧ (i.sendsFrame = false → own = [])

/-- 60_exceptions.md R180: a command outside the activity class, INIT and RELEASE apart, leaves power state, timer and cached
contrast; and but for SETCONTRAST it leaves contrast, trace and flags too. -/
def Obligations.OtherCommandsKeepPower : Prop :=
  ∀ (i : Instr) (s t : State), i.isActivity = false → i ≠ .init → i ≠ .release → exec i s = .next t →
    t.pstate = s.pstate ∧ t.timer = s.timer ∧ t.preDim = s.preDim ∧
    ((∀ p, i ≠ .setContrast p) → t.contrast = s.contrast ∧ t.trace = s.trace ∧ t.flags = s.flags ∧ t.hung = s.hung)

/-- 60_exceptions.md R187 (rows 1 and 2), 41_rasterizer_lines_rects.md R100: a refusal inside the activity reset ends any
activity command with BUSERR before its first plot, fill, pack or own transfer: `pstate` and `timer` as before, `contrast` at
the refused value (unchanged when DisplayOn was refused), BUSERR_SEEN set, the earlier transfers made. -/
def Obligations.ActivityResetBusError : Prop :=
  ∀ (i : Instr) (s : State) (k : Nat) (rest : List BusAnswer), i.isActivity = true → s.Ready →
    k < (wakeTransfers s).length → s.RefusesAfter k rest →
    (s.pstate = .dim → exec i s = .next
      ((State.refusedAt { s with contrast := fadeValue s.contrast s.preDim k } (wakeTransfers s) k rest).complete .busErr 0)) ∧
    (s.pstate = .sleep → k = 0 → exec i s = .next ((s.refusedAt (wakeTransfers s) 0 rest).complete .busErr 0)) ∧
    (s.pstate = .sleep → ∀ j, k = j + 1 → exec i s = .next
      ((State.refusedAt { s with contrast := fadeValue s.contrast s.preDim j } (wakeTransfers s) k rest).complete .busErr 0))

/-! ## Transmission -/

/-- 44_transmission.md R152, R153: SENDBUFFER on an accepting device: the activity reset, then one whole frame. -/
def Obligations.SendBufferSendsFrame : Prop :=
  ∀ s : State, s.Ready → s.Accepts ((wakeTransfers s).length + (2 + s.cfg.columns * ((s.cfg.rows + 7) / 8) / 16)) →
    exec .sendBuffer s = .next ((s.afterActivity.sending (frameTransfers s)).complete .ok 0)

/-- 40_framebuffer.md R94: CLEARSCREEN on an accepting device: the activity reset, the zero fill, then a frame of zeros. -/
def Obligations.ClearScreenSendsZeros : Prop :=
  ∀ s : State, s.Ready → s.Accepts ((wakeTransfers s).length + (2 + s.cfg.columns * ((s.cfg.rows + 7) / 8) / 16)) →
    ∃ fb, exec .clearScreen s = .next
        ((State.sending { s.afterActivity with fb := fb }
          ([.cmd (.setColumnAddress 0 (s.cfg.columns - 1)), .cmd (.setPageRange 0 (if s.cfg.rows > 32 then 7 else 3))]
            ++ List.replicate (s.cfg.columns * ((s.cfg.rows + 7) / 8) / 16) (.data (List.replicate 16 0)))).complete .ok 0) ∧
      ∀ a, State.readByte { s with fb := fb } a =
        if a < s.cfg.columns * ((s.cfg.rows + 7) / 8) then 0 else s.readByte a

/-- 44_transmission.md R154, 43_canvas_pack.md R141, R142: DISPLAYIMAGE on an accepting device: the activity reset, the pack,
then a frame of the packed bytes. Bit `i` of byte `col + page*columns` is 1 exactly when the luminance of canvas pixel
`(col, page*8 + i)` is not 0 (R142, which the spec derives from R141). -/
def Obligations.DisplayImagePacksCanvas : Prop :=
  ∀ s : State, s.Ready → s.Accepts ((wakeTransfers s).length + (2 + s.cfg.columns * ((s.cfg.rows + 7) / 8) / 16)) →
    ∃ fb, exec .displayImage s = .next
        ((State.sending { s.afterActivity with fb := fb } (frameTransfers { s with fb := fb })).complete .ok 0) ∧
      (∀ page col i, page < (s.cfg.rows + 7) / 8 → col < s.cfg.columns → i < 8 →
        (State.readByte { s with fb := fb } (col + page * s.cfg.columns)).getLsbD i
          = decide (s.cvRead col (page * 8 + i) ≠ 0)) ∧
      ∀ a, s.cfg.columns * ((s.cfg.rows + 7) / 8) ≤ a → State.readByte { s with fb := fb } a = s.readByte a

/-- 44_transmission.md R155, R157: SETCONTRAST on an accepting device fades to the target of the clamped percentage and
changes nothing else: no activity reset. -/
def Obligations.SetContrastFades : Prop :=
  ∀ (s : State) (pct : Int), s.Ready →
    (let p := if pct < 0 then 0 else if 100 < pct then 100 else pct.toNat
     s.Accepts (fadeTransfers s.contrast (target s.cfg p)).length →
     exec (.setContrast pct) s = .next
       ((State.sending { s with contrast := target s.cfg p } (fadeTransfers s.contrast (target s.cfg p))).complete .ok 0))

/-- 44_transmission.md R156: the target is the integer nearest to `p * 255 / 100`; at the five ties it is one of the two
neighbours, and CONTRAST_TIE, a parameter, says which. -/
def Obligations.TargetIsNearest : Prop :=
  (∀ (c : Config) (p : Nat), p ≤ 100 → p ∉ [10, 30, 50, 70, 90] → (target c p).toNat = (p * 255 + 50) / 100) ∧
  (∀ c : Config,
    (target c 10).toNat = (if c.tie.up10 then 26 else 25) ∧ (target c 30).toNat = (if c.tie.up30 then 77 else 76) ∧
    (target c 50).toNat = (if c.tie.up50 then 128 else 127) ∧ (target c 70).toNat = (if c.tie.up70 then 179 else 178) ∧
    (target c 90).toNat = (if c.tie.up90 then 230 else 229)) ∧
  (∀ (c : Config) (p : Nat), p ≤ 100 → (100 * ((target c p).toNat : Int) - 255 * p).natAbs ≤ 50)

/-- 44_transmission.md R158, DOC0's P5 (derived): a fade from A to B that completes OK has issued exactly `|A-B|` contrast
commands, the first carrying A ± 1, each differing from the one before by 1 toward B, the last carrying B; contrast is B. -/
def Obligations.FadeLaw : Prop :=
  ∀ (s t : State) (pct : Int), s.Ready → exec (.setContrast pct) s = .next t →
    t.completions = s.completions ++ [{ status := .ok, data := 0 }] →
    ∃ vs : List Byte, t.trace = s.trace ++ vs.map (fun v => .cmd (.setContrast v)) ∧
      vs.length = ((t.contrast.toNat : Int) - s.contrast.toNat).natAbs ∧
      (∀ k (h : k < vs.length), (vs[k].toNat : Int) =
        if s.contrast < t.contrast then (s.contrast.toNat : Int) + (k + 1) else (s.contrast.toNat : Int) - (k + 1)) ∧
      (∀ v, vs.getLast? = some v → v = t.contrast)

/-- 44_transmission.md R152, 60_exceptions.md R187 (row "Transmit"): a frame refused at transfer `k`: On, the timer
restarted, the buffer as the command made it, the first `k` transfers made, BUSERR. -/
def Obligations.FrameBusError : Prop :=
  ∀ (s : State) (k : Nat) (rest : List BusAnswer), s.Ready → k < (frameTransfers s).length →
    s.RefusesAfter ((wakeTransfers s).length + k) rest →
    exec .sendBuffer s = .next ((s.afterActivity.refusedAt (frameTransfers s) k rest).complete .busErr 0) ∧
    (∃ fb, exec .clearScreen s = .next
        ((State.refusedAt { s.afterActivity with fb := fb } (frameTransfers { s with fb := fb }) k rest).complete .busErr 0) ∧
      ∀ a, a < fbLen s.cfg → State.readByte { s with fb := fb } a = 0) ∧
    (∃ fb, exec .displayImage s = .next
        ((State.refusedAt { s.afterActivity with fb := fb } (frameTransfers { s with fb := fb }) k rest).complete .busErr 0) ∧
      ∀ page col i, page < (s.cfg.rows + 7) / 8 → col < s.cfg.columns → i < 8 →
        (State.readByte { s with fb := fb } (col + page * s.cfg.columns)).getLsbD i
          = decide (s.cvRead col (page * 8 + i) ≠ 0))

/-- 60_exceptions.md R187 (row "SETCONTRAST fade"), 44_transmission.md R157: `contrast` at the value whose command was
refused. -/
def Obligations.SetContrastBusError : Prop :=
  ∀ (s : State) (pct : Int) (k : Nat) (rest : List BusAnswer), s.Ready →
    (let t := target s.cfg (clampPercent pct)
     k < (fadeTransfers s.contrast t).length → s.RefusesAfter k rest →
     exec (.setContrast pct) s = .next
       ((State.refusedAt { s with contrast := fadeValue s.contrast t k } (fadeTransfers s.contrast t) k rest).complete .busErr 0))

/-- 20_memory.md R64: only SENDBUFFER, CLEARSCREEN and DISPLAYIMAGE hand the device bytes of the buffer; every other command,
and every timer transition, hands it device commands only. The timer transition leaves the buffer as it is. -/
def Obligations.OnlyFramesCarryData : Prop :=
  (∀ (i : Instr) (s t : State), i.sendsFrame = false → exec i s = .next t →
    ∃ cs : List DeviceCmd, t.trace = s.trace ++ cs.map .cmd) ∧
  (∀ s t : State, step (s.before .fire) = .next t →
    t.fb = s.fb ∧ ∃ cs : List DeviceCmd, t.trace = s.trace ++ cs.map .cmd)

/-! ## System commands -/

/-- 45_system.md R166: INIT in Off on an accepting device: INITSEQ sent, contrast CONTRAST_INIT, On, the timer armed from now
if a threshold is configured; nothing else changes. -/
def Obligations.InitTurnsOn : Prop :=
  ∀ s : State, s.Usable → s.flags.fatal = false → s.pstate = .off → s.Accepts s.cfg.initSeq.length →
    exec .init s = .next
      ((State.sending
        { s with
          contrast := s.cfg.contrastInit
          pstate := .on
          timer := if 0 < s.cfg.dimSeconds ∨ 0 < s.cfg.sleepSeconds then .armed .dimPhase s.now else s.timer }
        (s.cfg.initSeq.map .cmd)).complete .ok 0)

/-- 60_exceptions.md R187 (row "INIT"): INITSEQ refused at command `k`: still Off, nothing else changed but BUSERR_SEEN and
the transfers made. -/
def Obligations.InitBusError : Prop :=
  ∀ (s : State) (k : Nat) (rest : List BusAnswer), s.Usable → s.flags.fatal = false → s.pstate = .off →
    k < s.cfg.initSeq.length → s.RefusesAfter k rest →
    exec .init s = .next ((s.refusedAt (s.cfg.initSeq.map .cmd) k rest).complete .busErr 0)

/-- 45_system.md R167: RELEASE stops the timer and turns the block Off; nothing is sent and nothing else changes. -/
def Obligations.ReleaseTurnsOff : Prop :=
  ∀ s : State, s.Ready → exec .release s = .next (State.complete { s with timer := .stopped, pstate := .off } .ok 0)

/-- 45_system.md R169, 10_state.md R31: the register table. RDREG changes nothing, in every power state, also with FATAL. -/
def Obligations.RdRegReadsTable : Prop :=
  ∀ s : State, s.Usable →
    (let reads (n : Nat) (v : Nat) : Prop := exec (.rdReg n) s = .next (s.complete .ok (BitVec.ofNat 16 v))
     reads 0 s.cfg.columns ∧ reads 1 s.cfg.rows ∧ reads 2 (s.cfg.columns * ((s.cfg.rows + 7) / 8)) ∧
     reads 3 (if s.cfg.rows > 32 then 7 else 3) ∧ reads 4 s.cfg.dimSeconds ∧ reads 5 s.cfg.sleepSeconds ∧
     reads 6 (match s.pstate with | .off => 0 | .on => 1 | .dim => 2 | .sleep => 3) ∧
     reads 7 s.contrast.toNat ∧ reads 8 s.preDim.toNat ∧
     reads 9 (match s.timer with | .stopped => 0 | .armed .dimPhase _ => 1 | .armed .sleepPhase _ => 3) ∧
     reads 10 ((if s.flags.busErrSeen then 1 else 0) + (if s.flags.fatal then 2 else 0)
       + (if s.flags.illegalSeen then 4 else 0)) ∧
     reads 11 s.faultX.toNat ∧ reads 12 s.faultY.toNat ∧
     ∀ n, 13 ≤ n → exec (.rdReg n) s = .next (s.complete .range 0))

/-! ## The idle timer and the power states -/

/-- 60_exceptions.md R183: the timer transition on an accepting device, in each power state. On: contrast cached, faded to 0,
Dim, the timer rearmed if `sleepSeconds > 0`. Dim: display off, Sleep, stopped. Sleep, Off and with FATAL set: only the timer
is stopped. While the timer is stopped no fire is enabled. -/
def Obligations.IdleTransition : Prop :=
  (∀ s : State, s.timer = .stopped → ∀ t, step (s.before .fire) ≠ .next t) ∧
  ∀ (s : State) (p : TimerPhase) (t0 : Rat), s.Usable → s.timer = .armed p t0 →
    (s.flags.fatal = true → step (s.before .fire) = .next { s with timer := .stopped }) ∧
    (s.flags.fatal = false → s.pstate = .on → s.Accepts (fadeTransfers s.contrast 0).length →
      step (s.before .fire) = .next
        (State.sending
          { s with
            preDim := s.contrast
            contrast := 0
            pstate := .dim
            timer := if 0 < s.cfg.sleepSeconds then .armed .sleepPhase s.now else .stopped }
          (fadeTransfers s.contrast 0))) ∧
    (s.flags.fatal = false → s.pstate = .dim → s.Accepts 1 →
      step (s.before .fire) = .next (State.sending { s with pstate := .sleep, timer := .stopped } [.cmd .displayOff])) ∧
    (s.pstate = .sleep ∨ s.pstate = .off → step (s.before .fire) = .next { s with timer := .stopped })

/-- 60_exceptions.md R186: a bus error inside the timer transition: BUSERR_SEEN, abandoned at the refused transfer, earlier
effects persist, the timer stays stopped, no completion. -/
def Obligations.IdleTransitionBusError : Prop :=
  ∀ (s : State) (p : TimerPhase) (t0 : Rat) (k : Nat) (rest : List BusAnswer),
    s.Usable → s.timer = .armed p t0 → s.flags.fatal = false → s.RefusesAfter k rest →
    (s.pstate = .on → k < (fadeTransfers s.contrast 0).length →
      step (s.before .fire) = .next
        (State.refusedAt { s with timer := .stopped, preDim := s.contrast, contrast := fadeValue s.contrast 0 k }
          (fadeTransfers s.contrast 0) k rest)) ∧
    (s.pstate = .dim → k = 0 →
      step (s.before .fire) = .next (State.refusedAt { s with timer := .stopped } [.cmd .displayOff] 0 rest))

/-- 10_state.md R35 items 1 to 4 and 6 (also after a BUSERR, 60_exceptions.md R187), R23 (length and canonical form of the
buffer, log 2) and 60_exceptions.md R177 (FATAL never raised): every step keeps the invariant, whatever the event, the word
and the device's answers. -/
def Obligations.EveryStepKeepsInvariant : Prop :=
  ∀ s t : State, s.Inv → step s = .next t → t.Inv

/-- 10_state.md R35: the invariant holds after every reset, whatever the configuration and the inputs. -/
def Obligations.ResetMeetsInvariant : Prop :=
  ∀ s : State, s.IsReset → s.Inv

/-- 10_state.md R35 item 5 (derived), extended to Sleep as R182 says: contrast is 0 in Dim and Sleep, and stays so over every
step that meets no bus error and no hang and is no SETCONTRAST. -/
def Obligations.DimmedContrastIsZero : Prop :=
  ∀ s t : State, (s.pstate = .dim ∨ s.pstate = .sleep → s.contrast = 0) → step s = .next t →
    t.flags.busErrSeen = false → t.hung = false →
    (∀ w rest pct, s.inputs = .command w :: rest → decode w ≠ some (.setContrast pct)) →
    (t.pstate = .dim ∨ t.pstate = .sleep → t.contrast = 0)

/-- 60_exceptions.md R176: the flags are set when the status is raised, and no step but reset clears one; BADSTATE and RANGE
set none. -/
def Obligations.FlagsAreSticky : Prop :=
  (∀ s t : State, step s = .next t → (∀ rest, s.inputs ≠ .reset :: rest) →
    (s.flags.busErrSeen = true → t.flags.busErrSeen = true) ∧ (s.flags.fatal = true → t.flags.fatal = true) ∧
    (s.flags.illegalSeen = true → t.flags.illegalSeen = true)) ∧
  (∀ (s t : State) (w : Word) (c : Completion), step (s.before (.command w)) = .next t →
    t.completions = s.completions ++ [c] →
    (c.status = .busErr → t.flags.busErrSeen = true) ∧ (c.status = .illegal → t.flags.illegalSeen = true) ∧
    (c.status = .fatal → t.flags.fatal = true) ∧
    (c.status = .badState ∨ c.status = .range → t.flags = s.flags)) ∧
  (∀ s t : State, step (s.before .reset) = .next t →
    t.flags = { busErrSeen := false, fatal := false, illegalSeen := false })

/-- 60_exceptions.md R184, 45_system.md R165, 70_reset_and_hazards.md R200: only RELEASE and reset lead into Off, and only
INIT leads out of it. There is no transition from On to Sleep or from Sleep to Dim, and no command leads into Dim or Sleep. -/
def Obligations.PowerStateTransitions : Prop :=
  ∀ s t : State, step s = .next t →
    (s.pstate ≠ .off → t.pstate = .off →
      (∃ rest, s.inputs = .reset :: rest) ∨ ∃ w rest, s.inputs = .command w :: rest ∧ decode w = some .release) ∧
    (s.pstate = .off → t.pstate ≠ .off → ∃ w rest, s.inputs = .command w :: rest ∧ decode w = some .init) ∧
    (t.pstate ≠ s.pstate → t.pstate = .dim → s.pstate = .on ∧ ∃ rest, s.inputs = .fire :: rest) ∧
    (t.pstate ≠ s.pstate → t.pstate = .sleep → s.pstate = .dim ∧ ∃ rest, s.inputs = .fire :: rest)

/-- 00_scope.md R6: no step changes the configuration. 20_memory.md R58, 00_scope.md R9: but for reset the trace and the list
of completions only grow, nothing handed over is taken back. That a step takes one event off the list of what the outside does
is the model's form of the host (log 4), and that reset keeps the rest of that list is the model's too (log 15). -/
def Obligations.HistoryOnlyGrows : Prop :=
  ∀ s t : State, step s = .next t →
    t.cfg = s.cfg ∧ t.inputs = s.inputs.tail ∧
    ((∀ rest, s.inputs ≠ .reset :: rest) → s.trace <+: t.trace ∧ s.completions <+: t.completions)

/-! ## The timed model -/

/-- 60_exceptions.md R185, timed model: an armed timer of a block that does not hang fires at `t0 + dimSeconds` (DimPhase) or
`t0 + sleepSeconds` (SleepPhase); commands, canvas changes and reset are as untimed. Operations take no time (R185, log 8).
That a fire listed at another time, and a time told beyond the due time without the fire, are the refusal `notDue` is the
model's choice (log 9). -/
def Obligations.TimedFireExactlyWhenDue : Prop :=
  ∀ (s : State) (p : TimerPhase) (t0 : Rat), s.timer = .armed p t0 → s.hung = false →
    (let due : Rat := t0 + (match p with | .dimPhase => (s.cfg.dimSeconds : Rat) | .sleepPhase => (s.cfg.sleepSeconds : Rat))
     (s.now = due → timedStep (s.before .fire) = step (s.before .fire)) ∧
     (s.now ≠ due → timedStep (s.before .fire) = .refused .notDue) ∧
     (∀ t, s.now ≤ due → t ≤ due → timedStep (s.before (.clock t)) = step (s.before (.clock t))) ∧
     (∀ t, due < t → timedStep (s.before (.clock t)) = .refused .notDue) ∧
     (∀ w, timedStep (s.before (.command w)) = step (s.before (.command w))) ∧
     (∀ c, timedStep (s.before (.present c)) = step (s.before (.present c))) ∧
     timedStep (s.before .reset) = step (s.before .reset))

/-- One schedule: 60_exceptions.md R193, DOC0's P6 as a timeline (derived), for every admitted configuration with `dimSeconds = 45` and
`sleepSeconds = 60` and an accepting device: the seven rows of R193's table, in the timed model, from reset. -/
def Obligations.IdleTimeline : Prop :=
  ∀ (c : Config) (epoch : Nat), admitted c = true → c.dimSeconds = 45 → c.sleepSeconds = 60 →
    (let s0 : State := { State.resetOf c epoch with
       inputs := [.command (encode .init), .clock 45, .fire, .clock 105, .fire, .clock 200, .command (encode .sendBuffer),
         .clock 245, .fire, .clock 250, .command (encode (.hLine 1 1 4)), .clock 295, .fire] }
     let v := c.contrastInit
     let after (n : Nat) (ps : PowerState) (k : Byte) (tm : Timer) (tr : List Transfer) : Prop :=
       ∃ t : State, timedCore.run n s0 = .next t ∧ t.pstate = ps ∧ t.contrast = k ∧ (1 < n → t.preDim = v) ∧ t.timer = tm ∧
         t.trace = tr
     let down := fadeTransfers v 0
     let up := fadeTransfers 0 v
     let r0 : List Transfer := c.initSeq.map .cmd
     let r2 := r0 ++ down ++ [.cmd .displayOff]
     let r3 := r2 ++ [.cmd .displayOn] ++ up ++ frameTransfers s0
     after 1 .on v (.armed .dimPhase 0) r0 ∧
     after 3 .dim 0 (.armed .sleepPhase 45) (r0 ++ down) ∧
     after 5 .sleep 0 .stopped r2 ∧
     after 7 .on v (.armed .dimPhase 200) r3 ∧
     after 9 .dim 0 (.armed .sleepPhase 245) (r3 ++ down) ∧
     after 11 .on v (.armed .dimPhase 250) (r3 ++ down ++ up) ∧
     after 13 .dim 0 (.armed .sleepPhase 295) (r3 ++ down ++ up ++ down))

end
end

