-- ==== Sys2Proof/Laws/State.lean ====
section
/-! SUPPORT. One lemma per field per update of State, true by rfl. -/

namespace Sys2Proof.Machine.State

@[simp] theorem writeByte_cfg (s : State) (i : Nat) (v : Byte) : (s.writeByte i v).cfg = s.cfg := rfl
@[simp] theorem writeByte_fb (s : State) (i : Nat) (v : Byte) : (s.writeByte i v).fb = s.fb.write i v := rfl
@[simp] theorem writeByte_pstate (s : State) (i : Nat) (v : Byte) : (s.writeByte i v).pstate = s.pstate := rfl
@[simp] theorem writeByte_contrast (s : State) (i : Nat) (v : Byte) : (s.writeByte i v).contrast = s.contrast := rfl
@[simp] theorem writeByte_preDim (s : State) (i : Nat) (v : Byte) : (s.writeByte i v).preDim = s.preDim := rfl
@[simp] theorem writeByte_timer (s : State) (i : Nat) (v : Byte) : (s.writeByte i v).timer = s.timer := rfl
@[simp] theorem writeByte_flags (s : State) (i : Nat) (v : Byte) : (s.writeByte i v).flags = s.flags := rfl
@[simp] theorem writeByte_faultX (s : State) (i : Nat) (v : Byte) : (s.writeByte i v).faultX = s.faultX := rfl
@[simp] theorem writeByte_faultY (s : State) (i : Nat) (v : Byte) : (s.writeByte i v).faultY = s.faultY := rfl
@[simp] theorem writeByte_hung (s : State) (i : Nat) (v : Byte) : (s.writeByte i v).hung = s.hung := rfl
@[simp] theorem writeByte_trace (s : State) (i : Nat) (v : Byte) : (s.writeByte i v).trace = s.trace := rfl
@[simp] theorem writeByte_completions (s : State) (i : Nat) (v : Byte) : (s.writeByte i v).completions = s.completions := rfl
@[simp] theorem writeByte_inputs (s : State) (i : Nat) (v : Byte) : (s.writeByte i v).inputs = s.inputs := rfl
@[simp] theorem writeByte_device (s : State) (i : Nat) (v : Byte) : (s.writeByte i v).device = s.device := rfl
@[simp] theorem writeByte_canvas (s : State) (i : Nat) (v : Byte) : (s.writeByte i v).canvas = s.canvas := rfl
@[simp] theorem writeByte_now (s : State) (i : Nat) (v : Byte) : (s.writeByte i v).now = s.now := rfl
@[simp] theorem writeByte_epoch (s : State) (i : Nat) (v : Byte) : (s.writeByte i v).epoch = s.epoch := rfl

@[simp] theorem sweepBytes_cfg (s : State) (f : Nat → Byte) : (s.sweepBytes f).cfg = s.cfg := rfl
@[simp] theorem sweepBytes_fb (s : State) (f : Nat → Byte) : (s.sweepBytes f).fb = s.fb.sweep (fbLen s.cfg) f := rfl
@[simp] theorem sweepBytes_pstate (s : State) (f : Nat → Byte) : (s.sweepBytes f).pstate = s.pstate := rfl
@[simp] theorem sweepBytes_contrast (s : State) (f : Nat → Byte) : (s.sweepBytes f).contrast = s.contrast := rfl
@[simp] theorem sweepBytes_preDim (s : State) (f : Nat → Byte) : (s.sweepBytes f).preDim = s.preDim := rfl
@[simp] theorem sweepBytes_timer (s : State) (f : Nat → Byte) : (s.sweepBytes f).timer = s.timer := rfl
@[simp] theorem sweepBytes_flags (s : State) (f : Nat → Byte) : (s.sweepBytes f).flags = s.flags := rfl
@[simp] theorem sweepBytes_faultX (s : State) (f : Nat → Byte) : (s.sweepBytes f).faultX = s.faultX := rfl
@[simp] theorem sweepBytes_faultY (s : State) (f : Nat → Byte) : (s.sweepBytes f).faultY = s.faultY := rfl
@[simp] theorem sweepBytes_hung (s : State) (f : Nat → Byte) : (s.sweepBytes f).hung = s.hung := rfl
@[simp] theorem sweepBytes_trace (s : State) (f : Nat → Byte) : (s.sweepBytes f).trace = s.trace := rfl
@[simp] theorem sweepBytes_completions (s : State) (f : Nat → Byte) : (s.sweepBytes f).completions = s.completions := rfl
@[simp] theorem sweepBytes_inputs (s : State) (f : Nat → Byte) : (s.sweepBytes f).inputs = s.inputs := rfl
@[simp] theorem sweepBytes_device (s : State) (f : Nat → Byte) : (s.sweepBytes f).device = s.device := rfl
@[simp] theorem sweepBytes_canvas (s : State) (f : Nat → Byte) : (s.sweepBytes f).canvas = s.canvas := rfl
@[simp] theorem sweepBytes_now (s : State) (f : Nat → Byte) : (s.sweepBytes f).now = s.now := rfl
@[simp] theorem sweepBytes_epoch (s : State) (f : Nat → Byte) : (s.sweepBytes f).epoch = s.epoch := rfl

@[simp] theorem complete_cfg (s : State) (st : Status) (d : Half) : (s.complete st d).cfg = s.cfg := rfl
@[simp] theorem complete_fb (s : State) (st : Status) (d : Half) : (s.complete st d).fb = s.fb := rfl
@[simp] theorem complete_pstate (s : State) (st : Status) (d : Half) : (s.complete st d).pstate = s.pstate := rfl
@[simp] theorem complete_contrast (s : State) (st : Status) (d : Half) : (s.complete st d).contrast = s.contrast := rfl
@[simp] theorem complete_preDim (s : State) (st : Status) (d : Half) : (s.complete st d).preDim = s.preDim := rfl
@[simp] theorem complete_timer (s : State) (st : Status) (d : Half) : (s.complete st d).timer = s.timer := rfl
@[simp] theorem complete_flags (s : State) (st : Status) (d : Half) : (s.complete st d).flags = s.flags := rfl
@[simp] theorem complete_faultX (s : State) (st : Status) (d : Half) : (s.complete st d).faultX = s.faultX := rfl
@[simp] theorem complete_faultY (s : State) (st : Status) (d : Half) : (s.complete st d).faultY = s.faultY := rfl
@[simp] theorem complete_hung (s : State) (st : Status) (d : Half) : (s.complete st d).hung = s.hung := rfl
@[simp] theorem complete_trace (s : State) (st : Status) (d : Half) : (s.complete st d).trace = s.trace := rfl
@[simp] theorem complete_completions (s : State) (st : Status) (d : Half) : (s.complete st d).completions = s.completions ++ [{ status := st, data := d }] := rfl
@[simp] theorem complete_inputs (s : State) (st : Status) (d : Half) : (s.complete st d).inputs = s.inputs := rfl
@[simp] theorem complete_device (s : State) (st : Status) (d : Half) : (s.complete st d).device = s.device := rfl
@[simp] theorem complete_canvas (s : State) (st : Status) (d : Half) : (s.complete st d).canvas = s.canvas := rfl
@[simp] theorem complete_now (s : State) (st : Status) (d : Half) : (s.complete st d).now = s.now := rfl
@[simp] theorem complete_epoch (s : State) (st : Status) (d : Half) : (s.complete st d).epoch = s.epoch := rfl

@[simp] theorem noteBusErr_cfg (s : State) : (s.noteBusErr).cfg = s.cfg := rfl
@[simp] theorem noteBusErr_fb (s : State) : (s.noteBusErr).fb = s.fb := rfl
@[simp] theorem noteBusErr_pstate (s : State) : (s.noteBusErr).pstate = s.pstate := rfl
@[simp] theorem noteBusErr_contrast (s : State) : (s.noteBusErr).contrast = s.contrast := rfl
@[simp] theorem noteBusErr_preDim (s : State) : (s.noteBusErr).preDim = s.preDim := rfl
@[simp] theorem noteBusErr_timer (s : State) : (s.noteBusErr).timer = s.timer := rfl
@[simp] theorem noteBusErr_flags (s : State) : (s.noteBusErr).flags = { s.flags with busErrSeen := true } := rfl
@[simp] theorem noteBusErr_faultX (s : State) : (s.noteBusErr).faultX = s.faultX := rfl
@[simp] theorem noteBusErr_faultY (s : State) : (s.noteBusErr).faultY = s.faultY := rfl
@[simp] theorem noteBusErr_hung (s : State) : (s.noteBusErr).hung = s.hung := rfl
@[simp] theorem noteBusErr_trace (s : State) : (s.noteBusErr).trace = s.trace := rfl
@[simp] theorem noteBusErr_completions (s : State) : (s.noteBusErr).completions = s.completions := rfl
@[simp] theorem noteBusErr_inputs (s : State) : (s.noteBusErr).inputs = s.inputs := rfl
@[simp] theorem noteBusErr_device (s : State) : (s.noteBusErr).device = s.device := rfl
@[simp] theorem noteBusErr_canvas (s : State) : (s.noteBusErr).canvas = s.canvas := rfl
@[simp] theorem noteBusErr_now (s : State) : (s.noteBusErr).now = s.now := rfl
@[simp] theorem noteBusErr_epoch (s : State) : (s.noteBusErr).epoch = s.epoch := rfl

@[simp] theorem noteIllegal_cfg (s : State) : (s.noteIllegal).cfg = s.cfg := rfl
@[simp] theorem noteIllegal_fb (s : State) : (s.noteIllegal).fb = s.fb := rfl
@[simp] theorem noteIllegal_pstate (s : State) : (s.noteIllegal).pstate = s.pstate := rfl
@[simp] theorem noteIllegal_contrast (s : State) : (s.noteIllegal).contrast = s.contrast := rfl
@[simp] theorem noteIllegal_preDim (s : State) : (s.noteIllegal).preDim = s.preDim := rfl
@[simp] theorem noteIllegal_timer (s : State) : (s.noteIllegal).timer = s.timer := rfl
@[simp] theorem noteIllegal_flags (s : State) : (s.noteIllegal).flags = { s.flags with illegalSeen := true } := rfl
@[simp] theorem noteIllegal_faultX (s : State) : (s.noteIllegal).faultX = s.faultX := rfl
@[simp] theorem noteIllegal_faultY (s : State) : (s.noteIllegal).faultY = s.faultY := rfl
@[simp] theorem noteIllegal_hung (s : State) : (s.noteIllegal).hung = s.hung := rfl
@[simp] theorem noteIllegal_trace (s : State) : (s.noteIllegal).trace = s.trace := rfl
@[simp] theorem noteIllegal_completions (s : State) : (s.noteIllegal).completions = s.completions := rfl
@[simp] theorem noteIllegal_inputs (s : State) : (s.noteIllegal).inputs = s.inputs := rfl
@[simp] theorem noteIllegal_device (s : State) : (s.noteIllegal).device = s.device := rfl
@[simp] theorem noteIllegal_canvas (s : State) : (s.noteIllegal).canvas = s.canvas := rfl
@[simp] theorem noteIllegal_now (s : State) : (s.noteIllegal).now = s.now := rfl
@[simp] theorem noteIllegal_epoch (s : State) : (s.noteIllegal).epoch = s.epoch := rfl

@[simp] theorem latchFatal_cfg (s : State) (x y : Int) : (s.latchFatal x y).cfg = s.cfg := rfl
@[simp] theorem latchFatal_fb (s : State) (x y : Int) : (s.latchFatal x y).fb = s.fb := rfl
@[simp] theorem latchFatal_pstate (s : State) (x y : Int) : (s.latchFatal x y).pstate = s.pstate := rfl
@[simp] theorem latchFatal_contrast (s : State) (x y : Int) : (s.latchFatal x y).contrast = s.contrast := rfl
@[simp] theorem latchFatal_preDim (s : State) (x y : Int) : (s.latchFatal x y).preDim = s.preDim := rfl
@[simp] theorem latchFatal_timer (s : State) (x y : Int) : (s.latchFatal x y).timer = s.timer := rfl
@[simp] theorem latchFatal_flags (s : State) (x y : Int) : (s.latchFatal x y).flags = { s.flags with fatal := true } := rfl
@[simp] theorem latchFatal_faultX (s : State) (x y : Int) : (s.latchFatal x y).faultX = BitVec.ofInt 16 x := rfl
@[simp] theorem latchFatal_faultY (s : State) (x y : Int) : (s.latchFatal x y).faultY = BitVec.ofInt 16 y := rfl
@[simp] theorem latchFatal_hung (s : State) (x y : Int) : (s.latchFatal x y).hung = s.hung := rfl
@[simp] theorem latchFatal_trace (s : State) (x y : Int) : (s.latchFatal x y).trace = s.trace := rfl
@[simp] theorem latchFatal_completions (s : State) (x y : Int) : (s.latchFatal x y).completions = s.completions := rfl
@[simp] theorem latchFatal_inputs (s : State) (x y : Int) : (s.latchFatal x y).inputs = s.inputs := rfl
@[simp] theorem latchFatal_device (s : State) (x y : Int) : (s.latchFatal x y).device = s.device := rfl
@[simp] theorem latchFatal_canvas (s : State) (x y : Int) : (s.latchFatal x y).canvas = s.canvas := rfl
@[simp] theorem latchFatal_now (s : State) (x y : Int) : (s.latchFatal x y).now = s.now := rfl
@[simp] theorem latchFatal_epoch (s : State) (x y : Int) : (s.latchFatal x y).epoch = s.epoch := rfl

@[simp] theorem setTimer_cfg (s : State) (t : Timer) : (s.setTimer t).cfg = s.cfg := rfl
@[simp] theorem setTimer_fb (s : State) (t : Timer) : (s.setTimer t).fb = s.fb := rfl
@[simp] theorem setTimer_pstate (s : State) (t : Timer) : (s.setTimer t).pstate = s.pstate := rfl
@[simp] theorem setTimer_contrast (s : State) (t : Timer) : (s.setTimer t).contrast = s.contrast := rfl
@[simp] theorem setTimer_preDim (s : State) (t : Timer) : (s.setTimer t).preDim = s.preDim := rfl
@[simp] theorem setTimer_timer (s : State) (t : Timer) : (s.setTimer t).timer = t := rfl
@[simp] theorem setTimer_flags (s : State) (t : Timer) : (s.setTimer t).flags = s.flags := rfl
@[simp] theorem setTimer_faultX (s : State) (t : Timer) : (s.setTimer t).faultX = s.faultX := rfl
@[simp] theorem setTimer_faultY (s : State) (t : Timer) : (s.setTimer t).faultY = s.faultY := rfl
@[simp] theorem setTimer_hung (s : State) (t : Timer) : (s.setTimer t).hung = s.hung := rfl
@[simp] theorem setTimer_trace (s : State) (t : Timer) : (s.setTimer t).trace = s.trace := rfl
@[simp] theorem setTimer_completions (s : State) (t : Timer) : (s.setTimer t).completions = s.completions := rfl
@[simp] theorem setTimer_inputs (s : State) (t : Timer) : (s.setTimer t).inputs = s.inputs := rfl
@[simp] theorem setTimer_device (s : State) (t : Timer) : (s.setTimer t).device = s.device := rfl
@[simp] theorem setTimer_canvas (s : State) (t : Timer) : (s.setTimer t).canvas = s.canvas := rfl
@[simp] theorem setTimer_now (s : State) (t : Timer) : (s.setTimer t).now = s.now := rfl
@[simp] theorem setTimer_epoch (s : State) (t : Timer) : (s.setTimer t).epoch = s.epoch := rfl

/-! The state after reset (10_state.md R37, R38). -/

@[simp] theorem resetOf_cfg (c : Config) (e : Nat) : (resetOf c e).cfg = c := rfl
@[simp] theorem resetOf_fb (c : Config) (e : Nat) : (resetOf c e).fb = [] := rfl
@[simp] theorem resetOf_pstate (c : Config) (e : Nat) : (resetOf c e).pstate = .off := rfl
@[simp] theorem resetOf_contrast (c : Config) (e : Nat) : (resetOf c e).contrast = Config.contrastAtReset e := rfl
@[simp] theorem resetOf_preDim (c : Config) (e : Nat) : (resetOf c e).preDim = Config.preDimAtReset e := rfl
@[simp] theorem resetOf_timer (c : Config) (e : Nat) : (resetOf c e).timer = .stopped := rfl
@[simp] theorem resetOf_flags (c : Config) (e : Nat) : (resetOf c e).flags = { busErrSeen := false, fatal := false, illegalSeen := false } := rfl
@[simp] theorem resetOf_faultX (c : Config) (e : Nat) : (resetOf c e).faultX = 0 := rfl
@[simp] theorem resetOf_faultY (c : Config) (e : Nat) : (resetOf c e).faultY = 0 := rfl
@[simp] theorem resetOf_hung (c : Config) (e : Nat) : (resetOf c e).hung = false := rfl
@[simp] theorem resetOf_trace (c : Config) (e : Nat) : (resetOf c e).trace = [] := rfl
@[simp] theorem resetOf_completions (c : Config) (e : Nat) : (resetOf c e).completions = [] := rfl
@[simp] theorem resetOf_inputs (c : Config) (e : Nat) : (resetOf c e).inputs = [] := rfl
@[simp] theorem resetOf_device (c : Config) (e : Nat) : (resetOf c e).device = [] := rfl
@[simp] theorem resetOf_canvas (c : Config) (e : Nat) : (resetOf c e).canvas = [] := rfl
@[simp] theorem resetOf_now (c : Config) (e : Nat) : (resetOf c e).now = 0 := rfl
@[simp] theorem resetOf_epoch (c : Config) (e : Nat) : (resetOf c e).epoch = e := rfl

end Sys2Proof.Machine.State
end

