-- ==== Sys2Proof/Laws/Memory.lean ====
section
/-! SUPPORT. The frame buffer's cells: read after write, read after a sweep, and that every memory operation keeps the
canonical form (log 2). -/

namespace Sys2Proof.Machine

open Memory

@[simp] theorem Memory.read?_nil (i : Nat) : Memory.read? [] i = none := rfl

theorem Memory.read?_cons (j : Nat) (b : Byte) (m : Memory) (i : Nat) :
    Memory.read? ((j, b) :: m) i = if j = i then some b else Memory.read? m i := rfl

theorem Memory.read?_write (m : Memory) (i : Nat) (v : Byte) (k : Nat) :
    (m.write i v).read? k = if i = k then some v else m.read? k := by
  induction m with
  | nil => simp [Memory.write, Memory.read?]
  | cons c m ih =>
    obtain ⟨j, b⟩ := c
    unfold Memory.write
    split
    · simp [Memory.read?_cons]
    · split
      · subst j
        simp only [Memory.read?_cons]
        split <;> simp_all
      · simp only [Memory.read?_cons, ih]
        split <;> split <;> simp_all

@[simp] theorem Memory.read?_write_same (m : Memory) (i : Nat) (v : Byte) : (m.write i v).read? i = some v := by
  simp [Memory.read?_write]

theorem Memory.read?_write_ne (m : Memory) {i k : Nat} (v : Byte) (h : i ≠ k) : (m.write i v).read? k = m.read? k := by
  simp [Memory.read?_write, h]

theorem Memory.read?_append (a b : Memory) (i : Nat) :
    Memory.read? (a ++ b) i = (Memory.read? a i).or (Memory.read? b i) := by
  induction a with
  | nil => simp
  | cons c a ih =>
    obtain ⟨j, v⟩ := c
    simp only [List.cons_append, Memory.read?_cons, ih]
    split <;> simp

theorem Memory.read?_filter_ge (m : Memory) (n i : Nat) :
    Memory.read? (m.filter fun c => decide (n ≤ c.1)) i = if n ≤ i then m.read? i else none := by
  induction m with
  | nil => simp
  | cons c m ih =>
    obtain ⟨j, v⟩ := c
    rw [List.filter_cons]
    split
    · rename_i h
      have h' : n ≤ j := by simpa using h
      simp only [Memory.read?_cons, ih]
      split
      · subst j; simp [h']
      · rfl
    · rename_i h
      have h' : ¬ n ≤ j := by simpa using h
      simp only [Memory.read?_cons, ih]
      split
      · split
        · subst j; omega
        · rfl
      · rfl

theorem Memory.read?_tabulate (l : List Nat) (f : Nat → Byte) (i : Nat) :
    Memory.read? (l.map fun k => (k, f k)) i = if i ∈ l then some (f i) else none := by
  induction l with
  | nil => simp
  | cons a l ih =>
    simp only [List.map_cons, Memory.read?_cons, ih, List.mem_cons]
    by_cases h : a = i
    · subst h; simp
    · simp [h, Ne.symm h]

theorem Memory.read?_sweep (n : Nat) (f : Nat → Byte) (m : Memory) (i : Nat) :
    (m.sweep n f).read? i = if i < n then some (f i) else m.read? i := by
  unfold Memory.sweep
  rw [Memory.read?_append, Memory.read?_tabulate, Memory.read?_filter_ge]
  by_cases h : i < n
  · simp [h]
  · simp [h, Nat.le_of_not_lt h]

/-! ## The canonical form -/

theorem Memory.wf_iff (m : Memory) : m.wf = true ↔ m.Pairwise fun a b => a.1 < b.1 := by
  induction m with
  | nil => simp [Memory.wf]
  | cons c m ih =>
    cases m with
    | nil => simp [Memory.wf]
    | cons d m =>
      obtain ⟨i, v⟩ := c
      obtain ⟨j, w⟩ := d
      simp only [Memory.wf, Bool.and_eq_true, decide_eq_true_eq, ih]
      constructor
      · rintro ⟨hij, hp⟩
        refine List.pairwise_cons.2 ⟨?_, hp⟩
        rintro ⟨k, u⟩ hk
        rcases List.mem_cons.1 hk with h | h
        · cases h; exact hij
        · exact Nat.lt_trans hij ((List.pairwise_cons.1 hp).1 _ h)
      · intro h
        exact ⟨(List.pairwise_cons.1 h).1 _ (List.mem_cons_self), (List.pairwise_cons.1 h).2⟩

theorem Memory.mem_write (m : Memory) (i : Nat) (v : Byte) {c : Host.Cell} (h : c ∈ m.write i v) :
    c = (i, v) ∨ c ∈ m := by
  induction m with
  | nil => simpa [Memory.write] using h
  | cons d m ih =>
    obtain ⟨j, b⟩ := d
    unfold Memory.write at h
    split at h
    · simpa using h
    · split at h
      · rcases List.mem_cons.1 h with h | h
        · exact .inl h
        · exact .inr (List.mem_cons_of_mem _ h)
      · rcases List.mem_cons.1 h with h | h
        · exact .inr (by simp [h])
        · rcases ih h with h | h
          · exact .inl h
          · exact .inr (List.mem_cons_of_mem _ h)

/-- A byte write keeps the canonical form. -/
theorem Memory.wf_write (m : Memory) (i : Nat) (v : Byte) (h : m.wf = true) : (m.write i v).wf = true := by
  rw [Memory.wf_iff] at *
  induction m with
  | nil => simp [Memory.write]
  | cons d m ih =>
    obtain ⟨j, b⟩ := d
    obtain ⟨h1, h2⟩ := List.pairwise_cons.1 h
    unfold Memory.write
    split
    · rename_i hij
      refine List.pairwise_cons.2 ⟨?_, h⟩
      intro c hc
      rcases List.mem_cons.1 hc with hc | hc
      · simpa [hc] using hij
      · exact Nat.lt_trans hij (h1 _ hc)
    · split
      · subst j
        exact List.pairwise_cons.2 ⟨h1, h2⟩
      · refine List.pairwise_cons.2 ⟨?_, ih h2⟩
        intro c hc
        rcases Memory.mem_write m i v hc with hc | hc
        · subst hc; show j < i; omega
        · exact h1 _ hc

/-- A sweep keeps the canonical form. -/
theorem Memory.wf_sweep (n : Nat) (f : Nat → Byte) (m : Memory) (h : m.wf = true) : (m.sweep n f).wf = true := by
  rw [Memory.wf_iff] at *
  refine List.pairwise_append.2 ⟨?_, h.filter _, ?_⟩
  · rw [List.pairwise_map]
    exact List.pairwise_lt_range
  · intro a ha b hb
    obtain ⟨k, hk, rfl⟩ := List.mem_map.1 ha
    have hb' := (List.mem_filter.1 hb).2
    have : n ≤ b.1 := by simpa using hb'
    have : k < n := List.mem_range.1 hk
    show k < b.1
    omega

theorem Memory.within_iff (n : Nat) (m : Memory) : m.within n = true ↔ ∀ c ∈ m, c.1 < n := by
  simp [Memory.within]

/-- A byte write below `n` keeps every cell below `n`. -/
theorem Memory.within_write (n : Nat) (m : Memory) {i : Nat} (v : Byte) (h : m.within n = true) (hi : i < n) :
    (m.write i v).within n = true := by
  rw [Memory.within_iff] at *
  intro c hc
  rcases Memory.mem_write m i v hc with hc | hc
  · subst hc; exact hi
  · exact h c hc

/-- A sweep of the first `n` bytes keeps every cell below `n`. -/
theorem Memory.within_sweep (n : Nat) (f : Nat → Byte) (m : Memory) (h : m.within n = true) :
    (m.sweep n f).within n = true := by
  rw [Memory.within_iff] at *
  intro c hc
  rcases List.mem_append.1 hc with hc | hc
  · obtain ⟨k, hk, rfl⟩ := List.mem_map.1 hc
    exact List.mem_range.1 hk
  · exact h c (List.mem_filter.1 hc).1

/-! ## Canonical memories that read alike are equal -/

theorem Memory.read?_eq_none {m : Memory} {i : Nat} (h : ∀ c ∈ m, i < c.1) : m.read? i = none := by
  induction m with
  | nil => rfl
  | cons c m ih =>
    obtain ⟨j, v⟩ := c
    rw [Memory.read?_cons, if_neg, ih fun c hc => h c (List.mem_cons_of_mem _ hc)]
    have : i < j := h (j, v) List.mem_cons_self
    omega

theorem Memory.ext {m m' : Memory} (h : m.wf = true) (h' : m'.wf = true) (e : ∀ i, m.read? i = m'.read? i) : m = m' := by
  rw [Memory.wf_iff] at h h'
  induction m generalizing m' with
  | nil =>
    cases m' with
    | nil => rfl
    | cons c m' =>
      have := e c.1
      simp [Memory.read?] at this
  | cons c m ih =>
    obtain ⟨i, v⟩ := c
    cases m' with
    | nil =>
      have := e i
      simp [Memory.read?] at this
    | cons c' m' =>
      obtain ⟨j, w⟩ := c'
      obtain ⟨h1, h2⟩ := List.pairwise_cons.1 h
      obtain ⟨k1, k2⟩ := List.pairwise_cons.1 h'
      have key : ∀ {i j : Nat} {v w : Byte} {m m' : Memory}, (∀ c ∈ m', j < c.1) →
          (∀ k, Memory.read? ((i, v) :: m) k = Memory.read? ((j, w) :: m') k) → ¬ i < j := by
        intro i j v w m m' hk hr hij
        have := hr i
        rw [Memory.read?_cons, if_pos rfl, Memory.read?_cons, if_neg (by omega),
          Memory.read?_eq_none fun c hc => Nat.lt_trans hij (hk c hc)] at this
        cases this
      have hij : i = j := by
        have := key k1 e
        have := key h1 fun k => (e k).symm
        omega
      subst hij
      have hv : v = w := by
        have := e i
        rw [Memory.read?_cons, if_pos rfl, Memory.read?_cons, if_pos rfl] at this
        exact Option.some.inj this
      subst hv
      rw [ih h2 k2 fun k => ?_]
      by_cases hk : i < k
      · have := e k
        rwa [Memory.read?_cons, if_neg (by omega), Memory.read?_cons, if_neg (by omega)] at this
      · rw [Memory.read?_eq_none fun c hc => Nat.lt_of_le_of_lt (by omega) (h1 c hc),
          Memory.read?_eq_none fun c hc => Nat.lt_of_le_of_lt (by omega) (k1 c hc)]

/-! ## Bytes of the state -/

theorem State.readByte_writeByte (s : State) (i k : Nat) (v : Byte) :
    (s.writeByte i v).readByte k = if i = k then v else s.readByte k := by
  simp only [State.readByte, State.writeByte_fb, State.writeByte_epoch, Memory.read?_write]
  split <;> simp

@[simp] theorem State.readByte_writeByte_same (s : State) (i : Nat) (v : Byte) : (s.writeByte i v).readByte i = v := by
  simp [State.readByte_writeByte]

theorem State.readByte_sweepBytes (s : State) (f : Nat → Byte) (k : Nat) :
    (s.sweepBytes f).readByte k = if k < fbLen s.cfg then f k else s.readByte k := by
  simp only [State.readByte, State.sweepBytes_fb, State.sweepBytes_epoch, Memory.read?_sweep]
  split <;> simp

/-- Reading a byte looks at the cells and the epoch only. -/
theorem State.readByte_congr {s t : State} (hf : t.fb = s.fb) (he : t.epoch = s.epoch) (k : Nat) :
    t.readByte k = s.readByte k := by
  simp [State.readByte, hf, he]

end Sys2Proof.Machine
end

