-- ==== Sys2Proof/Laws/Pixels.lean ====
section
/-! SUPPORT. Pixel addressing and the pixel write (spec/20_memory.md R50, spec/40_framebuffer.md R90, R96): what
`pixelAddr`, `setPixel` and `plotAll` do, once. -/

namespace Sys2Proof.Machine

/-! ## Addresses -/

theorem pixelAddr_of_onPanel {c : Config} {x y : Int} (h : OnPanel c x y) :
    pixelAddr c x y = some ((x - 1).toNat + ((y - 1).toNat / 8) * c.columns, (y - 1).toNat % 8) := by
  unfold pixelAddr
  obtain ⟨h1, h2, h3, h4⟩ := h
  rw [if_neg (by omega)]

theorem pixelAddr_eq_none {c : Config} {x y : Int} : pixelAddr c x y = none ↔ ¬ OnPanel c x y := by
  unfold pixelAddr OnPanel
  dsimp only
  split
  · simp; omega
  · simp; omega

theorem pixelAddr_eq_some {c : Config} {x y : Int} {i b : Nat} :
    pixelAddr c x y = some (i, b) ↔
      OnPanel c x y ∧ i = (x - 1).toNat + ((y - 1).toNat / 8) * c.columns ∧ b = (y - 1).toNat % 8 := by
  by_cases h : OnPanel c x y
  · rw [pixelAddr_of_onPanel h]
    simp only [Option.some.injEq, Prod.mk.injEq]
    constructor
    · rintro ⟨rfl, rfl⟩; exact ⟨h, rfl, rfl⟩
    · rintro ⟨_, rfl, rfl⟩; exact ⟨rfl, rfl⟩
  · rw [pixelAddr_eq_none.2 h]
    simp [h]

theorem pixelAddr_bit_lt {c : Config} {x y : Int} {i b : Nat} (h : pixelAddr c x y = some (i, b)) : b < 8 := by
  obtain ⟨_, _, rfl⟩ := pixelAddr_eq_some.1 h
  exact Nat.mod_lt _ (by decide)

/-- The index is always inside the buffer (40_framebuffer.md R90). -/
theorem pixelAddr_index_lt {c : Config} {x y : Int} {i b : Nat} (h : pixelAddr c x y = some (i, b)) : i < fbLen c := by
  obtain ⟨⟨h1, h2, h3, h4⟩, rfl, _⟩ := pixelAddr_eq_some.1 h
  have hx : (x - 1).toNat < c.columns := by omega
  have hy : (y - 1).toNat / 8 + 1 ≤ pages c := by unfold pages; omega
  have := Nat.mul_le_mul_right c.columns hy
  unfold fbLen
  rw [Nat.mul_comm c.columns]
  rw [Nat.add_mul] at this
  omega

/-- Two pixels with one address are the same pixel. -/
theorem pixelAddr_inj {c : Config} {x y x' y' : Int} {a : Nat × Nat} (h : pixelAddr c x y = some a)
    (h' : pixelAddr c x' y' = some a) : x = x' ∧ y = y' := by
  obtain ⟨i, b⟩ := a
  obtain ⟨⟨h1, h2, h3, h4⟩, hi, hb⟩ := pixelAddr_eq_some.1 h
  obtain ⟨⟨k1, k2, k3, k4⟩, hi', hb'⟩ := pixelAddr_eq_some.1 h'
  have e : (x - 1).toNat + ((y - 1).toNat / 8) * c.columns = (x' - 1).toNat + ((y' - 1).toNat / 8) * c.columns := by
    rw [← hi, ← hi']
  have hx : (x - 1).toNat < c.columns := by omega
  have hx' : (x' - 1).toNat < c.columns := by omega
  have em : (x - 1).toNat = (x' - 1).toNat := by
    have := congrArg (· % c.columns) e
    rwa [Nat.add_mul_mod_self_right, Nat.add_mul_mod_self_right, Nat.mod_eq_of_lt hx, Nat.mod_eq_of_lt hx'] at this
  have ed : (y - 1).toNat / 8 = (y' - 1).toNat / 8 := by
    have := congrArg (· / c.columns) e
    have hc : 0 < c.columns := by omega
    rwa [Nat.add_mul_div_right _ _ hc, Nat.add_mul_div_right _ _ hc, Nat.div_eq_of_lt hx, Nat.div_eq_of_lt hx',
      Nat.zero_add, Nat.zero_add] at this
  omega

/-- Every bit of the frame buffer is the bit of a pixel, when the rows fill whole pages. -/
theorem exists_pixelAddr {c : Config} (hr : c.rows % 8 = 0) {i b : Nat} (hi : i < fbLen c) (hb : b < 8) :
    ∃ x y, pixelAddr c x y = some (i, b) := by
  have hc : 0 < c.columns := by
    rcases Nat.eq_zero_or_pos c.columns with h | h
    · simp [fbLen, h] at hi
    · exact h
  have hp : i / c.columns < pages c := by
    rw [Nat.div_lt_iff_lt_mul hc, Nat.mul_comm]; exact hi
  refine ⟨(i % c.columns : Nat) + 1, ((i / c.columns) * 8 + b : Nat) + 1, pixelAddr_eq_some.2 ⟨⟨?_, ?_, ?_, ?_⟩, ?_, ?_⟩⟩
  · omega
  · have := Nat.mod_lt i hc; omega
  · omega
  · unfold pages at hp; omega
  · have h1 : (((i % c.columns : Nat) : Int) + 1 - 1).toNat = i % c.columns := by omega
    have h2 : ((((i / c.columns) * 8 + b : Nat) : Int) + 1 - 1).toNat / 8 = i / c.columns := by omega
    rw [h1, h2, Nat.mul_comm]
    exact (Nat.mod_add_div i c.columns).symm
  · omega

theorem State.pixel_eq_none {s : State} {x y : Int} : s.pixel x y = none ↔ ¬ OnPanel s.cfg x y := by
  simp [State.pixel, pixelAddr_eq_none]

theorem State.pixel_of_addr {s : State} {x y : Int} {i b : Nat} (h : pixelAddr s.cfg x y = some (i, b)) :
    s.pixel x y = some ((s.readByte i).getLsbD b) := by
  simp [State.pixel, h]

/-! ## Masks -/

theorem getLsbD_bitMask {b k : Nat} (hb : b < 8) : (bitMask b).getLsbD k = decide (k = b) := by
  have : ∀ b < 8, ∀ k, (bitMask b).getLsbD k = decide (k = b) := by
    intro b hb k
    by_cases hk : k < 8
    · revert b k; decide
    · have h1 : (bitMask b).getLsbD k = false := BitVec.getLsbD_of_ge _ _ (by omega)
      rw [h1]; simp; omega
  exact this b hb k

/-! ## `setPixel` -/

/-- Everything a pixel write can do: nothing off the panel, one byte written on it. -/
theorem State.setPixel_cases (s : State) (x y : Int) (on : Bool) :
    (¬ OnPanel s.cfg x y ∧ s.setPixel x y on = s) ∨
    (∃ i b v, pixelAddr s.cfg x y = some (i, b) ∧ s.setPixel x y on = s.writeByte i v ∧
      ∀ k, v.getLsbD k = if k = b then on else (s.readByte i).getLsbD k) := by
  unfold State.setPixel
  split
  · rename_i h
    exact .inl ⟨pixelAddr_eq_none.1 h, rfl⟩
  · rename_i i b h
    refine .inr ⟨i, b, if on then s.readByte i ||| bitMask b else s.readByte i &&& ~~~ bitMask b, h, ?_, ?_⟩
    · cases on <;> rfl
    · intro k
      have hb := pixelAddr_bit_lt h
      have hm := getLsbD_bitMask (b := b) (k := k) hb
      cases on
      · rw [if_neg Bool.false_ne_true, BitVec.getLsbD_and, BitVec.getLsbD_not, hm]
        by_cases h' : k = b
        · simp [h']
        · by_cases h8 : k < 8
          · simp [h', h8]
          · simp [h', BitVec.getLsbD_of_ge _ k (by omega : 8 ≤ k)]
      · rw [if_pos rfl, BitVec.getLsbD_or, hm]
        by_cases h' : k = b <;> simp [h']

/-- A pixel write changes the frame buffer only. -/
theorem State.setPixel_eq (s : State) (x y : Int) (on : Bool) : s.setPixel x y on = { s with fb := (s.setPixel x y on).fb } := by
  rcases s.setPixel_cases x y on with ⟨_, h⟩ | ⟨i, b, v, _, h, _⟩
  · rw [h]
  · rw [h]; rfl

@[simp] theorem State.setPixel_cfg (s : State) (x y : Int) (on : Bool) : (s.setPixel x y on).cfg = s.cfg := by
  rw [State.setPixel_eq]

@[simp] theorem State.setPixel_epoch (s : State) (x y : Int) (on : Bool) : (s.setPixel x y on).epoch = s.epoch := by
  rw [State.setPixel_eq]

/-- Exactly one pixel takes the value written; the others keep theirs (40_framebuffer.md R90). -/
theorem State.pixel_setPixel (s : State) (x y : Int) (on : Bool) (x' y' : Int) :
    (s.setPixel x y on).pixel x' y' =
      if x' = x ∧ y' = y ∧ OnPanel s.cfg x y then some on else s.pixel x' y' := by
  rcases s.setPixel_cases x y on with ⟨hp, h⟩ | ⟨i, b, v, ha, h, hv⟩
  · rw [h, if_neg (by tauto)]
  · have hp : OnPanel s.cfg x y := (pixelAddr_eq_some.1 ha).1
    rw [h]
    by_cases hq : OnPanel s.cfg x' y'
    · have ha' := pixelAddr_of_onPanel hq
      rw [State.pixel_of_addr (s := s.writeByte i v) ha', State.pixel_of_addr ha', State.readByte_writeByte]
      split
      · rename_i hi
        rw [hv]
        split
        · rename_i hb
          obtain ⟨rfl, rfl⟩ := pixelAddr_inj ha (by rw [ha', hi, hb])
          simp [hp]
        · rename_i hb
          rw [if_neg]
          · rw [hi]
          · rintro ⟨rfl, rfl, _⟩
            rw [ha'] at ha
            simp only [Option.some.injEq, Prod.mk.injEq] at ha
            exact hb ha.2
      · rename_i hi
        rw [if_neg]
        rintro ⟨rfl, rfl, _⟩
        rw [ha'] at ha
        simp only [Option.some.injEq, Prod.mk.injEq] at ha
        exact hi ha.1.symm
    · have h1 : (s.writeByte i v).pixel x' y' = none := State.pixel_eq_none.2 hq
      rw [h1, State.pixel_eq_none.2 hq, if_neg]
      rintro ⟨rfl, rfl, _⟩
      exact hq hp

/-- Every byte but the pixel's keeps its value. -/
theorem State.readByte_setPixel (s : State) (x y : Int) (on : Bool) {a : Nat}
    (h : ∀ b, pixelAddr s.cfg x y ≠ some (a, b)) : (s.setPixel x y on).readByte a = s.readByte a := by
  rcases s.setPixel_cases x y on with ⟨_, h'⟩ | ⟨i, b, v, ha, h', _⟩
  · rw [h']
  · rw [h', State.readByte_writeByte, if_neg]
    rintro rfl
    exact h b ha

theorem State.memInv_setPixel (s : State) (x y : Int) (on : Bool) (h : s.MemInv) : (s.setPixel x y on).MemInv := by
  rcases s.setPixel_cases x y on with ⟨_, h'⟩ | ⟨i, b, v, ha, h', _⟩
  · rwa [h']
  · rw [h']
    exact ⟨Memory.wf_write _ _ _ h.1, Memory.within_write _ _ _ h.2 (pixelAddr_index_lt ha)⟩

/-! ## `plotAll` -/

@[simp] theorem State.plotAll_nil (s : State) : s.plotAll [] = s := rfl

@[simp] theorem State.plotAll_cons (s : State) (p : Point) (l : List Point) :
    s.plotAll (p :: l) = (s.setPixel p.1 p.2 true).plotAll l := rfl

theorem State.plotAll_append (s : State) (l l' : List Point) : s.plotAll (l ++ l') = (s.plotAll l).plotAll l' := by
  simp [State.plotAll, List.foldl_append]

/-- A plot sequence changes the frame buffer only. -/
theorem State.plotAll_eq (s : State) (l : List Point) : s.plotAll l = { s with fb := (s.plotAll l).fb } := by
  induction l generalizing s with
  | nil => rfl
  | cons p l ih =>
    rw [State.plotAll_cons, ih]
    rw [State.setPixel_eq s]

@[simp] theorem State.plotAll_cfg (s : State) (l : List Point) : (s.plotAll l).cfg = s.cfg := by
  rw [State.plotAll_eq]

theorem State.memInv_plotAll (s : State) (l : List Point) (h : s.MemInv) : (s.plotAll l).MemInv := by
  induction l generalizing s with
  | nil => exact h
  | cons p l ih => exact ih _ (s.memInv_setPixel _ _ _ h)

/-- What a plot sequence does (41_rasterizer_lines_rects.md R101): each in-bounds point of it is on, nothing else
changes. Its order and multiplicity cannot be seen. -/
theorem State.plotAll_drawn (s : State) (l : List Point) : Drawn s (s.plotAll l) fun x y => (x, y) ∈ l := by
  induction l generalizing s with
  | nil => exact ⟨by simp, by simp⟩
  | cons p l ih =>
    obtain ⟨px, py⟩ := p
    obtain ⟨h1, h2⟩ := ih (s.setPixel px py true)
    refine ⟨?_, ?_⟩
    · intro x y hp
      rw [State.plotAll_cons, h1 x y (by simpa using hp), State.pixel_setPixel]
      by_cases hq : x = px ∧ y = py
      · obtain ⟨rfl, rfl⟩ := hq
        simp [hp]
      · rw [if_neg (by tauto)]
        have : (x, y) ≠ (px, py) := by simpa using hq
        simp [List.mem_cons, this]
    · intro a ha
      rw [State.plotAll_cons, h2 a, State.readByte_setPixel]
      · intro b
        exact ha px py b (by simp)
      · intro x y b hm
        rw [State.setPixel_cfg]
        exact ha x y b (by simp [hm])

/-- `Drawn` looks at the set of points only. -/
theorem Drawn.congr {s t : State} {S S' : Int → Int → Prop} (h : Drawn s t S) (e : ∀ x y, S x y ↔ S' x y) :
    Drawn s t S' := by
  have : S = S' := by funext x y; exact propext (e x y)
  rwa [← this]

end Sys2Proof.Machine
end

