-- ==== Sys2Proof/Laws/Ops.lean ====
section
/-! SUPPORT. What the shared operations do when the device accepts (closed forms), and what they can change whatever the
device answers (frames). -/

namespace Sys2Proof.Machine

/-! ## Sequencing -/

@[simp] theorem going_st (s : State) : (going s).st = s := rfl
@[simp] theorem going_how (s : State) : (going s).how = .going := rfl
@[simp] theorem going_andThen (s : State) (f : State → Ran) : (going s).andThen f = f s := rfl
@[simp] theorem going_finish (s : State) : (going s).finish = s.complete .ok 0 := rfl

theorem Ran.andThen_of_stopped {r : Ran} (f : State → Ran) (h : r.how ≠ .going) : r.andThen f = r := by
  unfold Ran.andThen
  split
  · contradiction
  · rfl
  · rfl

theorem Ran.andThen_assoc (r : Ran) (f g : State → Ran) :
    (r.andThen f).andThen g = r.andThen fun s => (f s).andThen g := by
  cases h : r.how <;> simp [Ran.andThen, h]

/-! ## `sending` -/

@[simp] theorem State.sending_nil (s : State) : s.sending [] = s := by simp [State.sending]

theorem State.sending_sending (s : State) (a b : List Transfer) : (s.sending a).sending b = s.sending (a ++ b) := by
  simp [State.sending, List.append_assoc, List.drop_drop]

@[simp] theorem State.sending_cfg (s : State) (ts : List Transfer) : (s.sending ts).cfg = s.cfg := rfl
@[simp] theorem State.sending_fb (s : State) (ts : List Transfer) : (s.sending ts).fb = s.fb := rfl
@[simp] theorem State.sending_pstate (s : State) (ts : List Transfer) : (s.sending ts).pstate = s.pstate := rfl
@[simp] theorem State.sending_contrast (s : State) (ts : List Transfer) : (s.sending ts).contrast = s.contrast := rfl
@[simp] theorem State.sending_preDim (s : State) (ts : List Transfer) : (s.sending ts).preDim = s.preDim := rfl
@[simp] theorem State.sending_timer (s : State) (ts : List Transfer) : (s.sending ts).timer = s.timer := rfl
@[simp] theorem State.sending_flags (s : State) (ts : List Transfer) : (s.sending ts).flags = s.flags := rfl
@[simp] theorem State.sending_hung (s : State) (ts : List Transfer) : (s.sending ts).hung = s.hung := rfl
@[simp] theorem State.sending_trace (s : State) (ts : List Transfer) : (s.sending ts).trace = s.trace ++ ts := rfl
@[simp] theorem State.sending_completions (s : State) (ts : List Transfer) : (s.sending ts).completions = s.completions := rfl
@[simp] theorem State.sending_device (s : State) (ts : List Transfer) : (s.sending ts).device = s.device.drop ts.length := rfl
@[simp] theorem State.sending_now (s : State) (ts : List Transfer) : (s.sending ts).now = s.now := rfl
@[simp] theorem State.sending_epoch (s : State) (ts : List Transfer) : (s.sending ts).epoch = s.epoch := rfl
@[simp] theorem State.sending_canvas (s : State) (ts : List Transfer) : (s.sending ts).canvas = s.canvas := rfl
@[simp] theorem State.sending_inputs (s : State) (ts : List Transfer) : (s.sending ts).inputs = s.inputs := rfl
@[simp] theorem State.sending_readByte (s : State) (ts : List Transfer) (i : Nat) : (s.sending ts).readByte i = s.readByte i := rfl

/-- The device's acceptance of `a + b` transfers, split. -/
theorem State.accepts_add {s : State} {a b : Nat} :
    s.Accepts (a + b) ↔ s.Accepts a ∧ ∀ x ∈ (s.device.drop a).take b, x = .accept := by
  unfold State.Accepts
  rw [List.take_add]
  simp only [List.mem_append]
  constructor
  · intro h; exact ⟨fun x hx => h x (.inl hx), fun x hx => h x (.inr hx)⟩
  · rintro ⟨h1, h2⟩ x (hx | hx)
    · exact h1 x hx
    · exact h2 x hx

theorem State.accepts_mono {s : State} {a b : Nat} (h : s.Accepts b) (hab : a ≤ b) : s.Accepts a := by
  obtain ⟨c, rfl⟩ := Nat.exists_eq_add_of_le hab
  exact (State.accepts_add.1 h).1

/-! ## Bus transfers -/

theorem busTransfer_accepted {s : State} (t : Transfer) (h : s.Accepts 1) : busTransfer t s = going (s.sending [t]) := by
  unfold busTransfer
  split
  · rename_i hd; simp [State.sending, hd]
  · rename_i rest hd; simp [State.sending, hd]
  · rename_i rest hd; exact absurd (h .refuse (by simp [hd])) (by decide)
  · rename_i rest hd; exact absurd (h .silent (by simp [hd])) (by decide)

theorem busTransfer_refused {s : State} (t : Transfer) {rest : List BusAnswer} (h : s.device = .refuse :: rest) :
    busTransfer t s = { st := State.noteBusErr { s with device := rest }, how := .busError } := by
  unfold busTransfer; rw [h]

theorem busCmds_accepted (cs : List DeviceCmd) {s : State} (h : s.Accepts cs.length) :
    busCmds cs s = going (s.sending (cs.map .cmd)) := by
  induction cs generalizing s with
  | nil => simp [busCmds]
  | cons c cs ih =>
    have h' : s.Accepts (1 + cs.length) := by rwa [Nat.add_comm]
    obtain ⟨h1, h2⟩ := State.accepts_add.1 h'
    rw [busCmds, busCmd, busTransfer_accepted _ h1, going_andThen, ih h2, State.sending_sending]
    rfl

/-! ## The fade -/

theorem fadeDelta_self (c : Byte) : fadeDelta c c = 0 := by simp [fadeDelta]

theorem fadeDelta_eq_zero {c t : Byte} (h : fadeDelta c t = 0) : c = t := by
  apply BitVec.eq_of_toNat_eq
  unfold fadeDelta at h
  omega

theorem fadeDelta_eq_natAbs (c t : Byte) : fadeDelta c t = ((t.toNat : Int) - c.toNat).natAbs := by
  unfold fadeDelta; omega

theorem fadeDelta_stepToward {c t : Byte} (h : c ≠ t) : fadeDelta (stepToward c t) t + 1 = fadeDelta c t := by
  have hne : c.toNat ≠ t.toNat := fun e => h (BitVec.eq_of_toNat_eq e)
  have hc := c.isLt
  have ht := t.isLt
  unfold stepToward fadeDelta
  split
  · rename_i hlt
    have : c.toNat < t.toNat := BitVec.lt_def.1 hlt
    have e : (c + 1).toNat = c.toNat + 1 := by
      rw [BitVec.toNat_add]; exact Nat.mod_eq_of_lt (by simp; omega)
    rw [e]; omega
  · rename_i hlt
    have : ¬ c.toNat < t.toNat := fun e => hlt (BitVec.lt_def.2 e)
    have e : (c - 1).toNat = c.toNat - 1 := by
      rw [BitVec.toNat_sub]; simp; omega
    rw [e]; omega

/-- The first step of a fade, and the rest of it. -/
theorem fadeTransfers_step {c t : Byte} (h : c ≠ t) :
    fadeTransfers c t = .cmd (.setContrast (stepToward c t)) :: fadeTransfers (stepToward c t) t := by
  have hd := fadeDelta_stepToward h
  rw [fadeDelta_eq_natAbs, fadeDelta_eq_natAbs] at hd
  unfold fadeTransfers
  rw [← hd, List.range_succ_eq_map, List.map_cons, List.map_map]
  have hne : c.toNat ≠ t.toNat := fun e => h (BitVec.eq_of_toNat_eq e)
  refine List.cons_eq_cons.2 ⟨?_, ?_⟩
  · unfold stepToward fadeValue; simp
  · apply List.map_congr_left
    intro k hk
    have hk' := List.mem_range.1 hk
    simp only [Function.comp, fadeValue]
    have hc := c.isLt
    have ht := t.isLt
    have eo : (1 : Byte).toNat = 1 := rfl
    by_cases hlt : c < t
    · have hlt' : c.toNat < t.toNat := BitVec.lt_def.1 hlt
      have e : stepToward c t = c + 1 := by simp [stepToward, hlt]
      have en : (c + 1).toNat = c.toNat + 1 := by
        rw [BitVec.toNat_add, eo]; omega
      rw [e, en] at hk'
      have : c + 1 < t := by
        rw [BitVec.lt_def, en]; omega
      rw [e, if_pos hlt, if_pos this]
      refine congrArg (fun b => Transfer.cmd (.setContrast b)) ?_
      apply BitVec.eq_of_toNat_eq
      rw [BitVec.toNat_add, BitVec.toNat_add, en, BitVec.toNat_ofNat, BitVec.toNat_ofNat]
      omega
    · have hlt' : ¬ c.toNat < t.toNat := fun x => hlt (BitVec.lt_def.2 x)
      have e : stepToward c t = c - 1 := by simp [stepToward, hlt]
      have en : (c - 1).toNat = c.toNat - 1 := by
        rw [BitVec.toNat_sub, eo]; omega
      rw [e, en] at hk'
      have : ¬ c - 1 < t := by
        rw [BitVec.lt_def, en]; omega
      rw [e, if_neg hlt, if_neg this]
      refine congrArg (fun b => Transfer.cmd (.setContrast b)) ?_
      apply BitVec.eq_of_toNat_eq
      rw [BitVec.toNat_sub, BitVec.toNat_sub, en, BitVec.toNat_ofNat, BitVec.toNat_ofNat]
      omega

@[simp] theorem fadeTransfers_self (c : Byte) : fadeTransfers c c = [] := by simp [fadeTransfers]

theorem fadeTransfers_length (a b : Byte) : (fadeTransfers a b).length = ((b.toNat : Int) - a.toNat).natAbs := by
  simp [fadeTransfers]

/-- The fade of an accepting device: the target reached, one command per unit sent (44_transmission.md R157, R158). -/
theorem fadeTo_accepted (t : Byte) {s : State} (h : s.Accepts (fadeTransfers s.contrast t).length) :
    fadeTo t s = going (State.sending { s with contrast := t } (fadeTransfers s.contrast t)) := by
  unfold fadeTo
  generalize hn : fadeDelta s.contrast t = n
  induction n generalizing s with
  | zero =>
    have e := fadeDelta_eq_zero hn
    rw [e]
    simp only [fadeSteps, fadeTransfers_self, State.sending_nil]
    rw [← e]
  | succ n ih =>
    have hne : s.contrast ≠ t := by
      intro e
      rw [e, fadeDelta_self] at hn
      omega
    have hstep := fadeDelta_stepToward hne
    rw [fadeTransfers_step hne] at h ⊢
    rw [List.length_cons, Nat.add_comm] at h
    obtain ⟨h1, h2⟩ := State.accepts_add.1 h
    have h1' : State.Accepts { s with contrast := stepToward s.contrast t } 1 := h1
    simp only [fadeSteps, busCmd, busTransfer_accepted _ h1', going_andThen]
    rw [ih]
    · simp [State.sending]
    · exact h2
    · show fadeDelta (stepToward s.contrast t) t = n
      omega

/-! ## The activity reset -/

theorem timerConfigured_iff (c : Config) : timerConfigured c = true ↔ 0 < c.dimSeconds ∨ 0 < c.sleepSeconds := by
  simp [timerConfigured]

theorem restartTimer_eq (s : State) :
    restartTimer s =
      { s with timer := if 0 < s.cfg.dimSeconds ∨ 0 < s.cfg.sleepSeconds then .armed .dimPhase s.now else s.timer } := by
  unfold restartTimer State.setTimer
  by_cases h : 0 < s.cfg.dimSeconds ∨ 0 < s.cfg.sleepSeconds
  · rw [if_pos ((timerConfigured_iff _).2 h), if_pos h]
  · rw [if_neg (fun x => h ((timerConfigured_iff _).1 x)), if_neg h]

/-- The activity reset of an accepting device, from every state but Off (60_exceptions.md R181, R182, R184). -/
theorem activityReset_accepted {s : State} (hp : s.pstate ≠ .off) (h : s.Accepts (wakeTransfers s).length) :
    activityReset s = going s.afterActivity := by
  unfold activityReset restoreOn State.afterActivity
  cases hs : s.pstate with
  | off => exact absurd hs hp
  | on =>
    simp only [wakeTransfers, hs, going_andThen, restartTimer_eq, State.sending_nil, if_true]
  | dim =>
    have hw : wakeTransfers s = fadeTransfers s.contrast s.preDim := by simp [wakeTransfers, hs]
    rw [hw] at h ⊢
    dsimp only
    rw [unDim, fadeTo_accepted _ h, going_andThen, going_andThen, restartTimer_eq]
    rfl
  | sleep =>
    have hw : wakeTransfers s = .cmd .displayOn :: fadeTransfers s.contrast s.preDim := by simp [wakeTransfers, hs]
    rw [hw, List.length_cons, Nat.add_comm] at h
    obtain ⟨h1, h2⟩ := State.accepts_add.1 h
    rw [hw]
    dsimp only
    rw [wake, busCmd, busTransfer_accepted _ h1, going_andThen, unDim, fadeTo_accepted _ h2, going_andThen, going_andThen,
      restartTimer_eq]
    simp [State.sending]

/-! ## What the bus procedures can change, whatever the device answers -/

/-- All a procedure of the bus, the fade and the power state can change. -/
structure OpFrame (s t : State) : Prop where
  eq : t = { s with
    contrast := t.contrast, pstate := t.pstate, preDim := t.preDim, timer := t.timer, device := t.device, trace := t.trace,
    hung := t.hung, flags := { s.flags with busErrSeen := t.flags.busErrSeen } }
  trace : s.trace <+: t.trace
  busErr : s.flags.busErrSeen = true → t.flags.busErrSeen = true
  hung : s.hung = true → t.hung = true

theorem OpFrame.refl (s : State) : OpFrame s s := ⟨rfl, List.prefix_rfl, id, id⟩

theorem OpFrame.trans {s t u : State} (h : OpFrame s t) (k : OpFrame t u) : OpFrame s u := by
  refine ⟨?_, h.trace.trans k.trace, k.busErr ∘ h.busErr, k.hung ∘ h.hung⟩
  have hk := k.eq
  rw [h.eq] at hk
  exact hk

theorem OpFrame.cfg {s t : State} (h : OpFrame s t) : t.cfg = s.cfg := by rw [h.eq]
theorem OpFrame.fb {s t : State} (h : OpFrame s t) : t.fb = s.fb := by rw [h.eq]
theorem OpFrame.fatal {s t : State} (h : OpFrame s t) : t.flags.fatal = s.flags.fatal := by rw [h.eq]
theorem OpFrame.illegalSeen {s t : State} (h : OpFrame s t) : t.flags.illegalSeen = s.flags.illegalSeen := by rw [h.eq]
theorem OpFrame.faultX {s t : State} (h : OpFrame s t) : t.faultX = s.faultX := by rw [h.eq]
theorem OpFrame.faultY {s t : State} (h : OpFrame s t) : t.faultY = s.faultY := by rw [h.eq]
theorem OpFrame.completions {s t : State} (h : OpFrame s t) : t.completions = s.completions := by rw [h.eq]
theorem OpFrame.inputs {s t : State} (h : OpFrame s t) : t.inputs = s.inputs := by rw [h.eq]
theorem OpFrame.canvas {s t : State} (h : OpFrame s t) : t.canvas = s.canvas := by rw [h.eq]
theorem OpFrame.now {s t : State} (h : OpFrame s t) : t.now = s.now := by rw [h.eq]
theorem OpFrame.epoch {s t : State} (h : OpFrame s t) : t.epoch = s.epoch := by rw [h.eq]

/-- A frame that keeps the power state too: the bus and the fade alone. -/
structure BusFrame (s t : State) : Prop extends OpFrame s t where
  pstate : t.pstate = s.pstate
  preDim : t.preDim = s.preDim
  timer : t.timer = s.timer

theorem BusFrame.refl (s : State) : BusFrame s s := ⟨OpFrame.refl s, rfl, rfl, rfl⟩

theorem BusFrame.trans {s t u : State} (h : BusFrame s t) (k : BusFrame t u) : BusFrame s u :=
  ⟨h.toOpFrame.trans k.toOpFrame, k.pstate.trans h.pstate, k.preDim.trans h.preDim, k.timer.trans h.timer⟩

theorem BusFrame.contrast (s : State) (c : Byte) : BusFrame s { s with contrast := c } :=
  ⟨⟨rfl, List.prefix_rfl, id, id⟩, rfl, rfl, rfl⟩

/-- How a procedure stands agrees with the state it left. -/
structure Ran.Tells (s : State) (r : Ran) : Prop where
  busError : r.how = .busError → r.st.flags.busErrSeen = true
  hung : s.hung = false → (r.how = .hung ↔ r.st.hung = true)
  flags : r.how ≠ .busError → r.st.flags = s.flags

theorem Ran.tells_going (s : State) : Ran.Tells s (going s) := ⟨by simp, by intro h; simp [h], fun _ => rfl⟩

/-- Frames compose along `andThen`. -/
theorem BusFrame.andThen {s : State} {r : Ran} {f : State → Ran} (h : BusFrame s r.st)
    (k : ∀ u, BusFrame u (f u).st) : BusFrame s (r.andThen f).st := by
  unfold Ran.andThen
  split
  · exact h.trans (k _)
  · exact h
  · exact h

theorem Ran.Tells.andThen {s : State} {r : Ran} {f : State → Ran} (h : Ran.Tells s r)
    (k : ∀ u, Ran.Tells u (f u)) : Ran.Tells s (r.andThen f) := by
  unfold Ran.andThen
  split
  · rename_i hg
    refine ⟨(k _).busError, fun hs => (k _).hung ?_,
      fun hb => ((k _).flags hb).trans (h.flags (by rw [hg]; decide))⟩
    cases hh : r.st.hung
    · rfl
    · have := (h.hung hs).2 hh
      rw [this] at hg
      cases hg
  · exact h
  · exact h

theorem busTransfer_frame (t : Transfer) (s : State) : BusFrame s (busTransfer t s).st := by
  unfold busTransfer
  split
  · exact ⟨⟨rfl, List.prefix_append _ _, id, id⟩, rfl, rfl, rfl⟩
  · exact ⟨⟨rfl, List.prefix_append _ _, id, id⟩, rfl, rfl, rfl⟩
  · exact ⟨⟨rfl, List.prefix_rfl, fun _ => rfl, id⟩, rfl, rfl, rfl⟩
  · exact ⟨⟨rfl, List.prefix_rfl, id, fun _ => rfl⟩, rfl, rfl, rfl⟩

theorem busTransfer_tells (t : Transfer) (s : State) : Ran.Tells s (busTransfer t s) := by
  unfold busTransfer
  split
  · exact ⟨by simp, by intro h; simp [h], fun _ => rfl⟩
  · exact ⟨by simp, by intro h; simp [h], fun _ => rfl⟩
  · exact ⟨fun _ => rfl, by intro h; simp [h], by simp⟩
  · exact ⟨by simp, by intro h; simp, fun _ => rfl⟩

theorem busCmds_frame (cs : List DeviceCmd) (s : State) : BusFrame s (busCmds cs s).st := by
  induction cs generalizing s with
  | nil => exact BusFrame.refl s
  | cons c cs ih => exact (busTransfer_frame _ s).andThen ih

theorem busCmds_tells (cs : List DeviceCmd) (s : State) : Ran.Tells s (busCmds cs s) := by
  induction cs generalizing s with
  | nil => exact Ran.tells_going s
  | cons c cs ih => exact (busTransfer_tells _ s).andThen ih

theorem fadeSteps_frame (n : Nat) (t : Byte) (s : State) : BusFrame s (fadeSteps n t s).st := by
  induction n generalizing s with
  | zero => exact BusFrame.refl s
  | succ n ih => exact ((BusFrame.contrast s _).trans (busTransfer_frame _ _)).andThen ih

theorem fadeSteps_tells (n : Nat) (t : Byte) (s : State) : Ran.Tells s (fadeSteps n t s) := by
  induction n generalizing s with
  | zero => exact Ran.tells_going s
  | succ n ih =>
    have h : Ran.Tells s (busCmd (.setContrast (stepToward s.contrast t)) { s with contrast := stepToward s.contrast t }) :=
      ⟨(busTransfer_tells _ _).busError, fun hs => (busTransfer_tells _ _).hung hs,
        fun hb => (busTransfer_tells _ _).flags hb⟩
    exact h.andThen ih

theorem fadeTo_frame (t : Byte) (s : State) : BusFrame s (fadeTo t s).st := fadeSteps_frame _ _ _
theorem fadeTo_tells (t : Byte) (s : State) : Ran.Tells s (fadeTo t s) := fadeSteps_tells _ _ _

/-- `UnDim()` in every case (60_exceptions.md R182): On after the whole fade, else the power state as before. -/
theorem unDim_cases (s : State) :
    OpFrame s (unDim s).st ∧ Ran.Tells s (unDim s) ∧ (unDim s).st.preDim = s.preDim ∧ (unDim s).st.timer = s.timer ∧
      (((unDim s).how = .going ∧ (unDim s).st.pstate = .on) ∨ ((unDim s).how ≠ .going ∧ (unDim s).st.pstate = s.pstate)) := by
  have hf := fadeTo_frame s.preDim s
  have ht := fadeTo_tells s.preDim s
  unfold unDim
  cases hh : (fadeTo s.preDim s).how with
  | going =>
    have e : (fadeTo s.preDim s) = going (fadeTo s.preDim s).st := by
      cases hr : fadeTo s.preDim s; rw [hr] at hh; cases hh; rfl
    have hk : OpFrame (fadeTo s.preDim s).st { (fadeTo s.preDim s).st with pstate := .on } :=
      ⟨rfl, List.prefix_rfl, id, id⟩
    rw [e, going_andThen]
    refine ⟨hf.toOpFrame.trans hk, ⟨by simp, fun hs => ?_, fun _ => ht.flags (by rw [hh]; decide)⟩, hf.preDim, hf.timer,
      .inl ⟨rfl, rfl⟩⟩
    have := ht.hung hs
    rw [hh] at this
    simpa using this
  | busError =>
    rw [Ran.andThen_of_stopped _ (by rw [hh]; decide)]
    exact ⟨hf.toOpFrame, ht, hf.preDim, hf.timer, .inr ⟨by rw [hh]; decide, hf.pstate⟩⟩
  | hung =>
    rw [Ran.andThen_of_stopped _ (by rw [hh]; decide)]
    exact ⟨hf.toOpFrame, ht, hf.preDim, hf.timer, .inr ⟨by rw [hh]; decide, hf.pstate⟩⟩

theorem Ran.eq_going {r : Ran} (h : r.how = .going) : r = going r.st := by
  cases r; cases h; rfl

/-- `Wake()` in every case (60_exceptions.md R182). -/
theorem wake_cases (s : State) :
    OpFrame s (wake s).st ∧ Ran.Tells s (wake s) ∧ (wake s).st.preDim = s.preDim ∧ (wake s).st.timer = s.timer ∧
      (((wake s).how = .going ∧ (wake s).st.pstate = .on) ∨ ((wake s).how ≠ .going ∧ (wake s).st.pstate = s.pstate)) := by
  have hf := busTransfer_frame (.cmd .displayOn) s
  have ht := busTransfer_tells (.cmd .displayOn) s
  unfold wake busCmd
  by_cases hh : (busTransfer (.cmd .displayOn) s).how = .going
  · have e := Ran.eq_going hh
    obtain ⟨h1, h2, h3, h4, h5⟩ := unDim_cases (busTransfer (.cmd .displayOn) s).st
    have ht' : Ran.Tells s ((busTransfer (.cmd .displayOn) s).andThen unDim) :=
      ht.andThen fun u => (unDim_cases u).2.1
    rw [e, going_andThen] at ht' ⊢
    rw [hf.pstate] at h5
    exact ⟨hf.toOpFrame.trans h1, ht', h3.trans hf.preDim, h4.trans hf.timer, h5⟩
  · rw [Ran.andThen_of_stopped _ hh]
    exact ⟨hf.toOpFrame, ht, hf.preDim, hf.timer, .inr ⟨hh, hf.pstate⟩⟩

/-- Restoring On in every case (60_exceptions.md R181). -/
theorem restoreOn_cases (s : State) :
    OpFrame s (restoreOn s).st ∧ Ran.Tells s (restoreOn s) ∧ (restoreOn s).st.preDim = s.preDim ∧
      (restoreOn s).st.timer = s.timer ∧
      (((restoreOn s).how = .going ∧ (s.pstate ≠ .off → (restoreOn s).st.pstate = .on)) ∨
        ((restoreOn s).how ≠ .going ∧ (restoreOn s).st.pstate = s.pstate)) := by
  unfold restoreOn
  split
  · obtain ⟨h1, h2, h3, h4, h5⟩ := unDim_cases s
    exact ⟨h1, h2, h3, h4, h5.imp (fun h => ⟨h.1, fun _ => h.2⟩) id⟩
  · obtain ⟨h1, h2, h3, h4, h5⟩ := wake_cases s
    exact ⟨h1, h2, h3, h4, h5.imp (fun h => ⟨h.1, fun _ => h.2⟩) id⟩
  · rename_i h
    exact ⟨OpFrame.refl s, Ran.tells_going s, rfl, rfl, .inl ⟨rfl, fun _ => h⟩⟩
  · rename_i h
    exact ⟨OpFrame.refl s, Ran.tells_going s, rfl, rfl, .inl ⟨rfl, fun h' => absurd h h'⟩⟩

/-- `ActivityReset()` in every case (60_exceptions.md R181): either On with the timer restarted if a threshold is
configured, or, after a bus error or a hang, power state and timer as before. -/
theorem activityReset_cases (s : State) :
    OpFrame s (activityReset s).st ∧ Ran.Tells s (activityReset s) ∧ (activityReset s).st.preDim = s.preDim ∧
      (((activityReset s).how = .going ∧ (s.pstate ≠ .off → (activityReset s).st.pstate = .on) ∧
          (activityReset s).st.timer =
            if 0 < s.cfg.dimSeconds ∨ 0 < s.cfg.sleepSeconds then .armed .dimPhase s.now else s.timer) ∨
        ((activityReset s).how ≠ .going ∧ (activityReset s).st.pstate = s.pstate ∧
          (activityReset s).st.timer = s.timer)) := by
  obtain ⟨h1, h2, h3, h4, h5⟩ := restoreOn_cases s
  unfold activityReset
  rcases h5 with ⟨hg, hp⟩ | ⟨hg, hp⟩
  · have e := Ran.eq_going hg
    have ht : Ran.Tells s ((restoreOn s).andThen fun s => going (restartTimer s)) := by
      rw [e, going_andThen]
      refine ⟨by simp, fun hs => ?_, fun _ => by rw [restartTimer_eq]; exact h2.flags (by rw [hg]; decide)⟩
      have := h2.hung hs
      rw [hg] at this
      rw [restartTimer_eq]
      simpa using this
    rw [e, going_andThen] at ht ⊢
    have hk : OpFrame (restoreOn s).st (restartTimer (restoreOn s).st) := by
      rw [restartTimer_eq]; exact ⟨rfl, List.prefix_rfl, id, id⟩
    refine ⟨h1.trans hk, ht, ?_, .inl ⟨rfl, ?_, ?_⟩⟩
    · rw [going_st, restartTimer_eq]; exact h3
    · rw [going_st, restartTimer_eq]; exact hp
    · rw [going_st, restartTimer_eq]
      dsimp only
      rw [h1.cfg, h1.now, h4]
  · rw [Ran.andThen_of_stopped _ hg]
    exact ⟨h1, h2, h3, .inr ⟨hg, hp, h4⟩⟩

/-! ## Transmission -/

theorem sendChunks_frame (n k : Nat) (s : State) : BusFrame s (sendChunks n k s).st := by
  induction n generalizing k s with
  | zero => exact BusFrame.refl s
  | succ n ih => exact (busTransfer_frame _ s).andThen fun u => ih _ u

theorem sendChunks_tells (n k : Nat) (s : State) : Ran.Tells s (sendChunks n k s) := by
  induction n generalizing k s with
  | zero => exact Ran.tells_going s
  | succ n ih => exact (busTransfer_tells _ s).andThen fun u => ih _ u

theorem transmit_frame (s : State) : BusFrame s (transmit s).st :=
  (busCmds_frame _ s).andThen fun u => sendChunks_frame _ _ u

theorem transmit_tells (s : State) : Ran.Tells s (transmit s) :=
  (busCmds_tells _ s).andThen fun u => sendChunks_tells _ _ u

/-- The transfers of `n` chunks from chunk `k` on. -/
def chunkTransfers (s : State) (n k : Nat) : List Transfer := (List.range n).map fun j => .data (s.chunk (k + j))

theorem chunkTransfers_succ (s : State) (n k : Nat) :
    chunkTransfers s (n + 1) k = .data (s.chunk k) :: chunkTransfers s n (k + 1) := by
  simp only [chunkTransfers, List.range_succ_eq_map, List.map_cons, List.map_map, Nat.add_zero, List.cons.injEq, true_and]
  apply List.map_congr_left
  intro j _
  simp only [Function.comp]
  congr 2
  omega

@[simp] theorem State.sending_chunk (s : State) (ts : List Transfer) (k : Nat) : (s.sending ts).chunk k = s.chunk k := rfl

theorem chunkTransfers_sending (s : State) (ts : List Transfer) (n k : Nat) :
    chunkTransfers (s.sending ts) n k = chunkTransfers s n k := rfl

theorem sendChunks_accepted (n k : Nat) {s : State} (h : s.Accepts n) :
    sendChunks n k s = going (s.sending (chunkTransfers s n k)) := by
  induction n generalizing k s with
  | zero => simp [sendChunks, chunkTransfers]
  | succ n ih =>
    rw [Nat.add_comm] at h
    obtain ⟨h1, h2⟩ := State.accepts_add.1 h
    unfold sendChunks
    rw [busData, busTransfer_accepted _ h1, going_andThen, ih _ h2, chunkTransfers_succ, chunkTransfers_sending,
      State.sending_sending]
    rfl

theorem maxPage_eq (c : Config) : maxPage c = if c.rows > 32 then 7 else 3 := by
  unfold maxPage pageCount; split <;> rfl

theorem frameTransfers_eq (s : State) :
    frameTransfers s =
      [.cmd (.setColumnAddress 0 (s.cfg.columns - 1)), .cmd (.setPageRange 0 (maxPage s.cfg))]
        ++ chunkTransfers s (fbLen s.cfg / 16) 0 := by
  unfold frameTransfers chunkTransfers State.chunk
  rw [maxPage_eq]
  simp only [Nat.zero_add]

theorem frameTransfers_length (s : State) : (frameTransfers s).length = 2 + fbLen s.cfg / 16 := by
  simp [frameTransfers]; omega

/-- One frame to an accepting device (44_transmission.md R152). -/
theorem transmit_accepted {s : State} (h : s.Accepts (2 + fbLen s.cfg / 16)) :
    transmit s = going (s.sending (frameTransfers s)) := by
  obtain ⟨h1, h2⟩ := State.accepts_add.1 h
  unfold transmit
  rw [busCmds_accepted _ h1, going_andThen, sendChunks_accepted _ _ h2, frameTransfers_eq, ← State.sending_sending]
  rfl

end Sys2Proof.Machine
end

