-- ==== Sys2Proof/Laws/Refused.lean ====
section
/-! SUPPORT. What the shared bus operations do when the device refuses a transfer (spec/60_exceptions.md R187): the first
transfers are made, the refused one and all later ones are not. -/

namespace Sys2Proof.Machine

@[simp] theorem State.refusedAt_cfg (s : State) (ts : List Transfer) (k : Nat) (rest : List BusAnswer) :
    (s.refusedAt ts k rest).cfg = s.cfg := rfl

theorem State.refusesAfter_zero {s : State} {rest : List BusAnswer} :
    s.RefusesAfter 0 rest ↔ s.device = .refuse :: rest := by simp [State.RefusesAfter]

theorem State.refusesAfter_succ {s : State} {k : Nat} {rest : List BusAnswer} :
    s.RefusesAfter (k + 1) rest ↔ s.device = .accept :: (List.replicate k .accept ++ .refuse :: rest) := by
  simp [State.RefusesAfter, List.replicate_succ]

/-- A refusal after `n + k` transfers: the first `n` are accepted. -/
theorem State.RefusesAfter.accepts {s : State} {n k : Nat} {rest : List BusAnswer} (h : s.RefusesAfter (n + k) rest) :
    s.Accepts n := by
  intro a ha
  rw [h, List.replicate_add, List.append_assoc, List.take_append_of_le_length (by simp)] at ha
  exact List.eq_of_mem_replicate (List.mem_of_mem_take ha)

/-- After `ts` was sent, the refusal is that many transfers nearer. -/
theorem State.RefusesAfter.sending {s : State} {k : Nat} {ts : List Transfer} {rest : List BusAnswer}
    (h : s.RefusesAfter (ts.length + k) rest) : (s.sending ts).RefusesAfter k rest := by
  unfold State.RefusesAfter
  rw [State.sending_device, h, List.replicate_add, List.append_assoc]
  exact List.drop_left' (by simp)

theorem busTransfer_refused_zero {s : State} (t : Transfer) {rest : List BusAnswer} (h : s.RefusesAfter 0 rest)
    (ts : List Transfer) : busTransfer t s = { st := s.refusedAt (t :: ts) 0 rest, how := .busError } := by
  rw [busTransfer_refused t (State.refusesAfter_zero.1 h)]
  simp [State.refusedAt]

theorem State.sending_refusedAt (s : State) (t : Transfer) (ts : List Transfer) (k : Nat) (rest : List BusAnswer) :
    (s.sending [t]).refusedAt ts k rest = s.refusedAt (t :: ts) (k + 1) rest := by
  simp [State.refusedAt, State.sending, State.noteBusErr]

theorem State.sending_refusedAt_append (s : State) (us ts : List Transfer) (k : Nat) (rest : List BusAnswer) :
    (s.sending us).refusedAt ts k rest = s.refusedAt (us ++ ts) (us.length + k) rest := by
  simp [State.refusedAt, State.sending, State.noteBusErr, List.take_append]

/-- `for t in ts: BusCmd(t)` refused. -/
theorem busCmds_refused (cs : List DeviceCmd) {s : State} {k : Nat} {rest : List BusAnswer} (hk : k < cs.length)
    (h : s.RefusesAfter k rest) : busCmds cs s = { st := s.refusedAt (cs.map .cmd) k rest, how := .busError } := by
  induction cs generalizing s k with
  | nil => simp at hk
  | cons c cs ih =>
    cases k with
    | zero =>
      rw [busCmds, busCmd, busTransfer_refused_zero _ h (cs.map .cmd), Ran.andThen_of_stopped _ (by simp)]
      rfl
    | succ k =>
      have h' : s.RefusesAfter ([Transfer.cmd c].length + k) rest := by
        rw [Nat.add_comm] at h; exact h
      rw [busCmds, busCmd, busTransfer_accepted _ h'.accepts, going_andThen, ih (by simpa using hk) h'.sending,
        State.sending_refusedAt]
      rfl

theorem sendChunks_refused (n j : Nat) {s : State} {k : Nat} {rest : List BusAnswer} (hk : k < n)
    (h : s.RefusesAfter k rest) :
    sendChunks n j s = { st := s.refusedAt (chunkTransfers s n j) k rest, how := .busError } := by
  induction n generalizing s k j with
  | zero => simp at hk
  | succ n ih =>
    rw [chunkTransfers_succ]
    cases k with
    | zero =>
      rw [sendChunks, busData, busTransfer_refused_zero _ h (chunkTransfers s n (j + 1)), Ran.andThen_of_stopped _ (by simp)]
    | succ k =>
      have h' : s.RefusesAfter ([Transfer.data (s.chunk j)].length + k) rest := by
        rw [Nat.add_comm] at h; exact h
      rw [sendChunks, busData, busTransfer_accepted _ h'.accepts, going_andThen, ih _ (by omega) h'.sending,
        chunkTransfers_sending, State.sending_refusedAt]

/-- One frame refused (44_transmission.md R152): a prefix of its transfers was made. -/
theorem transmit_refused {s : State} {k : Nat} {rest : List BusAnswer} (hk : k < (frameTransfers s).length)
    (h : s.RefusesAfter k rest) : transmit s = { st := s.refusedAt (frameTransfers s) k rest, how := .busError } := by
  rw [frameTransfers_length] at hk
  rw [frameTransfers_eq]
  unfold transmit
  by_cases h2 : k < 2
  · rw [busCmds_refused _ (by simpa using h2) h, Ran.andThen_of_stopped _ (by simp)]
    have ht : ∀ us : List Transfer, s.refusedAt
        ([.cmd (.setColumnAddress 0 (s.cfg.columns - 1)), .cmd (.setPageRange 0 (maxPage s.cfg))] ++ us) k rest =
        s.refusedAt [.cmd (.setColumnAddress 0 (s.cfg.columns - 1)), .cmd (.setPageRange 0 (maxPage s.cfg))] k rest := by
      intro us
      unfold State.refusedAt
      rw [List.take_append_of_le_length (by simp; omega)]
    rw [ht]
    rfl
  · obtain ⟨j, rfl⟩ := Nat.exists_eq_add_of_le (Nat.le_of_not_lt h2)
    have h' : s.RefusesAfter
        (([.cmd (.setColumnAddress 0 (s.cfg.columns - 1)), .cmd (.setPageRange 0 (maxPage s.cfg))] : List Transfer).length
          + j) rest := h
    rw [busCmds_accepted _ h'.accepts, going_andThen]
    simp only [List.map_cons, List.map_nil]
    rw [sendChunks_refused _ _ (by show j < fbLen s.cfg / 16; omega) h'.sending, chunkTransfers_sending,
      State.sending_refusedAt_append]
    rfl

theorem fadeValue_zero {c t : Byte} : fadeValue c t 0 = stepToward c t := by
  unfold fadeValue stepToward; simp

theorem fadeValue_step {c t : Byte} (h : c ≠ t) {k : Nat} (hk : k < (fadeTransfers (stepToward c t) t).length) :
    fadeValue (stepToward c t) t k = fadeValue c t (k + 1) := by
  have e := fadeTransfers_step h
  have l : k + 1 < (fadeTransfers c t).length := by rw [e]; simpa using hk
  have g : ∀ (a b : Byte) (j : Nat) (hj : j < (fadeTransfers a b).length),
      (fadeTransfers a b)[j] = .cmd (.setContrast (fadeValue a b j)) := by
    intro a b j hj; simp [fadeTransfers]
  have h1 := g _ _ _ l
  have h2 := g _ _ _ hk
  have h3 : (fadeTransfers c t)[k + 1] = (fadeTransfers (stepToward c t) t)[k] := by
    simp only [e, List.getElem_cons_succ]
  rw [h1, h2] at h3
  injection h3 with h3
  injection h3 with h3
  exact h3.symm

/-- The fade refused (R157): `contrast` holds the value that was refused. -/
theorem fadeTo_refused (t : Byte) {s : State} {k : Nat} {rest : List BusAnswer}
    (hk : k < (fadeTransfers s.contrast t).length) (h : s.RefusesAfter k rest) :
    fadeTo t s = { st := State.refusedAt { s with contrast := fadeValue s.contrast t k } (fadeTransfers s.contrast t) k rest,
                   how := .busError } := by
  unfold fadeTo
  generalize hn : fadeDelta s.contrast t = n
  induction n generalizing s k with
  | zero =>
    rw [fadeDelta_eq_zero hn] at hk
    simp at hk
  | succ n ih =>
    have hne : s.contrast ≠ t := by
      intro e
      rw [e, fadeDelta_self] at hn
      omega
    have hstep := fadeDelta_stepToward hne
    have hk' := hk
    rw [fadeTransfers_step hne] at hk ⊢
    simp only [fadeSteps, busCmd]
    cases k with
    | zero =>
      have h0 : State.RefusesAfter { s with contrast := stepToward s.contrast t } 0 rest := h
      rw [busTransfer_refused_zero _ h0 (fadeTransfers (stepToward s.contrast t) t), Ran.andThen_of_stopped _ (by simp),
        fadeValue_zero]
    | succ k =>
      have h' : State.RefusesAfter { s with contrast := stepToward s.contrast t }
          ([Transfer.cmd (.setContrast (stepToward s.contrast t))].length + k) rest := by
        rw [Nat.add_comm] at h; exact h
      have hk2 : k < (fadeTransfers (stepToward s.contrast t) t).length := by simpa using hk
      rw [busTransfer_accepted _ h'.accepts, going_andThen, ih]
      · simp only [State.sending_contrast]
        rw [fadeValue_step hne hk2]
        simp [State.refusedAt, State.sending, State.noteBusErr]
      · exact hk2
      · exact h'.sending
      · show fadeDelta (stepToward s.contrast t) t = n
        omega

end Sys2Proof.Machine
end

