-- ==== Sys2Proof/Laws/Exec.lean ====
section
/-! SUPPORT. What a command can do when it answers a next state, said once for all 23 (spec/45_system.md R165,
spec/60_exceptions.md R187), and what a timer transition can do. -/

namespace Sys2Proof.Machine

/-! ## The frame of an operation -/

theorem guarded_next {s t : State} {k : State → State} : guarded s k = .next t ↔ s.Usable ∧ k s = t := by
  unfold guarded State.Usable
  cases admitted s.cfg <;> cases s.hung <;> simp

theorem guarded_usable {s : State} (k : State → State) (h : s.Usable) : guarded s k = .next (k s) :=
  guarded_next.2 ⟨h, rfl⟩

/-- A command whose `Admit()` ends it. -/
theorem runCommand_ended {a : Admission} {st : Status} (body : State → State) {s : State} (h : s.Usable)
    (ha : admitStatus a s = some st) : runCommand a body s = .next (s.complete st 0) := by
  unfold runCommand
  rw [guarded_usable _ h, ha]

/-- A command that is admitted. -/
theorem runCommand_admitted {a : Admission} (body : State → State) {s : State} (h : s.Usable)
    (ha : admitStatus a s = none) : runCommand a body s = .next (body s) := by
  unfold runCommand
  rw [guarded_usable _ h, ha]

theorem runCommand_next {a : Admission} {body : State → State} {s t : State} (h : runCommand a body s = .next t) :
    s.Usable ∧ ((∃ st, admitStatus a s = some st ∧ t = s.complete st 0) ∨ (admitStatus a s = none ∧ t = body s)) := by
  unfold runCommand at h
  obtain ⟨h1, h2⟩ := guarded_next.1 h
  refine ⟨h1, ?_⟩
  cases ha : admitStatus a s with
  | some st => rw [ha] at h2; exact .inl ⟨st, rfl, h2.symm⟩
  | none => rw [ha] at h2; exact .inr ⟨rfl, h2.symm⟩

theorem admitStatus_running {s : State} (h : s.Ready) : admitStatus .whenRunning s = none := by
  simp [admitStatus, h.2.1, h.2.2]

theorem runCommand_ready (body : State → State) {s : State} (h : s.Ready) :
    runCommand .whenRunning body s = .next (body s) :=
  runCommand_admitted body h.1 (admitStatus_running h)

theorem admitStatus_none_running {s : State} (h : admitStatus .whenRunning s = none) :
    s.flags.fatal = false ∧ s.pstate ≠ .off := by
  unfold admitStatus at h
  cases hf : s.flags.fatal <;> simp_all

/-- A rasterizer command with an accepting device (41_rasterizer_lines_rects.md R100). -/
theorem drawing_accepted {s : State} (pts : List Point) (h : s.Ready) (ha : s.Accepts (wakeTransfers s).length) :
    drawing pts s = .next ((s.afterActivity.plotAll pts).complete .ok 0) := by
  unfold drawing
  rw [runCommand_ready _ h, activityReset_accepted h.2.2 ha]
  rfl

/-- Everything `drawing` does on an accepting device. -/
theorem draws_of_mem {i : Instr} {pts : List Point} (hi : ∀ s, exec i s = drawing pts s) {S : Int → Int → Prop}
    (hS : ∀ x y, (x, y) ∈ pts ↔ S x y) : Draws i S := by
  intro s h ha
  refine ⟨(s.afterActivity.plotAll pts).fb, ?_, ?_⟩
  · rw [hi, drawing_accepted pts h ha]
    conv_lhs => rw [State.plotAll_eq]
  · have hd := (s.afterActivity.plotAll_drawn pts).congr hS
    obtain ⟨h1, h2⟩ := hd
    have e : ∀ a, State.readByte { s with fb := (s.afterActivity.plotAll pts).fb } a = (s.afterActivity.plotAll pts).readByte a := by
      intro a
      rw [State.plotAll_eq s.afterActivity]; rfl
    refine ⟨fun x y hp => ?_, fun a ha => ?_⟩
    · have := h1 x y hp
      unfold State.pixel at this ⊢
      simp only [State.plotAll_cfg, e] at this ⊢
      exact this
    · rw [e]
      exact h2 a ha

/-- Which admission a command asks for (45_system.md R165). -/
def admissionOf : Instr → Admission
  | .rdReg .. => .always
  | .init => .whenOff
  | .setPixel .. | .getPixel .. | .clearBuffer | .clearScreen | .rdByte .. | .hLine .. | .vLine .. | .line .. => .whenRunning
  | .rect .. | .square .. | .fillRect .. | .fillSquare .. | .circle .. | .fillCircle .. | .tri .. => .whenRunning
  | .triBox .. | .fillTri .. | .sendBuffer | .displayImage | .setContrast .. | .release => .whenRunning

/-- Every command runs in the one frame. -/
theorem exec_runs (i : Instr) : ∃ body, ∀ s, exec i s = runCommand (admissionOf i) body s := by
  cases i <;> exact ⟨_, fun _ => rfl⟩

/-! ## What a command can change -/

/-- What no command changes. -/
structure Kept (s t : State) : Prop where
  cfg : t.cfg = s.cfg
  preDim : t.preDim = s.preDim
  fatal : t.flags.fatal = s.flags.fatal
  illegalSeen : t.flags.illegalSeen = s.flags.illegalSeen
  faultX : t.faultX = s.faultX
  faultY : t.faultY = s.faultY
  inputs : t.inputs = s.inputs
  canvas : t.canvas = s.canvas
  now : t.now = s.now
  epoch : t.epoch = s.epoch

theorem Kept.refl (s : State) : Kept s s := ⟨rfl, rfl, rfl, rfl, rfl, rfl, rfl, rfl, rfl, rfl⟩

theorem Kept.trans {s t u : State} (h : Kept s t) (k : Kept t u) : Kept s u :=
  ⟨k.cfg.trans h.cfg, k.preDim.trans h.preDim, k.fatal.trans h.fatal, k.illegalSeen.trans h.illegalSeen,
    k.faultX.trans h.faultX, k.faultY.trans h.faultY, k.inputs.trans h.inputs, k.canvas.trans h.canvas,
    k.now.trans h.now, k.epoch.trans h.epoch⟩

theorem Kept.complete (s : State) (st : Status) (d : Half) : Kept s (s.complete st d) :=
  ⟨rfl, rfl, rfl, rfl, rfl, rfl, rfl, rfl, rfl, rfl⟩

theorem OpFrame.kept {s t : State} (h : OpFrame s t) (hd : t.preDim = s.preDim) : Kept s t :=
  ⟨h.cfg, hd, h.fatal, h.illegalSeen, h.faultX, h.faultY, h.inputs, h.canvas, h.now, h.epoch⟩

/-- All that a command can do to the state when it answers a next state. -/
structure Summary (s t : State) : Prop where
  kept : Kept s t
  trace : s.trace <+: t.trace
  busErr : s.flags.busErrSeen = true → t.flags.busErrSeen = true
  completes : (t.hung = false ∧ ∃ c : Completion, t.completions = s.completions ++ [c] ∧ c.status ≠ .illegal ∧
      (c.status = .busErr → t.flags.busErrSeen = true) ∧ (c.status ≠ .busErr → t.flags = s.flags) ∧
      (c.status ≠ .ok → c.data = 0)) ∨
    (t.hung = true ∧ t.completions = s.completions ∧ t.flags = s.flags)
  mem : s.MemInv → t.MemInv
  power : s.PowerInv → t.PowerInv

theorem State.PowerInv.congr {s t : State} (h : s.PowerInv) (hp : t.pstate = s.pstate) (ht : t.timer = s.timer)
    (hc : t.cfg = s.cfg) : t.PowerInv := by
  obtain ⟨h1, h2, h3, h4, h5⟩ := h
  constructor
  · rw [hp, ht]; exact h1
  · rw [hp, ht]; exact h2
  · rw [hp, ht, hc]; exact h3
  · rw [hp, ht]; exact h4
  · rw [ht, hc]; exact h5

theorem State.MemInv.congr {s t : State} (h : s.MemInv) (hf : t.fb = s.fb) (hc : t.cfg = s.cfg) : t.MemInv := by
  unfold State.MemInv; rw [hf, hc]; exact h

/-- A command that ends at once. -/
theorem Summary.complete {s : State} (h : s.hung = false) {st : Status} (hst : st ≠ .illegal ∧ st ≠ .busErr) {d : Half}
    (hd : st ≠ .ok → d = 0) : Summary s (s.complete st d) := by
  refine ⟨Kept.complete s st d, List.prefix_rfl, id, .inl ⟨h, ⟨st, d⟩, rfl, hst.1, fun e => absurd e hst.2, fun _ => rfl, hd⟩, ?_, ?_⟩
  · exact fun k => k.congr rfl rfl
  · exact fun k => k.congr rfl rfl rfl

/-- A command that writes the frame buffer and nothing else. -/
theorem Summary.completeWrite {s u : State} (h : s.hung = false) (hu : u = { s with fb := u.fb })
    (hm : s.MemInv → u.MemInv) : Summary s (u.complete .ok 0) := by
  have e : u.complete .ok 0 = State.complete { s with fb := u.fb } .ok 0 := by rw [← hu]
  rw [e]
  refine ⟨⟨rfl, rfl, rfl, rfl, rfl, rfl, rfl, rfl, rfl, rfl⟩, List.prefix_rfl, id, .inl ⟨h, ⟨.ok, 0⟩, rfl, by decide, (fun k => by cases k), fun _ => rfl, fun _ => rfl⟩, ?_, ?_⟩
  · intro k
    have := hm k
    rw [hu] at this
    exact this.congr rfl rfl
  · exact fun k => k.congr rfl rfl rfl

/-- The end of a command that used the bus, from what its body left. -/
theorem Summary.finish {s : State} {r : Ran} (hs : s.hung = false) (hf : Kept s r.st)
    (hc : r.st.completions = s.completions)
    (htr : s.trace <+: r.st.trace) (hb : s.flags.busErrSeen = true → r.st.flags.busErrSeen = true) (ht : Ran.Tells s r)
    (hm : s.MemInv → r.st.MemInv) (hp : s.PowerInv → r.st.PowerInv) : Summary s r.finish := by
  have hh := ht.hung hs
  have hn : r.how ≠ .hung → r.st.hung = false := by
    intro e
    cases hx : r.st.hung
    · rfl
    · exact absurd (hh.2 hx) e
  unfold Ran.finish
  split
  · rename_i e
    refine ⟨hf.trans (Kept.complete _ _ _), htr, hb,
      .inl ⟨hn (by rw [e]; decide), ⟨.ok, 0⟩, by simp [hc], by decide, (fun k => by cases k),
        fun _ => ht.flags (by rw [e]; decide), fun _ => rfl⟩, ?_, ?_⟩
    · exact fun k => (hm k).congr rfl rfl
    · exact fun k => (hp k).congr rfl rfl rfl
  · rename_i e
    refine ⟨hf.trans (Kept.complete _ _ _), htr, hb,
      .inl ⟨hn (by rw [e]; decide), ⟨.busErr, 0⟩, by simp [hc], by decide, fun _ => ht.busError e, fun k => absurd rfl k,
        fun _ => rfl⟩, ?_, ?_⟩
    · exact fun k => (hm k).congr rfl rfl
    · exact fun k => (hp k).congr rfl rfl rfl
  · rename_i e
    exact ⟨hf, htr, hb, .inr ⟨hh.1 e, hc, ht.flags (by rw [e]; decide)⟩, hm, hp⟩

/-! ## Power -/

/-- On, with the timer as the activity reset leaves it, is a legal power state. -/
theorem powerInv_on {s t : State} (hc : admitted s.cfg = true) (hcfg : t.cfg = s.cfg) (hp : t.pstate = .on)
    (ht : t.timer = if 0 < s.cfg.dimSeconds ∨ 0 < s.cfg.sleepSeconds then .armed .dimPhase s.now else s.timer)
    (hoff : ¬ (0 < s.cfg.dimSeconds ∨ 0 < s.cfg.sleepSeconds) → s.timer = .stopped) : t.PowerInv := by
  have hd : 0 < s.cfg.dimSeconds ∨ 0 < s.cfg.sleepSeconds → 0 < s.cfg.dimSeconds := by
    simp only [admitted, Bool.and_eq_true, decide_eq_true_eq] at hc
    omega
  by_cases hx : 0 < s.cfg.dimSeconds ∨ 0 < s.cfg.sleepSeconds
  · rw [if_pos hx] at ht
    constructor <;> simp only [hp, ht, hcfg] <;> simp
    exact hd hx
  · rw [if_neg hx, hoff hx] at ht
    constructor <;> simp [hp, ht]

/-- With no threshold configured a legal timer is stopped. -/
theorem State.PowerInv.stopped_of_unconfigured {s : State} (h : s.PowerInv)
    (hx : ¬ (0 < s.cfg.dimSeconds ∨ 0 < s.cfg.sleepSeconds)) : s.timer = .stopped := by
  cases ht : s.timer with
  | stopped => rfl
  | armed p t => exact absurd (.inl (h.armed_configured p t ht)) hx

theorem activityReset_power {s : State} (hc : admitted s.cfg = true) (hp : s.pstate ≠ .off) (h : s.PowerInv) :
    (activityReset s).st.PowerInv := by
  obtain ⟨hf, -, -, ⟨-, h1, h2⟩ | ⟨-, h1, h2⟩⟩ := activityReset_cases s
  · exact powerInv_on hc hf.cfg (h1 hp) h2 h.stopped_of_unconfigured
  · exact h.congr h1 h2 hf.cfg

/-- What follows the activity reset in an activity command: a write to the frame buffer, then transfers. -/
structure Tail (f : State → Ran) : Prop where
  write : ∀ s, ∃ fb, BusFrame { s with fb := fb } (f s).st
  tells : ∀ s, Ran.Tells s (f s)
  mem : ∀ s, s.MemInv → (f s).st.MemInv

theorem Summary.activity {s : State} {f : State → Ran} (h : s.Usable) (hp : s.pstate ≠ .off) (hf : Tail f) :
    Summary s ((activityReset s).andThen f).finish := by
  obtain ⟨h1, h2, h3, h4⟩ := activityReset_cases s
  have hpow := activityReset_power h.1 hp
  have htell : Ran.Tells s ((activityReset s).andThen f) := h2.andThen hf.tells
  have he := h1.kept h3
  by_cases hg : (activityReset s).how = .going
  · have eg := Ran.eq_going hg
    rw [eg, going_andThen] at htell ⊢
    obtain ⟨fb, hw⟩ := hf.write (activityReset s).st
    have hk : Kept (activityReset s).st { (activityReset s).st with fb := fb } :=
      ⟨rfl, rfl, rfl, rfl, rfl, rfl, rfl, rfl, rfl, rfl⟩
    exact Summary.finish h.2 (he.trans (hk.trans (hw.kept hw.preDim))) (hw.completions.trans h1.completions)
      (h1.trace.trans hw.trace) (fun k => hw.busErr (h1.busErr k)) htell
      (fun k => hf.mem _ (k.congr h1.fb h1.cfg)) (fun k => (hpow k).congr hw.pstate hw.timer hw.cfg)
  · rw [Ran.andThen_of_stopped _ hg] at htell ⊢
    exact Summary.finish h.2 he h1.completions h1.trace h1.busErr htell (fun k => k.congr h1.fb h1.cfg) hpow

theorem tail_transmit {g : State → State} (hg : ∀ s, g s = { s with fb := (g s).fb })
    (hm : ∀ s, s.MemInv → (g s).MemInv) : Tail fun s => transmit (g s) := by
  refine ⟨fun s => ⟨(g s).fb, ?_⟩, fun s => ?_, fun s h => ?_⟩
  · rw [← hg s]; exact transmit_frame _
  · have ht := transmit_tells (g s)
    refine ⟨ht.busError, fun hs => ht.hung ?_, fun hb => (ht.flags hb).trans (by rw [hg s])⟩
    rw [hg s]; exact hs
  · exact (hm s h).congr (transmit_frame _).fb (transmit_frame _).cfg

theorem tail_plot (pts : List Point) : Tail fun s => going (s.plotAll pts) := by
  refine ⟨fun s => ⟨(s.plotAll pts).fb, ?_⟩, fun s => ⟨by simp, fun hs => ?_, fun _ => by rw [going_st, State.plotAll_eq]⟩,
    fun s h => s.memInv_plotAll pts h⟩
  · rw [← State.plotAll_eq]; exact BusFrame.refl _
  · rw [State.plotAll_eq]; simp [hs]

theorem memInv_sweep (s : State) (f : Nat → Byte) (h : s.MemInv) : (s.sweepBytes f).MemInv :=
  ⟨Memory.wf_sweep _ _ _ h.1, Memory.within_sweep _ _ _ h.2⟩

/-- `Admit()` ends a command with FATAL or BADSTATE only (45_system.md R165). -/
theorem admitStatus_cases {a : Admission} {s : State} {st : Status} (h : admitStatus a s = some st) :
    st = .fatal ∨ st = .badState := by
  unfold admitStatus at h
  cases a <;> dsimp only at h
  · cases h
  · split at h
    · exact .inl (Option.some.inj h).symm
    · split at h
      · cases h
      · exact .inr (Option.some.inj h).symm
  · split at h
    · exact .inl (Option.some.inj h).symm
    · split at h
      · exact .inr (Option.some.inj h).symm
      · cases h

/-- From the body of a command to the command. -/
theorem Summary.command {a : Admission} {body : State → State} {s t : State} (h : runCommand a body s = .next t)
    (hb : s.Usable → admitStatus a s = none → Summary s (body s)) : Summary s t := by
  obtain ⟨hu, ⟨st, ha, rfl⟩ | ⟨ha, rfl⟩⟩ := runCommand_next h
  · refine Summary.complete hu.2 ?_ fun _ => rfl
    rcases admitStatus_cases ha with rfl | rfl <;> decide
  · exact hb hu ha

theorem summary_drawing {pts : List Point} {s t : State} (h : drawing pts s = .next t) : Summary s t :=
  Summary.command h fun hu ha => Summary.activity hu (admitStatus_none_running ha).2 (tail_plot pts)

/-- What any command did that answered a next state. -/
theorem summary_exec {i : Instr} {s t : State} (h : exec i s = .next t) : Summary s t := by
  cases i
  case setPixel x y on =>
    change execSetPixel x y on s = _ at h
    unfold execSetPixel at h
    refine Summary.command h fun hu _ => Summary.completeWrite hu.2 (State.setPixel_eq s x y on) (s.memInv_setPixel x y on)
  case getPixel x y =>
    change execGetPixel x y s = _ at h
    unfold execGetPixel at h
    refine Summary.command h fun hu _ => ?_
    split <;> exact Summary.complete hu.2 (by decide) (by first | exact fun _ => rfl | exact fun k => absurd rfl k)
  case clearBuffer =>
    change execClearBuffer s = _ at h
    unfold execClearBuffer at h
    exact Summary.command h fun hu _ => Summary.completeWrite hu.2 rfl (memInv_sweep s _)
  case clearScreen =>
    change execClearScreen s = _ at h
    unfold execClearScreen at h
    exact Summary.command h fun hu ha => Summary.activity hu (admitStatus_none_running ha).2
      (tail_transmit (fun _ => rfl) fun s => memInv_sweep s _)
  case rdByte idx =>
    change execRdByte idx s = _ at h
    unfold execRdByte at h
    refine Summary.command h fun hu _ => ?_
    split <;> exact Summary.complete hu.2 (by decide) (by first | exact fun _ => rfl | exact fun k => absurd rfl k)
  case sendBuffer =>
    change execSendBuffer s = _ at h
    unfold execSendBuffer at h
    exact Summary.command h fun hu ha => Summary.activity hu (admitStatus_none_running ha).2
      (tail_transmit (g := id) (fun _ => rfl) fun s h => h)
  case displayImage =>
    change execDisplayImage s = _ at h
    unfold execDisplayImage at h
    exact Summary.command h fun hu ha => Summary.activity hu (admitStatus_none_running ha).2
      (tail_transmit (fun _ => rfl) fun s => memInv_sweep s _)
  case setContrast pct =>
    change execSetContrast pct s = _ at h
    unfold execSetContrast at h
    refine Summary.command h fun hu _ => ?_
    have hf := fadeTo_frame (target s.cfg (clampPercent pct)) s
    exact Summary.finish hu.2 (hf.kept hf.preDim) hf.completions hf.trace hf.busErr (fadeTo_tells _ _)
      (fun k => k.congr hf.fb hf.cfg) (fun k => k.congr hf.pstate hf.timer hf.cfg)
  case init =>
    change execInit s = _ at h
    unfold execInit at h
    refine Summary.command h fun hu ha => ?_
    have hf := busCmds_frame s.cfg.initSeq s
    have ht := busCmds_tells s.cfg.initSeq s
    by_cases hg : (busCmds s.cfg.initSeq s).how = .going
    · have e := Ran.eq_going hg
      have hn : (busCmds s.cfg.initSeq s).st.hung = false := by
        have := ht.hung hu.2
        rw [hg] at this
        cases hx : (busCmds s.cfg.initSeq s).st.hung
        · rfl
        · exact absurd (this.2 hx) (by decide)
      rw [e, going_andThen, restartTimer_eq]
      refine Summary.finish hu.2 ((hf.kept hf.preDim).trans ⟨rfl, rfl, rfl, rfl, rfl, rfl, rfl, rfl, rfl, rfl⟩)
        hf.completions hf.trace hf.busErr ⟨by simp, fun _ => by simp [hn], fun _ => ht.flags (by rw [hg]; decide)⟩ (fun k => k.congr hf.fb hf.cfg) fun k => ?_
      refine powerInv_on (s := s) hu.1 hf.cfg rfl ?_ k.stopped_of_unconfigured
      simp only [going_st, hf.cfg, hf.now, hf.timer]
    · rw [Ran.andThen_of_stopped _ hg]
      exact Summary.finish hu.2 (hf.kept hf.preDim) hf.completions hf.trace hf.busErr ht
        (fun k => k.congr hf.fb hf.cfg) (fun k => k.congr hf.pstate hf.timer hf.cfg)
  case release =>
    change execRelease s = _ at h
    unfold execRelease at h
    refine Summary.command h fun hu _ => ?_
    refine ⟨⟨rfl, rfl, rfl, rfl, rfl, rfl, rfl, rfl, rfl, rfl⟩, List.prefix_rfl, id,
      .inl ⟨hu.2, ⟨.ok, 0⟩, rfl, by decide, (fun k => by cases k), fun _ => rfl, fun _ => rfl⟩, fun k => k.congr rfl rfl, fun k => ?_⟩
    constructor <;> simp
  case rdReg n =>
    change execRdReg n s = _ at h
    unfold execRdReg at h
    refine Summary.command h fun hu _ => ?_
    split <;> exact Summary.complete hu.2 (by decide) (by first | exact fun _ => rfl | exact fun k => absurd rfl k)
  all_goals exact summary_drawing h

/-! ## The timer transition -/

/-- All that a timer transition can do (60_exceptions.md R183, R186): it touches neither the frame buffer nor the
completions. -/
theorem idleFire_frame (s : State) : OpFrame s (idleFire s).st := by
  have h0 : OpFrame s (s.setTimer .stopped) := ⟨rfl, List.prefix_rfl, id, id⟩
  unfold idleFire
  dsimp only
  split
  · exact h0
  · split
    · have h1 : OpFrame s { s.setTimer .stopped with preDim := (s.setTimer .stopped).contrast } :=
        ⟨rfl, List.prefix_rfl, id, id⟩
      have h2 := h1.trans (fadeTo_frame 0 { s.setTimer .stopped with preDim := (s.setTimer .stopped).contrast }).toOpFrame
      unfold Ran.andThen
      split
      · exact h2.trans ⟨rfl, List.prefix_rfl, id, id⟩
      · exact h2
      · exact h2
    · have h2 := h0.trans (busTransfer_frame (.cmd .displayOff) (s.setTimer .stopped)).toOpFrame
      unfold busCmd Ran.andThen
      split
      · exact h2.trans ⟨rfl, List.prefix_rfl, id, id⟩
      · exact h2
      · exact h2
    · exact h0
    · exact h0

/-- A timer transition from a legal power state leaves a legal one, also when the device refuses or never answers. -/
theorem idleFire_power {s : State} (h : s.PowerInv) (ha : s.timer ≠ .stopped) : (idleFire s).st.PowerInv := by
  have hd : 0 < s.cfg.dimSeconds := by
    cases ht : s.timer with
    | stopped => exact absurd ht ha
    | armed p t => exact h.armed_configured p t ht
  have stop : ∀ u : State, u.timer = .stopped → u.PowerInv := by
    intro u hu
    constructor <;> simp [hu]
  have dim : ∀ u : State, u.cfg = s.cfg → State.PowerInv { u with
      pstate := .dim, timer := if u.cfg.sleepSeconds > 0 then .armed .sleepPhase u.now else .stopped } := by
    intro u hu
    by_cases hs : s.cfg.sleepSeconds > 0
    · constructor <;> simp [hu, hd, hs]
    · refine stop _ ?_
      simp [hu, hs]
  unfold idleFire
  dsimp only
  split
  · exact stop _ rfl
  · split
    · have h2 := fadeTo_frame 0 { s.setTimer .stopped with preDim := (s.setTimer .stopped).contrast }
      unfold Ran.andThen
      split
      · exact dim _ h2.cfg
      · exact stop _ h2.timer
      · exact stop _ h2.timer
    · have h2 := busTransfer_frame (.cmd .displayOff) (s.setTimer .stopped)
      unfold busCmd Ran.andThen
      split
      · exact stop _ rfl
      · exact stop _ h2.timer
      · exact stop _ h2.timer
    · exact stop _ rfl
    · exact stop _ rfl

end Sys2Proof.Machine
end

