-- ==== Sys2Proof/Laws/Bus.lean ====
section
/-! SUPPORT. A bus procedure that went on met an accepting device, so its closed form holds; and which procedures send
device commands only (spec/20_memory.md R64). -/

namespace Sys2Proof.Machine

/-! ## A procedure that went on was accepted -/

theorem accepts_of_busTransfer {t : Transfer} {s : State} (h : (busTransfer t s).how = .going) : s.Accepts 1 := by
  unfold busTransfer at h
  intro a ha
  cases hd : s.device with
  | nil => simp [hd] at ha
  | cons b rest =>
    rw [hd] at h ha
    have : a = b := by simpa using ha
    subst this
    cases a
    · rfl
    · cases h
    · cases h

theorem Ran.going_of_andThen {r : Ran} {f : State → Ran} (h : (r.andThen f).how = .going) :
    r.how = .going ∧ (f r.st).how = .going := by
  by_cases hr : r.how = .going
  · refine ⟨hr, ?_⟩
    rw [Ran.eq_going hr] at h
    exact h
  · rw [Ran.andThen_of_stopped _ hr] at h
    exact ⟨h, absurd h hr⟩

theorem accepts_of_fadeTo {t : Byte} {s : State} (h : (fadeTo t s).how = .going) :
    s.Accepts (fadeTransfers s.contrast t).length := by
  unfold fadeTo at h
  generalize hn : fadeDelta s.contrast t = n at h
  induction n generalizing s with
  | zero =>
    rw [fadeDelta_eq_zero hn]
    intro a ha
    simp at ha
  | succ n ih =>
    have hne : s.contrast ≠ t := by
      intro e
      rw [e, fadeDelta_self] at hn
      omega
    have hstep := fadeDelta_stepToward hne
    simp only [fadeSteps, busCmd] at h
    obtain ⟨h1, h2⟩ := Ran.going_of_andThen h
    have a1 := accepts_of_busTransfer h1
    rw [busTransfer_accepted _ a1] at h2
    have hn' : fadeDelta (stepToward s.contrast t) t = n := by omega
    have a2 := ih hn' h2
    rw [fadeTransfers_step hne, List.length_cons, Nat.add_comm]
    exact State.accepts_add.2 ⟨a1, a2⟩

/-- A fade that went on reached its target. -/
theorem fadeTo_of_going {t : Byte} {s : State} (h : (fadeTo t s).how = .going) :
    fadeTo t s = going (State.sending { s with contrast := t } (fadeTransfers s.contrast t)) :=
  fadeTo_accepted t (accepts_of_fadeTo h)

theorem accepts_of_activityReset {s : State} (h : (activityReset s).how = .going) : s.Accepts (wakeTransfers s).length := by
  obtain ⟨h1, -⟩ := Ran.going_of_andThen h
  unfold restoreOn at h1
  unfold wakeTransfers
  cases hp : s.pstate with
  | off => intro a ha; simp at ha
  | on => intro a ha; simp at ha
  | dim =>
    rw [hp] at h1
    exact accepts_of_fadeTo (Ran.going_of_andThen h1).1
  | sleep =>
    rw [hp] at h1
    obtain ⟨k1, k2⟩ := Ran.going_of_andThen h1
    have a1 := accepts_of_busTransfer k1
    rw [busCmd, busTransfer_accepted _ a1] at k2
    have a2 := accepts_of_fadeTo (Ran.going_of_andThen k2).1
    dsimp only
    rw [List.length_cons, Nat.add_comm]
    exact State.accepts_add.2 ⟨a1, a2⟩

/-- An activity reset that went on left what 60_exceptions.md R184 says. -/
theorem activityReset_of_going {s : State} (hp : s.pstate ≠ .off) (h : (activityReset s).how = .going) :
    activityReset s = going s.afterActivity :=
  activityReset_accepted hp (accepts_of_activityReset h)

/-- The status a finished procedure reports. -/
theorem going_of_finish_ok {r : Ran} {cs : List Completion} (hc : r.st.completions = cs)
    (h : r.finish.completions = cs ++ [{ status := .ok, data := 0 }]) : r.how = .going := by
  unfold Ran.finish at h
  split at h
  · assumption
  · rw [State.complete_completions, hc] at h
    have := List.append_cancel_left h
    simp at this
  · rw [hc] at h
    have := congrArg List.length h
    simp at this

/-! ## The activity reset refused (60_exceptions.md R187) -/

@[simp] theorem busError_andThen (s : State) (f : State → Ran) :
    ({ st := s, how := .busError } : Ran).andThen f = { st := s, how := .busError } := rfl

theorem restoreOn_dim {s : State} (hp : s.pstate = .dim) : restoreOn s = unDim s := by unfold restoreOn; rw [hp]

theorem restoreOn_sleep {s : State} (hp : s.pstate = .sleep) : restoreOn s = wake s := by unfold restoreOn; rw [hp]

theorem activityReset_refused_dim {s : State} {k : Nat} {rest : List BusAnswer} (hp : s.pstate = .dim)
    (hk : k < (wakeTransfers s).length) (h : s.RefusesAfter k rest) :
    activityReset s =
      { st := State.refusedAt { s with contrast := fadeValue s.contrast s.preDim k } (wakeTransfers s) k rest,
        how := .busError } := by
  have hw : wakeTransfers s = fadeTransfers s.contrast s.preDim := by simp [wakeTransfers, hp]
  rw [hw] at hk ⊢
  rw [activityReset, restoreOn_dim hp, unDim, fadeTo_refused _ hk h, busError_andThen, busError_andThen]

theorem activityReset_refused_sleep_zero {s : State} {rest : List BusAnswer} (hp : s.pstate = .sleep)
    (h : s.RefusesAfter 0 rest) :
    activityReset s = { st := s.refusedAt (wakeTransfers s) 0 rest, how := .busError } := by
  have hw : wakeTransfers s = .cmd .displayOn :: fadeTransfers s.contrast s.preDim := by simp [wakeTransfers, hp]
  rw [hw]
  rw [activityReset, restoreOn_sleep hp, wake, busCmd, busTransfer_refused_zero _ h (fadeTransfers s.contrast s.preDim),
    busError_andThen, busError_andThen]

theorem activityReset_refused_sleep_succ {s : State} {k : Nat} {rest : List BusAnswer} (hp : s.pstate = .sleep)
    (hk : k + 1 < (wakeTransfers s).length) (h : s.RefusesAfter (k + 1) rest) :
    activityReset s =
      { st := State.refusedAt { s with contrast := fadeValue s.contrast s.preDim k } (wakeTransfers s) (k + 1) rest,
        how := .busError } := by
  have hw : wakeTransfers s = .cmd .displayOn :: fadeTransfers s.contrast s.preDim := by simp [wakeTransfers, hp]
  rw [hw] at hk ⊢
  have h' : s.RefusesAfter ([Transfer.cmd .displayOn].length + k) rest := by
    rw [Nat.add_comm] at h; exact h
  have hk' : k < (fadeTransfers s.contrast s.preDim).length := by simpa using hk
  rw [activityReset, restoreOn_sleep hp, wake, busCmd, busTransfer_accepted _ h'.accepts, going_andThen, unDim,
    fadeTo_refused (s := s.sending [.cmd .displayOn]) (s.sending [.cmd .displayOn]).preDim hk' h'.sending, busError_andThen, busError_andThen]
  simp [State.refusedAt, State.sending, State.noteBusErr]

/-! ## Procedures that send commands only -/

/-- From `s` to `t` the trace grew by device commands. -/
def CmdsOnly (s t : State) : Prop := ∃ cs : List DeviceCmd, t.trace = s.trace ++ cs.map .cmd

theorem CmdsOnly.of_eq {s t : State} (h : t.trace = s.trace) : CmdsOnly s t := ⟨[], by simp [h]⟩

theorem CmdsOnly.trans {s t u : State} (h : CmdsOnly s t) (k : CmdsOnly t u) : CmdsOnly s u := by
  obtain ⟨a, ha⟩ := h
  obtain ⟨b, hb⟩ := k
  exact ⟨a ++ b, by rw [hb, ha]; simp⟩

theorem CmdsOnly.andThen {s : State} {r : Ran} {f : State → Ran} (h : CmdsOnly s r.st)
    (k : ∀ u, CmdsOnly u (f u).st) : CmdsOnly s (r.andThen f).st := by
  unfold Ran.andThen
  split
  · exact h.trans (k _)
  · exact h
  · exact h

theorem cmdsOnly_busCmd (c : DeviceCmd) (s : State) : CmdsOnly s (busCmd c s).st := by
  unfold busCmd busTransfer
  split
  · exact ⟨[c], rfl⟩
  · exact ⟨[c], rfl⟩
  · exact CmdsOnly.of_eq rfl
  · exact CmdsOnly.of_eq rfl

theorem cmdsOnly_busCmds (cs : List DeviceCmd) (s : State) : CmdsOnly s (busCmds cs s).st := by
  induction cs generalizing s with
  | nil => exact CmdsOnly.of_eq rfl
  | cons c cs ih => exact (cmdsOnly_busCmd c s).andThen ih

theorem cmdsOnly_fadeTo (t : Byte) (s : State) : CmdsOnly s (fadeTo t s).st := by
  unfold fadeTo
  generalize fadeDelta s.contrast t = n
  induction n generalizing s with
  | zero => exact CmdsOnly.of_eq rfl
  | succ n ih => exact CmdsOnly.andThen (cmdsOnly_busCmd _ { s with contrast := stepToward s.contrast t }) ih

theorem cmdsOnly_unDim (s : State) : CmdsOnly s (unDim s).st :=
  (cmdsOnly_fadeTo _ s).andThen fun _ => CmdsOnly.of_eq rfl

theorem cmdsOnly_activityReset (s : State) : CmdsOnly s (activityReset s).st := by
  refine CmdsOnly.andThen ?_ fun u => CmdsOnly.of_eq (by rw [going_st, restartTimer_eq])
  unfold restoreOn
  split
  · exact cmdsOnly_unDim s
  · exact (cmdsOnly_busCmd _ s).andThen cmdsOnly_unDim
  · exact CmdsOnly.of_eq rfl
  · exact CmdsOnly.of_eq rfl

theorem cmdsOnly_idleFire (s : State) : CmdsOnly s (idleFire s).st := by
  unfold idleFire
  dsimp only
  split
  · exact CmdsOnly.of_eq rfl
  · split
    · exact CmdsOnly.andThen (s := s)
        (cmdsOnly_fadeTo 0 { s.setTimer .stopped with preDim := (s.setTimer .stopped).contrast })
        fun _ => CmdsOnly.of_eq rfl
    · exact CmdsOnly.andThen (s := s) (cmdsOnly_busCmd .displayOff (s.setTimer .stopped)) fun _ => CmdsOnly.of_eq rfl
    · exact CmdsOnly.of_eq rfl
    · exact CmdsOnly.of_eq rfl

theorem cmdsOnly_finish {s : State} {r : Ran} (h : CmdsOnly s r.st) : CmdsOnly s r.finish := by
  unfold Ran.finish
  split
  · exact h
  · exact h
  · exact h

end Sys2Proof.Machine
end

