-- ==== Sys2Proof/Laws/Encoding.lean ====
section
/-! SUPPORT. A command word as its fields (spec/30_encoding.md R71), the slots of a packed word, and what a format's mask
asks of a word (R75). -/

namespace Sys2Proof

/-- `MBZ = W[119:97]`. -/
def mbzOf (w : Word) : BitVec 23 := w.extractLsb' 97 23

/-- `W[96]` as a bit. -/
def onBit (w : Word) : BitVec 1 := w.extractLsb' 96 1

/-- A word from all its fields. -/
def fields (opc : Byte) (mbz : BitVec 23) (on : BitVec 1) (a b c d e f : Half) : Word :=
  opc ++ mbz ++ on ++ a ++ b ++ c ++ d ++ e ++ f

theorem pack_eq (opc : Byte) (on : Bool) (a b c d e f : Half) :
    pack opc on a b c d e f = fields opc 0 (BitVec.ofBool on) a b c d e f := rfl

section slots
variable (opc : Byte) (mbz : BitVec 23) (on : BitVec 1) (a b c d e f : Half)

@[simp] theorem slotF_fields : slotF (fields opc mbz on a b c d e f) = f := BitVec.extractLsb'_append_eq_right

@[simp] theorem slotE_fields : slotE (fields opc mbz on a b c d e f) = e := by
  simp only [slotE, fields]
  repeat rw [BitVec.extractLsb'_append_eq_of_le (by decide)]
  exact BitVec.extractLsb'_append_eq_right

@[simp] theorem slotD_fields : slotD (fields opc mbz on a b c d e f) = d := by
  simp only [slotD, fields]
  repeat rw [BitVec.extractLsb'_append_eq_of_le (by decide)]
  exact BitVec.extractLsb'_append_eq_right

@[simp] theorem slotC_fields : slotC (fields opc mbz on a b c d e f) = c := by
  simp only [slotC, fields]
  repeat rw [BitVec.extractLsb'_append_eq_of_le (by decide)]
  exact BitVec.extractLsb'_append_eq_right

@[simp] theorem slotB_fields : slotB (fields opc mbz on a b c d e f) = b := by
  simp only [slotB, fields]
  repeat rw [BitVec.extractLsb'_append_eq_of_le (by decide)]
  exact BitVec.extractLsb'_append_eq_right

@[simp] theorem slotA_fields : slotA (fields opc mbz on a b c d e f) = a := by
  simp only [slotA, fields]
  repeat rw [BitVec.extractLsb'_append_eq_of_le (by decide)]
  exact BitVec.extractLsb'_append_eq_right

@[simp] theorem onBit_fields : onBit (fields opc mbz on a b c d e f) = on := by
  simp only [onBit, fields]
  repeat rw [BitVec.extractLsb'_append_eq_of_le (by decide)]
  exact BitVec.extractLsb'_append_eq_right

@[simp] theorem mbzOf_fields : mbzOf (fields opc mbz on a b c d e f) = mbz := by
  simp only [mbzOf, fields]
  repeat rw [BitVec.extractLsb'_append_eq_of_le (by decide)]
  exact BitVec.extractLsb'_append_eq_right

@[simp] theorem opcOf_fields : opcOf (fields opc mbz on a b c d e f) = opc := by
  simp only [opcOf, fields]
  repeat rw [BitVec.extractLsb'_append_eq_of_le (by decide)]
  exact BitVec.extractLsb'_eq_self

end slots

/-- A word is its fields. -/
theorem fields_eta (w : Word) :
    fields (opcOf w) (mbzOf w) (onBit w) (slotA w) (slotB w) (slotC w) (slotD w) (slotE w) (slotF w) = w := by
  unfold fields opcOf mbzOf onBit slotA slotB slotC slotD slotE slotF
  repeat rw [BitVec.extractLsb'_append_extractLsb'_eq_extractLsb' (by decide)]
  exact BitVec.extractLsb'_eq_self

theorem fields_inj {opc opc' : Byte} {mbz mbz' : BitVec 23} {on on' : BitVec 1} {a b c d e f a' b' c' d' e' f' : Half}
    (h : fields opc mbz on a b c d e f = fields opc' mbz' on' a' b' c' d' e' f') :
    opc = opc' ∧ mbz = mbz' ∧ on = on' ∧ a = a' ∧ b = b' ∧ c = c' ∧ d = d' ∧ e = e' ∧ f = f' := by
  refine ⟨?_, ?_, ?_, ?_, ?_, ?_, ?_, ?_, ?_⟩
  · simpa using congrArg opcOf h
  · simpa using congrArg mbzOf h
  · simpa using congrArg onBit h
  · simpa using congrArg slotA h
  · simpa using congrArg slotB h
  · simpa using congrArg slotC h
  · simpa using congrArg slotD h
  · simpa using congrArg slotE h
  · simpa using congrArg slotF h

theorem fields_and (opc opc' : Byte) (mbz mbz' : BitVec 23) (on on' : BitVec 1) (a b c d e f a' b' c' d' e' f' : Half) :
    fields opc mbz on a b c d e f &&& fields opc' mbz' on' a' b' c' d' e' f' =
      fields (opc &&& opc') (mbz &&& mbz') (on &&& on') (a &&& a') (b &&& b') (c &&& c') (d &&& d') (e &&& e') (f &&& f') := by
  simp only [fields, ← BitVec.and_append]

theorem opcodePart_eq (opc : Byte) : opcodePart opc = fields opc 0 0 0 0 0 0 0 0 := by
  have : ∀ opc : Byte, opcodePart opc = fields opc 0 0 0 0 0 0 0 0 := by decide +kernel
  exact this opc

theorem onOf_eq (w : Word) : onOf w = (onBit w).getLsbD 0 := by
  simp [onOf, onBit]

theorem onBit_eq_zero {w : Word} : onBit w = 0 ↔ onOf w = false := by
  rw [onOf_eq]
  generalize onBit w = b
  revert b; decide

/-- The must-be-zero fields of a format, `MBZ` apart (the table of 30_encoding.md R73). -/
def Format.unusedZero (w : Word) : Format → Prop
  | .z => onOf w = false ∧ slotA w = 0 ∧ slotB w = 0 ∧ slotC w = 0 ∧ slotD w = 0 ∧ slotE w = 0 ∧ slotF w = 0
  | .p => slotC w = 0 ∧ slotD w = 0 ∧ slotE w = 0 ∧ slotF w = 0
  | .xy => onOf w = false ∧ slotC w = 0 ∧ slotD w = 0 ∧ slotE w = 0 ∧ slotF w = 0
  | .u1 | .s1 => onOf w = false ∧ slotB w = 0 ∧ slotC w = 0 ∧ slotD w = 0 ∧ slotE w = 0 ∧ slotF w = 0
  | .s3 => onOf w = false ∧ slotD w = 0 ∧ slotE w = 0 ∧ slotF w = 0
  | .s4 | .q => onOf w = false ∧ slotE w = 0 ∧ slotF w = 0
  | .t => onOf w = false

/-- What a mask asks of a word (30_encoding.md R75): its must-be-zero fields are zero. -/
theorem mask_iff (w : Word) (fmt : Format) :
    w &&& formatMask fmt = opcodePart (opcOf w) ↔ mbzOf w = 0 ∧ fmt.unusedZero w := by
  have hm : formatMask fmt = fields (BitVec.allOnes 8) (BitVec.allOnes 23) (if fmt = .p then 0 else BitVec.allOnes 1)
      (if fmt = .z then BitVec.allOnes 16 else 0)
      (if fmt = .z ∨ fmt = .u1 ∨ fmt = .s1 then BitVec.allOnes 16 else 0)
      (if fmt = .s3 ∨ fmt = .s4 ∨ fmt = .q ∨ fmt = .t then 0 else BitVec.allOnes 16)
      (if fmt = .s4 ∨ fmt = .q ∨ fmt = .t then 0 else BitVec.allOnes 16)
      (if fmt = .t then 0 else BitVec.allOnes 16) (if fmt = .t then 0 else BitVec.allOnes 16) := by
    cases fmt <;> decide
  have hw : w &&& formatMask fmt = opcodePart (opcOf w) ↔
      fields (opcOf w) (mbzOf w) (onBit w) (slotA w) (slotB w) (slotC w) (slotD w) (slotE w) (slotF w) &&&
        formatMask fmt = opcodePart (opcOf w) := by rw [fields_eta]
  rw [hw, hm, fields_and, opcodePart_eq]
  have all : ∀ {n : Nat} (x : BitVec n), x &&& BitVec.allOnes n = x := by intro n x; simp
  have none : ∀ {n : Nat} (x : BitVec n), x &&& 0 = 0 := by intro n x; simp
  constructor
  · intro h
    obtain ⟨-, h1, h2, h3, h4, h5, h6, h7, h8⟩ := fields_inj h
    rw [all] at h1
    refine ⟨h1, ?_⟩
    cases fmt <;> simp only [reduceCtorEq, or_self, or_false, or_true, if_true, if_false, all] at h2 h3 h4 h5 h6 h7 h8 <;>
      simp only [Format.unusedZero, ← onBit_eq_zero, h2, h3, h4, h5, h6, h7, h8, and_self]
  · rintro ⟨h1, h2⟩
    cases fmt <;> simp only [Format.unusedZero, ← onBit_eq_zero] at h2 <;>
      simp only [reduceCtorEq, or_self, or_false, or_true, if_true, if_false, all, none, h1, h2]

/-- Everything the decoder accepts (30_encoding.md R76): a row of the map, every must-be-zero field zero. -/
theorem decode_eq_some {w : Word} {i : Instr} :
    decode w = some i ↔ ∃ fmt, opcodeRow (opcOf w) w = some (fmt, i) ∧ mbzOf w = 0 ∧ fmt.unusedZero w := by
  unfold decode decodeOr
  split
  · rename_i h; simp [h, Except.toOption]
  · rename_i fmt j h
    rw [h]
    by_cases hm : w &&& formatMask fmt = opcodePart (opcOf w)
    · rw [if_pos hm]
      constructor
      · intro e
        obtain rfl : j = i := Option.some.inj e
        exact ⟨fmt, rfl, (mask_iff w fmt).1 hm⟩
      · rintro ⟨f, e, -⟩
        obtain ⟨-, rfl⟩ := Prod.mk.inj (Option.some.inj e)
        rfl
    · rw [if_neg hm]
      constructor
      · intro e; cases e
      · rintro ⟨f, e, h⟩
        obtain ⟨rfl, -⟩ := Prod.mk.inj (Option.some.inj e)
        exact absurd ((mask_iff w fmt).2 h) hm

/-! ## Operands (R72) -/

theorem sext_signedSlot {v : Int} (h : isSigned16 v = true) : sext (signedSlot v) = v := by
  have := of_decide_eq_true h
  unfold sext signedSlot
  rw [BitVec.toInt_ofInt]
  exact Int.bmod_eq_of_le (by omega) (by omega)

theorem zext_unsignedSlot {v : Nat} (h : isUnsigned16 v = true) : zext (unsignedSlot v) = v := by
  have := of_decide_eq_true h
  unfold zext unsignedSlot
  rw [BitVec.toNat_ofNat]
  exact Nat.mod_eq_of_lt (by omega)

theorem unsignedOf {n : Nat} (x : BitVec n) : BitVec.ofNat n x.toNat = x := by simp

theorem signedSlot_sext (h : Half) : signedSlot (sext h) = h := BitVec.ofInt_toInt

theorem unsignedSlot_zext (h : Half) : unsignedSlot (zext h) = h := unsignedOf h

theorem isSigned16_sext (h : Half) : isSigned16 (sext h) = true := by
  have h1 := BitVec.le_toInt h
  have h2 := BitVec.toInt_lt (x := h)
  unfold sext isSigned16
  simp only [decide_eq_true_eq]
  omega

theorem isUnsigned16_zext (h : Half) : isUnsigned16 (zext h) = true := by
  have := h.isLt
  unfold zext isUnsigned16
  simp only [decide_eq_true_eq]
  omega

theorem ofBool_onOf (w : Word) : BitVec.ofBool (onOf w) = onBit w := by
  rw [onOf_eq]
  generalize onBit w = b
  revert b; decide

/-- The decoder's operands fit their slots (R72). -/
theorem wellFormed_of_decode {w : Word} {i : Instr} (h : decode w = some i) : i.wellFormed = true := by
  obtain ⟨fmt, hr, -, -⟩ := decode_eq_some.1 h
  unfold opcodeRow at hr
  split at hr
  all_goals first
    | simp only [reduceCtorEq] at hr
    | skip
  all_goals
    simp only [Option.some.injEq, Prod.mk.injEq] at hr
    obtain ⟨-, rfl⟩ := hr
    simp only [Instr.wellFormed, isSigned16_sext, isUnsigned16_zext, Bool.and_self]

/-- The format of an instruction (the third column of 30_encoding.md R74). -/
def formatOf : Instr → Format
  | .setPixel .. => .p
  | .getPixel .. => .xy
  | .clearBuffer | .clearScreen | .sendBuffer | .displayImage | .init | .release => .z
  | .rdByte .. | .rdReg .. => .u1
  | .setContrast .. => .s1
  | .hLine .. | .vLine .. | .square .. | .fillSquare .. | .circle .. | .fillCircle .. => .s3
  | .rect .. | .fillRect .. | .triBox .. => .s4
  | .line .. => .q
  | .tri .. | .fillTri .. => .t

end Sys2Proof
end

