-- ==== Sys2Proof/Laws/PerInstr.lean ====
section
/-! SUPPORT. The statements made per instruction: the family `OpcodeField` (spec/30_encoding.md R71, R74, R75). -/

/-- The command word of an instruction carries its opcode of R74 in `W[127:120]`, and its `MBZ` field `W[119:97]` is 0. -/
def Sys2Proof.Laws.OpcodeField.Statement (i : Sys2Proof.Instr) : Prop :=
  Sys2Proof.opcOf (Sys2Proof.encode i) = Sys2Proof.opcode i ∧ (Sys2Proof.encode i).extractLsb' 97 23 = 0#23

/-- The two top fields of any packed word. -/
theorem Sys2Proof.Laws.OpcodeField.of_pack (opc : Sys2Proof.Byte) (on : Bool) (a b c d e f : Sys2Proof.Half) :
    Sys2Proof.opcOf (Sys2Proof.pack opc on a b c d e f) = opc ∧
      (Sys2Proof.pack opc on a b c d e f).extractLsb' 97 23 = 0#23 := by
  rw [Sys2Proof.pack_eq]
  exact ⟨Sys2Proof.opcOf_fields .., Sys2Proof.mbzOf_fields ..⟩

theorem Sys2Proof.Laws.OpcodeField.setPixel (x y : Int) (on : Bool) : Sys2Proof.Laws.OpcodeField.Statement (.setPixel x y on) :=
  Sys2Proof.Laws.OpcodeField.of_pack ..

theorem Sys2Proof.Laws.OpcodeField.getPixel (x y : Int) : Sys2Proof.Laws.OpcodeField.Statement (.getPixel x y) :=
  Sys2Proof.Laws.OpcodeField.of_pack ..

theorem Sys2Proof.Laws.OpcodeField.clearBuffer : Sys2Proof.Laws.OpcodeField.Statement .clearBuffer :=
  Sys2Proof.Laws.OpcodeField.of_pack ..

theorem Sys2Proof.Laws.OpcodeField.clearScreen : Sys2Proof.Laws.OpcodeField.Statement .clearScreen :=
  Sys2Proof.Laws.OpcodeField.of_pack ..

theorem Sys2Proof.Laws.OpcodeField.rdByte (idx : Nat) : Sys2Proof.Laws.OpcodeField.Statement (.rdByte idx) :=
  Sys2Proof.Laws.OpcodeField.of_pack ..

theorem Sys2Proof.Laws.OpcodeField.hLine (x y : Int) (w : Nat) : Sys2Proof.Laws.OpcodeField.Statement (.hLine x y w) :=
  Sys2Proof.Laws.OpcodeField.of_pack ..

theorem Sys2Proof.Laws.OpcodeField.vLine (x y : Int) (h : Nat) : Sys2Proof.Laws.OpcodeField.Statement (.vLine x y h) :=
  Sys2Proof.Laws.OpcodeField.of_pack ..

theorem Sys2Proof.Laws.OpcodeField.line (x0 y0 x1 y1 : Int) : Sys2Proof.Laws.OpcodeField.Statement (.line x0 y0 x1 y1) :=
  Sys2Proof.Laws.OpcodeField.of_pack ..

theorem Sys2Proof.Laws.OpcodeField.rect (x y : Int) (w h : Nat) : Sys2Proof.Laws.OpcodeField.Statement (.rect x y w h) :=
  Sys2Proof.Laws.OpcodeField.of_pack ..

theorem Sys2Proof.Laws.OpcodeField.square (x y : Int) (s : Nat) : Sys2Proof.Laws.OpcodeField.Statement (.square x y s) :=
  Sys2Proof.Laws.OpcodeField.of_pack ..

theorem Sys2Proof.Laws.OpcodeField.fillRect (x y : Int) (w h : Nat) : Sys2Proof.Laws.OpcodeField.Statement (.fillRect x y w h) :=
  Sys2Proof.Laws.OpcodeField.of_pack ..

theorem Sys2Proof.Laws.OpcodeField.fillSquare (x y : Int) (s : Nat) : Sys2Proof.Laws.OpcodeField.Statement (.fillSquare x y s) :=
  Sys2Proof.Laws.OpcodeField.of_pack ..

theorem Sys2Proof.Laws.OpcodeField.circle (cx cy : Int) (r : Nat) : Sys2Proof.Laws.OpcodeField.Statement (.circle cx cy r) :=
  Sys2Proof.Laws.OpcodeField.of_pack ..

theorem Sys2Proof.Laws.OpcodeField.fillCircle (cx cy : Int) (r : Nat) : Sys2Proof.Laws.OpcodeField.Statement (.fillCircle cx cy r) :=
  Sys2Proof.Laws.OpcodeField.of_pack ..

theorem Sys2Proof.Laws.OpcodeField.tri (x0 y0 x1 y1 x2 y2 : Int) : Sys2Proof.Laws.OpcodeField.Statement (.tri x0 y0 x1 y1 x2 y2) :=
  Sys2Proof.Laws.OpcodeField.of_pack ..

theorem Sys2Proof.Laws.OpcodeField.triBox (cx cy : Int) (w h : Nat) : Sys2Proof.Laws.OpcodeField.Statement (.triBox cx cy w h) :=
  Sys2Proof.Laws.OpcodeField.of_pack ..

theorem Sys2Proof.Laws.OpcodeField.fillTri (x0 y0 x1 y1 x2 y2 : Int) : Sys2Proof.Laws.OpcodeField.Statement (.fillTri x0 y0 x1 y1 x2 y2) :=
  Sys2Proof.Laws.OpcodeField.of_pack ..

theorem Sys2Proof.Laws.OpcodeField.sendBuffer : Sys2Proof.Laws.OpcodeField.Statement .sendBuffer :=
  Sys2Proof.Laws.OpcodeField.of_pack ..

theorem Sys2Proof.Laws.OpcodeField.displayImage : Sys2Proof.Laws.OpcodeField.Statement .displayImage :=
  Sys2Proof.Laws.OpcodeField.of_pack ..

theorem Sys2Proof.Laws.OpcodeField.setContrast (pct : Int) : Sys2Proof.Laws.OpcodeField.Statement (.setContrast pct) :=
  Sys2Proof.Laws.OpcodeField.of_pack ..

theorem Sys2Proof.Laws.OpcodeField.init : Sys2Proof.Laws.OpcodeField.Statement .init :=
  Sys2Proof.Laws.OpcodeField.of_pack ..

theorem Sys2Proof.Laws.OpcodeField.release : Sys2Proof.Laws.OpcodeField.Statement .release :=
  Sys2Proof.Laws.OpcodeField.of_pack ..

theorem Sys2Proof.Laws.OpcodeField.rdReg (n : Nat) : Sys2Proof.Laws.OpcodeField.Statement (.rdReg n) :=
  Sys2Proof.Laws.OpcodeField.of_pack ..
end

