-- ==== Sys2Proof/Laws/Raster.lean ====
section
/-! SUPPORT. The points of the rasterizer's walks (spec/41_rasterizer_lines_rects.md, spec/42_rasterizer_circles_triangles.md)
as sets: every loop equals the closed form of Safety.lean. -/

namespace Sys2Proof.Machine

/-! ## Spans and rectangles -/

@[simp] theorem mem_hSpan {x y u v : Int} {w : Nat} : (u, v) ∈ hSpan x y w ↔ x ≤ u ∧ u < x + w ∧ v = y := by
  simp only [hSpan, List.mem_map, List.mem_range, Prod.mk.injEq]
  constructor
  · rintro ⟨i, hi, rfl, rfl⟩; omega
  · rintro ⟨h1, h2, rfl⟩; exact ⟨(u - x).toNat, by omega, by omega, rfl⟩

@[simp] theorem mem_vSpan {x y u v : Int} {h : Nat} : (u, v) ∈ vSpan x y h ↔ u = x ∧ y ≤ v ∧ v < y + h := by
  simp only [vSpan, List.mem_map, List.mem_range, Prod.mk.injEq]
  constructor
  · rintro ⟨i, hi, rfl, rfl⟩; omega
  · rintro ⟨rfl, h1, h2⟩; exact ⟨(v - y).toNat, by omega, rfl, by omega⟩

theorem mem_rectOf {x y u v : Int} {w h : Nat} :
    (u, v) ∈ rectOf x y w h ↔
      (x ≤ u ∧ u < x + w ∧ y ≤ v ∧ v < y + h) ∧ (u = x ∨ u = x + w - 1 ∨ v = y ∨ v = y + h - 1) := by
  unfold rectOf
  split
  · simp; omega
  · simp only [List.mem_append, mem_hSpan, mem_vSpan]; omega

theorem mem_fillRectOf {x y u v : Int} {w h : Nat} :
    (u, v) ∈ fillRectOf x y w h ↔ x ≤ u ∧ u < x + w ∧ y ≤ v ∧ v < y + h := by
  simp only [fillRectOf, List.mem_flatMap, List.mem_range, mem_vSpan]
  constructor
  · rintro ⟨i, hi, rfl, h1, h2⟩; omega
  · rintro ⟨h1, h2, h3, h4⟩; exact ⟨(u - x).toNat, by omega, by omega, h3, h4⟩

/-! ## The general line -/

/-- The error of the walk, counted: after `k` steps it is `err - k*dy` plus `dx` for each short-axis step. -/
theorem mem_walkLoop {steep : Bool} {dx dy ystep : Int} (hdx : 0 < dx) (h0 : 0 ≤ dy) (h1 : dy ≤ dx) (n : Nat) :
    ∀ (x y err : Int), 0 ≤ err → err < dx → ∀ p : Point,
      p ∈ walkLoop steep dx dy ystep n x y err ↔
        ∃ k : Nat, k < n ∧ p = (if steep then (y + ystep * ((k * dy - err + dx - 1) / dx), x + k)
          else (x + k, y + ystep * ((k * dy - err + dx - 1) / dx))) := by
  induction n with
  | zero => intro x y err _ _ p; simp [walkLoop]
  | succ n ih =>
    intro x y err he he' p
    have hz : ((0 : Nat) * dy - err + dx - 1) / dx = 0 := by
      apply Int.ediv_eq_zero_of_lt <;> push_cast <;> omega
    unfold walkLoop
    rw [List.mem_cons]
    have split : ∀ P : Nat → Prop, (∃ k, k < n + 1 ∧ P k) ↔ P 0 ∨ ∃ k, k < n ∧ P (k + 1) := by
      intro P
      constructor
      · rintro ⟨k, hk, hp⟩
        cases k with
        | zero => exact .inl hp
        | succ k => exact .inr ⟨k, by omega, hp⟩
      · rintro (hp | ⟨k, hk, hp⟩)
        · exact ⟨0, by omega, hp⟩
        · exact ⟨k + 1, by omega, hp⟩
    rw [split, hz]
    refine or_congr (by simp) ?_
    split
    · rw [ih _ _ _ (by omega) (by omega)]
      refine exists_congr fun k => and_congr_right fun _ => ?_
      have e : (((k + 1 : Nat) : Int) * dy - err + dx - 1) / dx
          = ((k : Int) * dy - (err - dy + dx) + dx - 1) / dx + 1 := by
        rw [show ((k + 1 : Nat) : Int) * dy - err + dx - 1 = ((k : Int) * dy - (err - dy + dx) + dx - 1) + 1 * dx by
          push_cast; ring]
        exact Int.add_mul_ediv_right _ _ (by omega)
      rw [e, show x + 1 + (k : Int) = x + ((k + 1 : Nat) : Int) by push_cast; ring, mul_add, mul_one,
        show ∀ q : Int, y + ystep + q = y + (q + ystep) by intro q; ring]
    · rw [ih _ _ _ (by omega) (by omega)]
      refine exists_congr fun k => and_congr_right fun _ => ?_
      rw [show ((k + 1 : Nat) : Int) * dy - err + dx - 1 = (k : Int) * dy - (err - dy) + dx - 1 by push_cast; ring,
        show x + 1 + (k : Int) = x + ((k + 1 : Nat) : Int) by push_cast; ring]

theorem minorSteps_eq {dx dy k : Int} : (k * dy - dx / 2 + dx - 1) / dx = minorSteps dx dy k := by
  unfold minorSteps
  congr 1
  ring

/-- `Walk` after the swaps is the flat line, transposed back when steep. -/
theorem mem_walkOrdered {steep : Bool} {x0 y0 x1 y1 : Int} (hx : x0 < x1) (hd : ((y1 - y0).natAbs : Int) ≤ x1 - x0)
    (u v : Int) :
    (u, v) ∈ walkOrdered steep x0 y0 x1 y1 ↔
      if steep then FlatLine x0 y0 x1 y1 v u else FlatLine x0 y0 x1 y1 u v := by
  unfold walkOrdered FlatLine
  dsimp only
  rw [mem_walkLoop (by omega) (by omega) hd _ _ _ _ (by omega) (by omega)]
  cases steep
  · simp only [Bool.false_eq_true, if_false, Prod.mk.injEq, minorSteps_eq]
    constructor
    · rintro ⟨k, hk, rfl, rfl⟩
      refine ⟨by omega, by omega, ?_⟩
      rw [show x0 + (k : Int) - x0 = k by ring]
    · rintro ⟨h1, h2, rfl⟩
      refine ⟨(u - x0).toNat, by omega, by omega, ?_⟩
      rw [show (((u - x0).toNat : Nat) : Int) = u - x0 by omega]
  · simp only [if_true, Prod.mk.injEq, minorSteps_eq]
    constructor
    · rintro ⟨k, hk, rfl, rfl⟩
      refine ⟨by omega, by omega, ?_⟩
      rw [show x0 + (k : Int) - x0 = k by ring]
    · rintro ⟨h1, h2, rfl⟩
      refine ⟨(v - x0).toNat, by omega, ?_, by omega⟩
      rw [show (((v - x0).toNat : Nat) : Int) = v - x0 by omega]

theorem minorSteps_zero_short {long k : Int} (h : 0 ≤ long) : minorSteps long 0 k = 0 := by
  unfold minorSteps
  rcases h.eq_or_lt with h | h
  · subst h; simp
  · apply Int.ediv_eq_zero_of_lt <;> omega

/-- `Line` plots the line's set (R105, R106): the fast paths agree with the walk. -/
theorem mem_lineOf {x0 y0 x1 y1 u v : Int} : (u, v) ∈ lineOf x0 y0 x1 y1 ↔ LineSet x0 y0 x1 y1 u v := by
  unfold lineOf
  split
  · subst x0
    rw [mem_vSpan]
    unfold LineSet
    by_cases hy : y0 = y1
    · subst hy
      simp only [sub_self, Int.natAbs_zero, le_refl, if_true, FlatLine, lt_irrefl, if_false, Nat.cast_zero]
      rw [minorSteps_zero_short (le_refl 0)]
      omega
    · rw [if_neg (by omega)]
      unfold FlatLine
      split
      · rw [show ((x1 - x1).natAbs : Int) = 0 by simp, minorSteps_zero_short (by omega)]; omega
      · rw [show ((x1 - x1).natAbs : Int) = 0 by simp, minorSteps_zero_short (by omega)]; omega
  · split
    · subst y0
      rw [mem_hSpan]
      unfold LineSet FlatLine
      rw [if_pos (by simp), show ((y1 - y1).natAbs : Int) = 0 by simp]
      split
      · rw [minorSteps_zero_short (by omega)]; omega
      · rw [minorSteps_zero_short (by omega)]; omega
    · unfold walk walkSorted LineSet
      by_cases hs : (y1 - y0).natAbs > (x1 - x0).natAbs
      · rw [if_pos hs, if_neg (by omega : ¬ (y1 - y0).natAbs ≤ (x1 - x0).natAbs)]
        by_cases hy : y0 ≤ y1
        · rw [if_neg (by omega), if_pos hy, mem_walkOrdered (by omega) (by omega), if_pos rfl]
        · rw [if_pos (by omega), if_neg hy, mem_walkOrdered (by omega) (by omega), if_pos rfl]
      · rw [if_neg hs, if_pos (by omega : (y1 - y0).natAbs ≤ (x1 - x0).natAbs)]
        by_cases hx : x0 ≤ x1
        · rw [if_neg (by omega), if_pos hx, mem_walkOrdered (by omega) (by omega), if_neg (by simp)]
        · rw [if_pos (by omega), if_neg hx, mem_walkOrdered (by omega) (by omega), if_neg (by simp)]

theorem mem_triOf {x0 y0 x1 y1 x2 y2 u v : Int} :
    (u, v) ∈ triOf x0 y0 x1 y1 x2 y2 ↔ TriSet x0 y0 x1 y1 x2 y2 u v := by
  simp only [triOf, List.mem_append, mem_lineOf, TriSet, or_assoc]

/-! ## Circles -/

/-- The points `(u, v)` of the circle's lower octant and, at its end, one step past the diagonal. -/
structure Band (r : Nat) (u v : Int) : Prop where
  diag : u ≤ v + 1
  row : 0 ≤ v
  above : u * u + v * v - r * r < max u v
  below : -v ≤ u * u + v * v - r * r

/-- At the head of the midpoint loop (R120): the decision variable is that of the point right of the last, and the last
point lies in its band. -/
structure Midpoint.OnCircle (r : Nat) (m : Midpoint) : Prop where
  f : m.f = (m.x + 1) * (m.x + 1) + m.y * m.y - m.y - r * r
  ddFx : m.ddFx = 2 * m.x + 1
  ddFy : m.ddFy = -2 * m.y
  x : 0 ≤ m.x
  band : Band r m.x m.y

theorem midpointStart_onCircle {r : Nat} (h : 0 < r) : (midpointStart r).OnCircle r := by
  refine ⟨?_, ?_, ?_, ?_, ?_, ?_, ?_, ?_⟩ <;> simp [midpointStart] <;> omega

/-- One iteration below the diagonal: one step right, at most one down, and the new point is on the circle. -/
theorem midpointStep_onCircle {r : Nat} {m : Midpoint} (h : m.OnCircle r) (hxy : m.x < m.y) :
    (midpointStep m).OnCircle r ∧ (midpointStep m).x = m.x + 1 ∧
      ((midpointStep m).y = m.y ∨
        ((midpointStep m).y = m.y - 1 ∧ 0 ≤ (m.x + 1) * (m.x + 1) + m.y * m.y - m.y - r * r)) := by
  obtain ⟨hf, hfx, hfy, hx, hd, hy, ha, hb⟩ := h
  rw [max_eq_right hxy.le] at ha
  unfold midpointStep midpointDrop
  split
  · rename_i h0
    refine ⟨⟨?_, ?_, ?_, ?_, ?_, ?_, ?_, ?_⟩, ?_, ?_⟩ <;> dsimp only at * <;> try omega
    · rw [hf, hfx, hfy]; ring
    · rcases (show m.x + 1 ≤ m.y - 1 ∨ m.x + 1 = m.y by omega) with h | h
      · rw [max_eq_right h]; nlinarith
      · rw [max_eq_left (by omega)]; nlinarith
    · rw [hf] at h0; nlinarith
  · rename_i h0
    refine ⟨⟨?_, ?_, ?_, ?_, ?_, ?_, ?_, ?_⟩, ?_, ?_⟩ <;> dsimp only at * <;> try omega
    · rw [hf, hfx]; ring
    · nlinarith

/-- Bands fall as the column grows: right of a point of the circle, no band lies above its row. -/
theorem Band.le {r : Nat} {x y u v : Int} (hx : 0 ≤ x) (h : Band r x y) (k : Band r u v) (hu : x < u) : v ≤ y := by
  obtain ⟨hd, hy, ha, hb⟩ := h
  obtain ⟨kd, ky, ka, kb⟩ := k
  by_contra hc
  have : y + 1 ≤ v := by omega
  rcases (show u ≤ v ∨ u = v + 1 by omega) with e | e
  · rw [max_eq_right e] at ka; nlinarith
  · rw [max_eq_left (by omega)] at ka
    have : x ≤ v := by omega
    rw [e] at ka
    nlinarith

/-- The band of a column holds one row. -/
theorem Band.unique {r : Nat} {x y v : Int} (h : Band r x y) (k : Band r x v) : v = y := by
  have lt : ∀ {a b : Int}, Band r x a → Band r x b → ¬ a < b := by
    rintro a b ⟨hd, hy, ha, hb⟩ ⟨kd, ky, ka, kb⟩ hab
    rw [max_eq_right (by omega)] at ka
    have : a + 1 ≤ b := hab
    nlinarith
  have := lt h k
  have := lt k h
  omega

/-- Past the diagonal there is no band. -/
theorem Band.stop {r : Nat} {x y u v : Int} (hx : 0 ≤ x) (h : Band r x y) (hyx : y ≤ x) (k : Band r u v) (hu : x < u) :
    False := by
  have hv := Band.le hx h k hu
  obtain ⟨hd, hy, ha, hb⟩ := h
  obtain ⟨kd, ky, ka, kb⟩ := k
  have e1 : v = y := by omega
  have e2 : x = y := by omega
  have e3 : u = y + 1 := by omega
  subst e1 e2 e3
  rw [max_eq_left (by omega)] at ka
  nlinarith

theorem mem_octants {cx cy x y a b : Int} :
    (a, b) ∈ octants cx cy x y ↔
      ((a - cx = x ∨ a - cx = -x) ∧ (b - cy = y ∨ b - cy = -y)) ∨
      ((a - cx = y ∨ a - cx = -y) ∧ (b - cy = x ∨ b - cy = -x)) := by
  simp only [octants, List.mem_cons, Prod.mk.injEq, List.not_mem_nil, or_false]
  omega

/-- The loop plots, from a point of the circle on, every later point of the lower octant and its images. -/
theorem mem_circleLoop {r : Nat} {cx cy : Int} (n : Nat) : ∀ m : Midpoint, m.OnCircle r → m.y - m.x ≤ n →
    ∀ p, p ∈ circleLoop cx cy n m ↔ ∃ u v : Int, m.x < u ∧ Band r u v ∧ p ∈ octants cx cy u v := by
  induction n with
  | zero =>
    intro m h hn p
    simp only [circleLoop, List.not_mem_nil, false_iff]
    rintro ⟨u, v, hu, k, -⟩
    exact Band.stop h.x h.band (by simpa using hn) k hu
  | succ n ih =>
    intro m h hn p
    unfold circleLoop
    split
    · rename_i hxy
      obtain ⟨h', hx', hy'⟩ := midpointStep_onCircle h hxy
      dsimp only
      rw [List.mem_append, ih _ h' (by push_cast at hn; omega)]
      constructor
      · rintro (hp | ⟨u, v, hu, hr⟩)
        · exact ⟨_, _, by omega, h'.band, hp⟩
        · exact ⟨u, v, by omega, hr⟩
      · rintro ⟨u, v, hu, k, hp⟩
        by_cases e : u = m.x + 1
        · left
          rw [e, ← hx'] at k
          rw [hx', ← h'.band.unique k, ← e]; exact hp
        · exact .inr ⟨u, v, by omega, k, hp⟩
    · rename_i hxy
      simp only [List.not_mem_nil, false_iff]
      rintro ⟨u, v, hu, k, -⟩
      exact Band.stop h.x h.band (by omega) k hu

/-- `Circle` plots the circle's set (R120). -/
theorem mem_circleOf {cx cy a b : Int} {r : Nat} : (a, b) ∈ circleOf cx cy r ↔ CircleSet r (a - cx) (b - cy) := by
  unfold circleOf CircleSet
  rcases Nat.eq_zero_or_pos r with rfl | hr
  · simp [circleLoop]; omega
  · rw [if_neg (by omega), List.mem_append,
      mem_circleLoop r _ (midpointStart_onCircle hr) (by simp [midpointStart])]
    simp only [List.mem_cons, Prod.mk.injEq, List.not_mem_nil, or_false, midpointStart, mem_octants]
    generalize hu : a - cx = u
    generalize hv : b - cy = v
    have hr' : (1 : Int) ≤ r := by omega
    constructor
    · rintro (h | ⟨x, y, hx, ⟨hd, hy, ha, hb⟩, h⟩)
      · have h' : (u = 0 ∧ (v = r ∨ v = -r)) ∨ ((u = r ∨ u = -r) ∧ v = 0) := by omega
        rcases h' with ⟨rfl, rfl | rfl⟩ | ⟨rfl | rfl, rfl⟩ <;> simp <;> omega
      · have em : max ((u.natAbs : Nat) : Int) ((v.natAbs : Nat) : Int) = max x y := by omega
        have es : u * u + v * v = x * x + y * y := by
          rcases h with ⟨rfl | rfl, rfl | rfl⟩ | ⟨rfl | rfl, rfl | rfl⟩ <;> ring
        rw [em, es]
        exact ⟨ha, by omega⟩
    · rintro ⟨ha, hb⟩
      have key : ∀ x y : Int, 0 ≤ x → x ≤ y → x * x + y * y - r * r < y → -y ≤ x * x + y * y - r * r →
          (x = 0 ∧ y = r) ∨ (0 < x ∧ Band r x y) := by
        intro x y hx hxy h1 h2
        rcases hx.eq_or_lt with rfl | hx
        · left
          refine ⟨rfl, ?_⟩
          rcases lt_trichotomy y r with h | h | h
          · exfalso; have : y + 1 ≤ r := h; nlinarith
          · exact h
          · exfalso; have : (r : Int) + 1 ≤ y := h; nlinarith
        · exact .inr ⟨hx, by omega, by omega, by rwa [max_eq_right hxy], h2⟩
      rcases le_total (u.natAbs : Int) (v.natAbs : Int) with h | h
      · rw [max_eq_right h] at ha hb
        have es : u * u + v * v = (u.natAbs : Int) * u.natAbs + (v.natAbs : Int) * v.natAbs := by
          rw [Int.natAbs_mul_self', Int.natAbs_mul_self']
        rw [es] at ha hb
        rcases key _ _ (by omega) h ha hb with k | ⟨k, kb⟩
        · left; omega
        · exact .inr ⟨_, _, k, kb, by omega⟩
      · rw [max_eq_left h] at ha hb
        have es : u * u + v * v = (v.natAbs : Int) * v.natAbs + (u.natAbs : Int) * u.natAbs := by
          rw [Int.natAbs_mul_self', Int.natAbs_mul_self']; ring
        rw [es] at ha hb
        rcases key _ _ (by omega) h ha hb with k | ⟨k, kb⟩
        · left; omega
        · exact .inr ⟨_, _, k, kb, by omega⟩

/-! ## Discs -/

/-- Column `c` of the disc, up to the diagonal: the rows within the outline. -/
theorem inside_iff_of_band {r : Nat} {x y w : Int} (h : Band r x y) (hx : 0 < x) (hxy : x ≤ y) (hw : 0 ≤ w) :
    x * x + w * w - r * r < max x w ↔ w ≤ y := by
  obtain ⟨-, hy, ha, hb⟩ := h
  rw [max_eq_right hxy] at ha
  constructor
  · intro h
    by_contra hc
    rw [max_eq_right (by omega)] at h
    have : y + 1 ≤ w := by omega
    nlinarith
  · intro h
    rcases le_total x w with e | e
    · rw [max_eq_right e]; nlinarith
    · rw [max_eq_left e]
      rcases e.eq_or_lt with e | e
      · subst e; nlinarith
      · have : w + 1 ≤ x := e
        nlinarith

/-- Column `y` of the disc, past the diagonal: the rows within the last row step of the outline. -/
theorem inside_iff_of_drop {r : Nat} {x y w : Int} (hx : 0 ≤ x) (hxy : x < y) (ha : x * x + y * y - r * r < y)
    (hg : 0 ≤ (x + 1) * (x + 1) + y * y - y - r * r) (hw : 0 ≤ w) : y * y + w * w - r * r < max y w ↔ w ≤ x := by
  constructor
  · intro h
    by_contra hc
    have : x + 1 ≤ w := by omega
    rcases le_total w y with e | e
    · rw [max_eq_left e] at h; nlinarith
    · rw [max_eq_right e] at h
      have : x + 1 ≤ y := hxy
      nlinarith
  · intro h
    rw [max_eq_left (by omega)]; nlinarith

theorem mem_sideSpans {cx cy dx dy len a b : Int} :
    (a, b) ∈ sideSpans 3 cx cy dx dy len ↔ (a - cx = dx ∨ a - cx = -dx) ∧ cy - dy ≤ b ∧ b < cy - dy + len.toNat := by
  have h0 : Nat.testBit 3 0 = true := by decide
  have h1 : Nat.testBit 3 1 = true := by decide
  rw [sideSpans, h0, h1, if_pos rfl, if_pos rfl, List.mem_append, mem_vSpan, mem_vSpan]
  omega

/-- The helper fills, from a point of the circle on, every column between it and its mirror image. -/
theorem mem_fillHelperLoop {r : Nat} {cx cy a b : Int} (n : Nat) : ∀ m : Midpoint, m.OnCircle r → m.y - m.x ≤ n →
    ((a, b) ∈ fillHelperLoop 3 cx cy 1 n m m.x m.y ↔
      ∃ c : Int, m.x < c ∧ c ≤ m.y ∧ (a - cx = c ∨ a - cx = -c) ∧
        c * c + ((b - cy).natAbs : Int) * (b - cy).natAbs - r * r < max c ((b - cy).natAbs : Int)) := by
  induction n with
  | zero =>
    intro m h hn
    simp only [fillHelperLoop, List.not_mem_nil, false_iff]
    rintro ⟨c, h1, h2, -⟩
    have : m.y - m.x ≤ 0 := by simpa using hn
    omega
  | succ n ih =>
    intro m h hn
    unfold fillHelperLoop
    split
    · rename_i hxy
      obtain ⟨h', hx', hy'⟩ := midpointStep_onCircle h hxy
      have hbx := h.x
      have hba := h.band.above
      rw [max_eq_right hxy.le] at hba
      dsimp only
      have epy : (if (midpointStep m).y ≠ m.y then (midpointStep m).y else m.y) = (midpointStep m).y := by
        split
        · rfl
        · rename_i e; exact (not_not.1 e).symm
      rw [epy, List.mem_append, List.mem_append, ih _ h' (by push_cast at hn; omega)]
      have first : (a, b) ∈ (if (midpointStep m).x < (midpointStep m).y + 1 then
            sideSpans 3 cx cy (midpointStep m).x (midpointStep m).y (2 * (midpointStep m).y + 1) else []) ↔
          m.x + 1 ≤ (midpointStep m).y ∧ (a - cx = m.x + 1 ∨ a - cx = -(m.x + 1)) ∧
            (m.x + 1) * (m.x + 1) + ((b - cy).natAbs : Int) * (b - cy).natAbs - r * r
              < max (m.x + 1) ((b - cy).natAbs : Int) := by
        split
        · rename_i e
          have hb := h'.band
          rw [hx'] at hb
          rw [mem_sideSpans, inside_iff_of_band hb (by omega) (by omega) (by omega), hx']
          have := h'.band.row
          omega
        · simp; omega
      have second : (a, b) ∈ (if (midpointStep m).y ≠ m.y then sideSpans 3 cx cy m.y m.x (2 * m.x + 1) else []) ↔
          (midpointStep m).y = m.y - 1 ∧ (a - cx = m.y ∨ a - cx = -m.y) ∧
            m.y * m.y + ((b - cy).natAbs : Int) * (b - cy).natAbs - r * r < max m.y ((b - cy).natAbs : Int) := by
        split
        · rename_i e
          rcases hy' with hy' | ⟨hy', hg⟩
          · exact absurd hy' e
          · rw [mem_sideSpans, inside_iff_of_drop h.x hxy hba hg (by omega)]
            omega
        · rename_i e
          have := not_not.1 e
          simp; omega
      rw [first, second]
      constructor
      · rintro ((⟨h1, h2⟩ | ⟨h1, h2⟩) | ⟨c, h1, h2, h3⟩)
        · exact ⟨m.x + 1, by omega, by omega, h2⟩
        · exact ⟨m.y, hxy, le_refl _, h2⟩
        · exact ⟨c, by omega, by omega, h3⟩
      · rintro ⟨c, h1, h2, h3⟩
        by_cases e : c = m.y ∧ (midpointStep m).y = m.y - 1
        · obtain ⟨rfl, e⟩ := e
          exact .inl (.inr ⟨e, h3⟩)
        · by_cases e' : c = m.x + 1
          · subst e'
            exact .inl (.inl ⟨by omega, h3⟩)
          · exact .inr ⟨c, by omega, by omega, h3⟩
    · rename_i hxy
      simp only [List.not_mem_nil, false_iff]
      rintro ⟨c, h1, h2, -⟩
      omega

/-- `FillCircle` plots the disc's set (R122): the outline and all inside it. -/
theorem mem_fillCircleOf {cx cy a b : Int} {r : Nat} : (a, b) ∈ fillCircleOf cx cy r ↔ DiscSet r (a - cx) (b - cy) := by
  unfold fillCircleOf fillHelper DiscSet
  rcases Nat.eq_zero_or_pos r with rfl | hr
  · simp [fillHelperLoop]; omega
  · have e : fillHelperLoop 3 cx cy (0 + 1) r (midpointStart r) 0 r
        = fillHelperLoop 3 cx cy 1 r (midpointStart r) (midpointStart r).x (midpointStart r).y := rfl
    rw [if_neg (by omega), List.mem_append, mem_vSpan, e,
      mem_fillHelperLoop r _ (midpointStart_onCircle hr) (by simp [midpointStart])]
    simp only [midpointStart]
    have hr' : (1 : Int) ≤ r := by omega
    have eb : (b - cy) * (b - cy) = ((b - cy).natAbs : Int) * (b - cy).natAbs := (Int.natAbs_mul_self' _).symm
    have ea : (a - cx) * (a - cx) = ((a - cx).natAbs : Int) * (a - cx).natAbs := (Int.natAbs_mul_self' _).symm
    rw [ea, eb]
    have hw : (0 : Int) ≤ ((b - cy).natAbs : Int) := by omega
    generalize hwd : ((b - cy).natAbs : Int) = w at *
    constructor
    · rintro (⟨rfl, h1, h2⟩ | ⟨c, h1, h2, h3, h4⟩)
      · have : w ≤ r := by omega
        rw [sub_self]
        rw [max_eq_right (by simpa using hw)]
        simp only [Int.natAbs_zero, Nat.cast_zero, mul_zero, zero_add]
        nlinarith
      · have : ((a - cx).natAbs : Int) = c := by omega
        rw [this]; exact h4
    · intro h
      have hc : (0 : Int) ≤ ((a - cx).natAbs : Int) := by omega
      generalize hcd : ((a - cx).natAbs : Int) = c at *
      rcases hc.eq_or_lt with rfl | hc'
      · left
        rw [max_eq_right hw] at h
        have : w ≤ r := by
          by_contra hn
          have : (r : Int) + 1 ≤ w := by omega
          nlinarith
        omega
      · right
        refine ⟨c, hc', ?_, by omega, h⟩
        by_contra hn
        have : (r : Int) + 1 ≤ c := by omega
        rcases le_total c w with e | e
        · rw [max_eq_right e] at h; nlinarith
        · rw [max_eq_left e] at h; nlinarith

/-! ## The filled triangle -/

@[simp] theorem mem_rowSpan {a b y u v : Int} : (u, v) ∈ rowSpan a b y ↔ v = y ∧ min a b ≤ u ∧ u ≤ max a b := by
  rw [rowSpan, mem_hSpan]; omega

/-- The accumulators hold the products of the interpolation at every row. -/
theorem mem_scanRows {xa dxa dya xb dxb dyb u v : Int} (n : Nat) : ∀ y sa sb : Int,
    ((u, v) ∈ scanRows xa dxa dya xb dxb dyb n y sa sb ↔
      y ≤ v ∧ v < y + n ∧
        min (xa + (sa + dxa * (v - y)).tdiv dya) (xb + (sb + dxb * (v - y)).tdiv dyb) ≤ u ∧
        u ≤ max (xa + (sa + dxa * (v - y)).tdiv dya) (xb + (sb + dxb * (v - y)).tdiv dyb)) := by
  induction n with
  | zero => intro y sa sb; simp [scanRows]; intros; omega
  | succ n ih =>
    intro y sa sb
    rw [scanRows, List.mem_append, mem_rowSpan, ih]
    rw [show ∀ s d : Int, s + d + d * (v - (y + 1)) = s + d * (v - y) by intro s d; ring,
      show sb + dxb + dxb * (v - (y + 1)) = sb + dxb * (v - y) by ring]
    by_cases e : v = y
    · subst e
      simp
    · push_cast
      constructor
      · rintro (⟨h, -⟩ | ⟨h1, h2, h3⟩)
        · exact absurd h e
        · exact ⟨by omega, by omega, h3⟩
      · rintro ⟨h1, h2, h3⟩
        exact .inr ⟨by omega, by omega, h3⟩

/-- The regions of a triangle sorted by y (R128): every row from `y0` to `y2` once, between its two edges. -/
theorem mem_fillTriSorted {x0 y0 x1 y1 x2 y2 u v : Int} (h01 : y0 ≤ y1) (h12 : y1 ≤ y2) :
    (u, v) ∈ fillTriSorted x0 y0 x1 y1 x2 y2 ↔ FillTriSet x0 y0 x1 y1 x2 y2 u v := by
  unfold fillTriSorted FillTriSet
  split
  · rw [mem_hSpan]
    omega
  · rename_i h02
    dsimp only
    generalize hl : (if y1 = y2 then y1 else y1 - 1) = last
    rw [List.mem_append, mem_scanRows, mem_scanRows]
    have e1 : ∀ d : Int, 0 + d * (v - y0) = d * (v - y0) := by intro d; ring
    have e2 : ∀ d c : Int, d * (last + 1 - c) + d * (v - (last + 1)) = d * (v - c) := by intro d c; ring
    simp only [e1, e2]
    have hlast : last ≤ y2 ∧ (v ≤ last ↔ v < y1 ∨ (y1 = y2 ∧ v ≤ y1)) ∧ y0 ≤ last + 1 := by
      split at hl <;> omega
    obtain ⟨l1, l2, l3⟩ := hlast
    by_cases hv : v ≤ last
    · by_cases hy : y1 = y2
      · rw [if_pos (.inr hy)]
        unfold edgeX
        constructor
        · rintro (⟨h1, h2, h3⟩ | ⟨h1, h2, h3⟩)
          · exact ⟨by omega, by omega, h3⟩
          · omega
        · rintro ⟨h1, h2, h3⟩
          exact .inl ⟨by omega, by omega, h3⟩
      · rw [if_pos (.inl (by omega))]
        unfold edgeX
        constructor
        · rintro (⟨h1, h2, h3⟩ | ⟨h1, h2, h3⟩)
          · exact ⟨by omega, by omega, h3⟩
          · omega
        · rintro ⟨h1, h2, h3⟩
          exact .inl ⟨by omega, by omega, h3⟩
    · by_cases hc : v < y1 ∨ y1 = y2
      · constructor
        · rintro (⟨h1, h2, h3⟩ | ⟨h1, h2, h3⟩) <;> omega
        · rintro ⟨h1, h2, h3⟩; omega
      · rw [if_neg hc]
        unfold edgeX
        constructor
        · rintro (⟨h1, h2, h3⟩ | ⟨h1, h2, h3⟩)
          · omega
          · exact ⟨by omega, by omega, h3⟩
        · rintro ⟨h1, h2, h3⟩
          exact .inr ⟨by omega, by omega, h3⟩

/-- Two vertices on one row may be numbered either way (R128, "Tie order"). -/
theorem fillTriSet_swap01 {x0 x1 y x2 y2 u v : Int} : FillTriSet x0 y x1 y x2 y2 u v ↔ FillTriSet x1 y x0 y x2 y2 u v := by
  unfold FillTriSet
  split
  · omega
  · rename_i h
    dsimp only
    constructor
    · rintro ⟨h1, h2, h3, h4⟩
      have hc : ¬ (v < y ∨ y = y2) := by omega
      rw [if_neg hc] at *
      exact ⟨h1, h2, by omega, by omega⟩
    · rintro ⟨h1, h2, h3, h4⟩
      have hc : ¬ (v < y ∨ y = y2) := by omega
      rw [if_neg hc] at *
      exact ⟨h1, h2, by omega, by omega⟩

/-- As `fillTriSet_swap01`, for the two lower vertices. -/
theorem fillTriSet_swap12 {x0 y0 x1 x2 y u v : Int} : FillTriSet x0 y0 x1 y x2 y u v ↔ FillTriSet x0 y0 x2 y x1 y u v := by
  unfold FillTriSet
  split
  · omega
  · dsimp only
    rw [if_pos (.inr rfl), if_pos (.inr rfl)]
    omega

/-- What holds of the two orders of two points holds of any permutation of them. -/
theorem perm_two_elim {q r : Point} {C : Point → Point → Prop} (hqr : C q r) (hrq : C r q) {b c : Point}
    (h : List.Perm [b, c] [q, r]) : C b c := by
  by_cases hb : b = q
  · subst hb
    have hc := List.perm_singleton.1 h.cons_inv
    injection hc with hc
    rwa [hc]
  · have hb' : b = r := by
      have := h.subset List.mem_cons_self
      simpa [hb] using this
    subst hb'
    have hc := List.perm_singleton.1 (h.trans (List.Perm.swap b q [])).cons_inv
    injection hc with hc
    rwa [hc]

/-- What holds of the six orders of three points holds of any permutation of them. -/
theorem perm_three_elim {p q r : Point} {C : Point → Point → Point → Prop} (pqr : C p q r) (prq : C p r q) (qpr : C q p r)
    (qrp : C q r p) (rpq : C r p q) (rqp : C r q p) {a b c : Point} (h : List.Perm [a, b, c] [p, q, r]) : C a b c := by
  by_cases hp : a = p
  · subst hp
    exact perm_two_elim (C := C a) pqr prq h.cons_inv
  by_cases hq : a = q
  · subst hq
    exact perm_two_elim (C := C a) qpr qrp (h.trans (List.Perm.swap a p [r])).cons_inv
  · have hr : a = r := by
      have := h.subset List.mem_cons_self
      simpa [hp, hq] using this
    subst hr
    have front : List.Perm [p, q, a] [a, p, q] := ((List.Perm.swap a q []).cons p).trans (List.Perm.swap a p [q])
    exact perm_two_elim (C := C a) rpq rqp (h.trans front).cons_inv

/-- Two orders of one triangle that are both sorted by y have one set (R128, "Tie order"). -/
theorem fillTriSet_perm {p q r a b c : Point} (h1 : p.2 ≤ q.2) (h2 : q.2 ≤ r.2) (k1 : a.2 ≤ b.2) (k2 : b.2 ≤ c.2)
    (hp : List.Perm [a, b, c] [p, q, r]) (u v : Int) :
    FillTriSet a.1 a.2 b.1 b.2 c.1 c.2 u v ↔ FillTriSet p.1 p.2 q.1 q.2 r.1 r.2 u v := by
  have row : ∀ x y z : Point, x.2 = z.2 → (FillTriSet x.1 x.2 y.1 y.2 z.1 z.2 u v ↔
      v = x.2 ∧ min x.1 (min y.1 z.1) ≤ u ∧ u ≤ max x.1 (max y.1 z.1)) := by
    intro x y z h
    unfold FillTriSet
    rw [if_pos h]
  have flat : p.2 = r.2 → (FillTriSet a.1 a.2 b.1 b.2 c.1 c.2 u v ↔ FillTriSet p.1 p.2 q.1 q.2 r.1 r.2 u v) := by
    intro h
    rw [row p q r h]
    refine perm_three_elim (C := fun x y z => FillTriSet x.1 x.2 y.1 y.2 z.1 z.2 u v ↔ _) ?_ ?_ ?_ ?_ ?_ ?_ hp
    all_goals exact (row _ _ _ (by omega)).trans (by omega)
  revert k1 k2 flat
  refine perm_three_elim (C := fun x y z => x.2 ≤ y.2 → y.2 ≤ z.2 → (_ → (FillTriSet x.1 x.2 y.1 y.2 z.1 z.2 u v ↔ _)) →
    (FillTriSet x.1 x.2 y.1 y.2 z.1 z.2 u v ↔ _)) ?_ ?_ ?_ ?_ ?_ ?_ hp
  · exact fun _ _ _ => Iff.rfl
  · intro k1 k2 _
    rw [show q.2 = r.2 by omega]
    exact fillTriSet_swap12
  · intro k1 k2 _
    rw [show p.2 = q.2 by omega]
    exact fillTriSet_swap01
  all_goals exact fun k1 k2 flat => flat (by omega)

/-- The three swaps sort (R128). -/
theorem fillTriOf_sorts (a b c : Point) :
    ∃ p q r : Point, List.Perm [p, q, r] [a, b, c] ∧ p.2 ≤ q.2 ∧ q.2 ≤ r.2 ∧
      fillTriOf a.1 a.2 b.1 b.2 c.1 c.2 = fillTriSorted p.1 p.2 q.1 q.2 r.1 r.2 := by
  unfold fillTriOf fillTriSwap2 fillTriSwap3
  split_ifs
  · exact ⟨c, b, a, by
      exact (List.Perm.swap b c [a]).trans ((List.Perm.cons b (List.Perm.swap a c [])).trans (List.Perm.swap a b [c])),
      by omega, by omega, rfl⟩
  · exact ⟨b, c, a, by
      exact (List.Perm.cons b (List.Perm.swap a c [])).trans (List.Perm.swap a b [c]), by omega, by omega, rfl⟩
  · omega
  · exact ⟨b, a, c, List.Perm.swap a b [c], by omega, by omega, rfl⟩
  · exact ⟨c, a, b, by
      exact (List.Perm.swap a c [b]).trans (List.Perm.cons a (List.Perm.swap b c [])), by omega, by omega, rfl⟩
  · exact ⟨a, c, b, List.Perm.cons a (List.Perm.swap b c []), by omega, by omega, rfl⟩
  · exact ⟨a, b, c, List.Perm.refl _, by omega, by omega, rfl⟩

/-- `FillTri` plots one set for every order of the three vertices (R128). -/
theorem mem_fillTriOf {p q r a b c : Point} (h1 : p.2 ≤ q.2) (h2 : q.2 ≤ r.2)
    (hp : List.Perm [a, b, c] [p, q, r]) (u v : Int) :
    (u, v) ∈ fillTriOf a.1 a.2 b.1 b.2 c.1 c.2 ↔ FillTriSet p.1 p.2 q.1 q.2 r.1 r.2 u v := by
  obtain ⟨p', q', r', hp', k1, k2, e⟩ := fillTriOf_sorts a b c
  rw [e, mem_fillTriSorted k1 k2]
  exact fillTriSet_perm h1 h2 k1 k2 (hp'.trans hp) u v

end Sys2Proof.Machine
end

