-- ==== Sys2Proof/Laws/Step.lean ====
section
/-! SUPPORT. What one step can do, by the event it takes (spec/20_memory.md R58, spec/10_state.md R34), what the timer
transition and a command can do to the power state (spec/60_exceptions.md R184), the form all activity commands share
(R180, R181), and the bits of a packed byte (spec/43_canvas_pack.md R141). -/

namespace Sys2Proof.Machine

theorem step_before (s : State) (e : Event) : step (s.before e) = onEvent e s := rfl

theorem step_command (s : State) (w : Word) : step (s.before (.command w)) = handOver w s := rfl

theorem step_fire (s : State) : step (s.before .fire) = timerFires s := rfl

/-- Everything a step that answers a next state did. -/
theorem step_cases {s t : State} (h : step s = .next t) :
    (s.inputs = [] ∧ t = s) ∨
    (∃ w rest, s.inputs = .command w :: rest ∧ handOver w { s with inputs := rest } = .next t) ∨
    (∃ rest, s.inputs = .fire :: rest ∧ timerFires { s with inputs := rest } = .next t) ∨
    (∃ c rest, s.inputs = .present c :: rest ∧ t = { s with inputs := rest, canvas := c }) ∨
    (∃ c rest, s.inputs = .clock c :: rest ∧ t = { s with inputs := rest, now := max s.now c }) ∨
    (∃ rest, s.inputs = .reset :: rest ∧ t = resetBlock { s with inputs := rest }) := by
  unfold step nextEvent at h
  split at h
  · rename_i hi
    cases h
    exact .inl ⟨hi, rfl⟩
  · rename_i e rest hi
    cases e with
    | command w => exact .inr (.inl ⟨w, rest, hi, h⟩)
    | fire => exact .inr (.inr (.inl ⟨rest, hi, h⟩))
    | present c => cases h; exact .inr (.inr (.inr (.inl ⟨c, rest, hi, rfl⟩)))
    | clock c => cases h; exact .inr (.inr (.inr (.inr (.inl ⟨c, rest, hi, rfl⟩))))
    | reset => cases h; exact .inr (.inr (.inr (.inr (.inr ⟨rest, hi, rfl⟩))))

/-- A word handed over: its instruction, or the illegal word of 30_encoding.md R82. -/
theorem handOver_cases {s t : State} {w : Word} (h : handOver w s = .next t) :
    (∃ i, decode w = some i ∧ exec i s = .next t) ∨
      (decode w = none ∧ s.Usable ∧ t = s.noteIllegal.complete .illegal 0) := by
  unfold handOver at h
  split at h
  · rename_i i hi
    exact .inl ⟨i, hi, h⟩
  · rename_i hi
    obtain ⟨a, b⟩ := guarded_next.1 h
    exact .inr ⟨hi, a, b.symm⟩

/-- A fire that ran (60_exceptions.md R183). -/
theorem timerFires_next {s t : State} (h : timerFires s = .next t) :
    s.Usable ∧ s.timer ≠ .stopped ∧ t = (idleFire s).st := by
  unfold timerFires at h
  split at h
  · cases h
  · rename_i ht
    obtain ⟨a, b⟩ := guarded_next.1 h
    exact ⟨a, by rw [ht]; simp, b.symm⟩

theorem timerFires_armed {s : State} {p : TimerPhase} {t0 : Rat} (hu : s.Usable) (h : s.timer = .armed p t0) :
    timerFires s = .next (idleFire s).st := by
  unfold timerFires
  rw [h]
  exact guarded_usable _ hu

/-- How the timer transition stands agrees with the state it left (60_exceptions.md R186, R191). -/
theorem idleFire_tells (s : State) : Ran.Tells s (idleFire s) := by
  have h0 : Ran.Tells s (going (s.setTimer .stopped)) :=
    ⟨by simp, by intro h; simp [State.setTimer, h], fun _ => rfl⟩
  have hk : ∀ (g : State → State), (∀ u, (g u).hung = u.hung ∧ (g u).flags = u.flags) → ∀ u, Ran.Tells u (going (g u)) :=
    fun g e u => ⟨by simp, by intro h; simp [(e u).1, h], fun _ => (e u).2⟩
  unfold idleFire
  dsimp only
  split
  · exact h0
  · split
    · have h := fadeTo_tells 0 { s.setTimer .stopped with preDim := (s.setTimer .stopped).contrast }
      have h' : Ran.Tells s (fadeTo 0 { s.setTimer .stopped with preDim := (s.setTimer .stopped).contrast }) :=
        ⟨h.1, h.2, h.3⟩
      exact h'.andThen (hk _ fun _ => ⟨rfl, rfl⟩)
    · have h := busTransfer_tells (.cmd .displayOff) (s.setTimer .stopped)
      have h' : Ran.Tells s (busCmd .displayOff (s.setTimer .stopped)) := ⟨h.1, h.2, h.3⟩
      exact h'.andThen (hk _ fun _ => ⟨rfl, rfl⟩)
    · exact h0
    · exact h0

/-- The timer transition leads from On to Dim, from Dim to Sleep, or nowhere (60_exceptions.md R183, R184). -/
theorem idleFire_pstate (s : State) :
    (idleFire s).st.pstate = s.pstate ∨ (s.pstate = .on ∧ (idleFire s).st.pstate = .dim) ∨
      (s.pstate = .dim ∧ (idleFire s).st.pstate = .sleep) := by
  unfold idleFire
  dsimp only
  split
  · exact .inl rfl
  · split
    · rename_i hp
      have f := fadeTo_frame 0 { s.setTimer .stopped with preDim := (s.setTimer .stopped).contrast }
      unfold Ran.andThen
      split
      · exact .inr (.inl ⟨hp, rfl⟩)
      · exact .inl f.pstate
      · exact .inl f.pstate
    · rename_i hp
      have f := busTransfer_frame (.cmd .displayOff) (s.setTimer .stopped)
      unfold busCmd Ran.andThen
      split
      · exact .inr (.inr ⟨hp, rfl⟩)
      · exact .inl f.pstate
      · exact .inl f.pstate
    · exact .inl rfl
    · exact .inl rfl

/-! ## Activity commands -/

/-- What an activity command runs after its activity reset: plots alone, or a write to the buffer and then a frame. -/
theorem activity_form {i : Instr} (h : i.isActivity = true) :
    ∃ f : State → Ran, Tail f ∧ (i.sendsFrame = false → ∀ s, ∃ fb, f s = going { s with fb := fb }) ∧
      ∀ s, exec i s = runCommand .whenRunning (fun s => ((activityReset s).andThen f).finish) s := by
  have dr : ∀ pts, (∀ s, exec i s = drawing pts s) →
      ∃ f : State → Ran, Tail f ∧ (i.sendsFrame = false → ∀ s, ∃ fb, f s = going { s with fb := fb }) ∧
        ∀ s, exec i s = runCommand .whenRunning (fun s => ((activityReset s).andThen f).finish) s := by
    intro pts e
    refine ⟨fun s => going (s.plotAll pts), tail_plot pts, fun _ s => ⟨(s.plotAll pts).fb, by rw [← State.plotAll_eq]⟩, ?_⟩
    intro s
    rw [e]
    unfold drawing
    rfl
  cases i
  case setPixel => cases h
  case getPixel => cases h
  case clearBuffer => cases h
  case rdByte => cases h
  case setContrast => cases h
  case init => cases h
  case release => cases h
  case rdReg => cases h
  case clearScreen =>
    refine ⟨_, tail_transmit (g := zeroFill) (fun _ => rfl) (fun s => memInv_sweep s _), (by intro k; cases k), fun s => ?_⟩
    change execClearScreen s = _
    unfold execClearScreen
    rfl
  case sendBuffer =>
    refine ⟨_, tail_transmit (g := id) (fun _ => rfl) (fun s h => h), (by intro k; cases k), fun s => ?_⟩
    change execSendBuffer s = _
    unfold execSendBuffer
    rfl
  case displayImage =>
    refine ⟨_, tail_transmit (g := packCanvas) (fun _ => rfl) (fun s => memInv_sweep s _), (by intro k; cases k), fun s => ?_⟩
    change execDisplayImage s = _
    unfold execDisplayImage
    rfl
  all_goals exact dr _ (fun _ => rfl)

/-- The power state after any command: as before, or On by INIT or by activity, or Off by RELEASE. -/
theorem exec_pstate {i : Instr} {s t : State} (h : exec i s = .next t) :
    t.pstate = s.pstate ∨ (i = .init ∧ s.pstate = .off ∧ t.pstate = .on) ∨ (i = .release ∧ t.pstate = .off) ∨
      (i.isActivity = true ∧ s.pstate ≠ .off ∧ t.pstate = .on) := by
  have fin : ∀ r : Ran, r.finish.pstate = r.st.pstate := by
    intro r
    unfold Ran.finish
    split <;> rfl
  by_cases hi : i.isActivity = true
  · obtain ⟨f, hf, -, e⟩ := activity_form hi
    rw [e] at h
    obtain ⟨-, ⟨st, -, rfl⟩ | ⟨ha, rfl⟩⟩ := runCommand_next h
    · exact .inl rfl
    · have hp := (admitStatus_none_running ha).2
      obtain ⟨-, -, -, ⟨a, b, -⟩ | ⟨a, b, -⟩⟩ := activityReset_cases s
      · rw [fin, Ran.eq_going a, going_andThen]
        obtain ⟨fb, hw⟩ := hf.write (activityReset s).st
        exact .inr (.inr (.inr ⟨hi, hp, hw.pstate.trans (b hp)⟩))
      · rw [fin, Ran.andThen_of_stopped _ a]
        exact .inl b
  · have rc : ∀ a body, runCommand a body s = .next t → (body s).pstate = s.pstate → t.pstate = s.pstate := by
      intro a body e hb
      obtain ⟨-, ⟨st, -, rfl⟩ | ⟨-, rfl⟩⟩ := runCommand_next e
      · rfl
      · exact hb
    cases i
    case setPixel x y on =>
      change execSetPixel x y on s = _ at h
      unfold execSetPixel at h
      exact .inl (rc _ _ h (by rw [State.setPixel_eq]; rfl))
    case getPixel x y =>
      change execGetPixel x y s = _ at h
      unfold execGetPixel at h
      exact .inl (rc _ _ h (by split <;> rfl))
    case clearBuffer =>
      change execClearBuffer s = _ at h
      unfold execClearBuffer at h
      exact .inl (rc _ _ h rfl)
    case rdByte x =>
      change execRdByte x s = _ at h
      unfold execRdByte at h
      exact .inl (rc _ _ h (by split <;> rfl))
    case rdReg x =>
      change execRdReg x s = _ at h
      unfold execRdReg at h
      exact .inl (rc _ _ h (by split <;> rfl))
    case setContrast p =>
      change execSetContrast p s = _ at h
      unfold execSetContrast at h
      exact .inl (rc _ _ h (by rw [fin]; exact (fadeTo_frame _ _).pstate))
    case release =>
      change execRelease s = _ at h
      unfold execRelease at h
      obtain ⟨-, ⟨st, -, rfl⟩ | ⟨ha, rfl⟩⟩ := runCommand_next h
      · exact .inl rfl
      · exact .inr (.inr (.inl ⟨rfl, rfl⟩))
    case init =>
      change execInit s = _ at h
      unfold execInit at h
      obtain ⟨-, ⟨st, -, rfl⟩ | ⟨ha, rfl⟩⟩ := runCommand_next h
      · exact .inl rfl
      · have hp : s.pstate = .off := by
          by_contra hp
          unfold admitStatus at ha
          dsimp only at ha
          rw [if_neg hp] at ha
          split at ha <;> cases ha
        rw [fin]
        unfold Ran.andThen
        split
        · refine .inr (.inl ⟨rfl, hp, ?_⟩)
          rw [going_st, restartTimer_eq]
        · exact .inl (busCmds_frame _ _).pstate
        · exact .inl (busCmds_frame _ _).pstate
    all_goals exact absurd rfl hi

/-! ## The canvas pack -/

/-- Bit `i` of a packed byte (43_canvas_pack.md R141). -/
theorem packByte_bit (s : State) (page col i : Nat) (h : i < 8) :
    (packByte s page col).getLsbD i = decide (s.cvRead col (page * 8 + i) ≠ 0) := by
  have pos : ∀ b : Byte, (b > 0#8) = (b ≠ 0) := by
    intro b
    apply propext
    constructor <;> (revert b; decide)
  have cond : ∀ (p : Prop) [Decidable p], (if p then 1#8 else 0#8) = bif decide p then 1#8 else 0#8 := by
    intro p _
    by_cases p <;> simp [*]
  have key : ∀ (a0 a1 a2 a3 a4 a5 a6 a7 : Bool) (i : Fin 8),
      (((((((((0#8 <<< 1) ||| bif a7 then 1#8 else 0#8) <<< 1 ||| bif a6 then 1#8 else 0#8) <<< 1
        ||| bif a5 then 1#8 else 0#8) <<< 1 ||| bif a4 then 1#8 else 0#8) <<< 1 ||| bif a3 then 1#8 else 0#8) <<< 1
        ||| bif a2 then 1#8 else 0#8) <<< 1 ||| bif a1 then 1#8 else 0#8) <<< 1
        ||| bif a0 then 1#8 else 0#8).getLsbD i = [a0, a1, a2, a3, a4, a5, a6, a7][i] := by decide
  unfold packByte
  simp only [show List.range 8 = [0, 1, 2, 3, 4, 5, 6, 7] from rfl, List.foldl, pos, cond]
  generalize hf : (fun n => s.cvRead col (page * 8 + n)) = f
  have e : ∀ n, s.cvRead col (page * 8 + n) = f n := fun n => by rw [← hf]
  simp only [e]
  refine (key (decide (f 0 ≠ 0)) (decide (f 1 ≠ 0)) (decide (f 2 ≠ 0)) (decide (f 3 ≠ 0)) (decide (f 4 ≠ 0))
    (decide (f 5 ≠ 0)) (decide (f 6 ≠ 0)) (decide (f 7 ≠ 0)) ⟨i, h⟩).trans ?_
  interval_cases i <;> rfl

end Sys2Proof.Machine
end

