-- ==== Sys2Proof/Tests/Slice0.lean ====
section
/-! SUPPORT. The model's own tests. Expected results come from spec/30_encoding.md R74, R82, R83, R85 and from the vectors of
spec/95_test_vectors.md (named in each docstring), never from the model. After them, one witness for the hypotheses of
each obligation that has any. -/

namespace Sys2Proof.Tests

open Sys2Proof.Machine

/-! ## Well-formed operands (30_encoding.md R72): each check refuses a term out of its slot -/

theorem test_wf_signed_bounds : isSigned16 (-32768) = true ∧ isSigned16 32767 = true ∧ isSigned16 (-32769) = false ∧
    isSigned16 32768 = false := by decide

theorem test_wf_unsigned_bounds : isUnsigned16 0 = true ∧ isUnsigned16 65535 = true ∧ isUnsigned16 65536 = false := by decide

theorem test_wf_pixel_refused : (Instr.setPixel 32768 1 true).wellFormed = false ∧
    (Instr.setPixel 1 (-32769) true).wellFormed = false ∧ (Instr.getPixel 32768 1).wellFormed = false ∧
    (Instr.getPixel 1 32768).wellFormed = false := by decide

theorem test_wf_index_refused : (Instr.rdByte 65536).wellFormed = false ∧ (Instr.rdReg 65536).wellFormed = false ∧
    (Instr.setContrast 32768).wellFormed = false ∧ (Instr.setContrast (-32769)).wellFormed = false := by decide

theorem test_wf_three_refused :
    ([.hLine 32768 1 1, .hLine 1 32768 1, .hLine 1 1 65536, .vLine 32768 1 1, .vLine 1 32768 1, .vLine 1 1 65536,
      .square 32768 1 1, .square 1 32768 1, .square 1 1 65536, .fillSquare 32768 1 1, .fillSquare 1 32768 1,
      .fillSquare 1 1 65536, .circle 32768 1 1, .circle 1 32768 1, .circle 1 1 65536, .fillCircle 32768 1 1,
      .fillCircle 1 32768 1, .fillCircle 1 1 65536] : List Instr).all (fun i => !i.wellFormed) = true := by decide

theorem test_wf_four_refused :
    ([.line 32768 1 1 1, .line 1 32768 1 1, .line 1 1 32768 1, .line 1 1 1 32768, .rect 32768 1 1 1, .rect 1 32768 1 1,
      .rect 1 1 65536 1, .rect 1 1 1 65536, .fillRect 32768 1 1 1, .fillRect 1 32768 1 1, .fillRect 1 1 65536 1,
      .fillRect 1 1 1 65536, .triBox 32768 1 1 1, .triBox 1 32768 1 1, .triBox 1 1 65536 1, .triBox 1 1 1 65536]
      : List Instr).all (fun i => !i.wellFormed) = true := by decide

theorem test_wf_six_refused :
    ([.tri 32768 1 1 1 1 1, .tri 1 32768 1 1 1 1, .tri 1 1 32768 1 1 1, .tri 1 1 1 32768 1 1, .tri 1 1 1 1 32768 1,
      .tri 1 1 1 1 1 32768, .fillTri 32768 1 1 1 1 1, .fillTri 1 32768 1 1 1 1, .fillTri 1 1 32768 1 1 1,
      .fillTri 1 1 1 32768 1 1, .fillTri 1 1 1 1 32768 1, .fillTri 1 1 1 1 1 32768] : List Instr).all
      (fun i => !i.wellFormed) = true := by decide

/-! ## Decoding: the words of 95_test_vectors.md section 2.1, one per command -/

theorem test_decode_pixel_store :
    decode 0x01000001004000200000000000000000#128 = some (.setPixel 64 32 true) ∧
    decode 0x01000000FFFF00C80000000000000000#128 = some (.setPixel (-1) 200 false) ∧
    decode 0x02000000004000200000000000000000#128 = some (.getPixel 64 32) ∧
    decode 0x03000000000000000000000000000000#128 = some .clearBuffer ∧
    decode 0x04000000000000000000000000000000#128 = some .clearScreen ∧
    decode 0x0500000001BF00000000000000000000#128 = some (.rdByte 447) := by decide

theorem test_decode_lines :
    decode 0x10000000000300020005000000000000#128 = some (.hLine 3 2 5) ∧
    decode 0x110000000080003C000A000000000000#128 = some (.vLine 128 60 10) ∧
    decode 0x12000000000100010008000400000000#128 = some (.line 1 1 8 4) := by decide

theorem test_decode_rects :
    decode 0x13000000000200020005000300000000#128 = some (.rect 2 2 5 3) ∧
    decode 0x14000000000200020002000000000000#128 = some (.square 2 2 2) ∧
    decode 0x15000000007F003F0005000500000000#128 = some (.fillRect 127 63 5 5) ∧
    decode 0x16000000000100010003000000000000#128 = some (.fillSquare 1 1 3) := by decide

theorem test_decode_circles_triangles :
    decode 0x17000000004000200010000000000000#128 = some (.circle 64 32 16) ∧
    decode 0x18000000000A000A0002000000000000#128 = some (.fillCircle 10 10 2) ∧
    decode 0x19000000000A00020004000A0010000A#128 = some (.tri 10 2 4 10 16 10) ∧
    decode 0x1A000000000A0006000C000800000000#128 = some (.triBox 10 6 12 8) ∧
    decode 0x1B000000000A00020004000A0010000A#128 = some (.fillTri 10 2 4 10 16 10) := by decide

theorem test_decode_transmission_system :
    decode 0x30000000000000000000000000000000#128 = some .sendBuffer ∧
    decode 0x31000000000000000000000000000000#128 = some .displayImage ∧
    decode 0x32000000002800000000000000000000#128 = some (.setContrast 40) ∧
    decode 0x32000000FFFB00000000000000000000#128 = some (.setContrast (-5)) ∧
    decode 0x40000000000000000000000000000000#128 = some .init ∧
    decode 0x41000000000000000000000000000000#128 = some .release ∧
    decode 0x42000000000600000000000000000000#128 = some (.rdReg 6) := by decide

/-- The illegal words of section 2.1, with R82's two reasons. -/
theorem test_decode_illegal :
    decodeOr 0x00000000000000000000000000000000#128 = .error .reservedOpcode ∧
    decodeOr 0x06000000000000000000000000000000#128 = .error .reservedOpcode ∧
    decodeOr 0xFF000000000000000000000000000000#128 = .error .reservedOpcode ∧
    decodeOr 0x03000000000000000000000000000001#128 = .error .nonzeroFixedBit ∧
    decodeOr 0x10000001000300020005000000000000#128 = .error .nonzeroFixedBit ∧
    decodeOr 0x01000002000100010000000000000000#128 = .error .nonzeroFixedBit ∧
    decodeOr 0x12000000000100010008000400010000#128 = .error .nonzeroFixedBit := by
  refine ⟨?_, ?_, ?_, ?_, ?_, ?_, ?_⟩ <;> rfl

/-- R74, R83: the 23 opcodes and no other byte, each alone in an otherwise zero word. -/
theorem test_decode_opcodes :
    ((List.range 256).filter fun n => (decode (opcodePart (BitVec.ofNat 8 n))).isSome) = legalOpcodes := by decide +kernel

theorem test_encode_boundary :
    encode (.hLine (-32768) 32767 65535) = 0x1000000080007FFFFFFF000000000000#128 ∧
    encode (.setPixel 1 1 true) = 0x01000001000100010000000000000000#128 := by decide

/-! ## Small states -/

/-- The small configuration of 95_test_vectors.md, `CONTRAST_INIT = 5`, three commands in INITSEQ. -/
def small : Config :=
  { columns := 16, rows := 32, dimSeconds := 45, sleepSeconds := 60, contrastInit := 5,
    initSeq := [.other 0, .other 1, .other 2], tie := { up10 := true, up30 := true, up50 := true, up70 := true, up90 := true } }

def zeros (n : Nat) : Memory := (List.range n).map fun i => (i, 0)

/-- On, buffer zero, contrast 5, the timer armed. -/
def start : State :=
  { State.resetOf small 0 with
    fb := zeros 64, pstate := .on, contrast := 5, preDim := 3, timer := .armed .dimPhase 0 }

/-- Dim, as the timer leaves it with `preDim = 3`. -/
def dimmed : State := { start with pstate := .dim, contrast := 0, timer := .armed .sleepPhase 0 }

/-- Sleep, likewise. -/
def asleep : State := { start with pstate := .sleep, contrast := 0, timer := .stopped }

def turnedOff : State := { start with pstate := .off, timer := .stopped }

def failed : State := { start with flags := { busErrSeen := false, fatal := true, illegalSeen := false } }

def stuck : State := { start with hung := true }

/-- The default configuration; the first two pages of the buffer, which the drawing vectors stay in, zero. -/
def panel : State := { start with cfg := Config.standard, fb := zeros 256 }

/-- `s` with a device that accepts `k` transfers and refuses the next. -/
def State.refusing (s : State) (k : Nat) : State := { s with device := List.replicate k .accept ++ [.refuse] }

/-- `s` with a device that accepts `k` transfers and never answers the next. -/
def State.silentAt (s : State) (k : Nat) : State := { s with device := List.replicate k .accept ++ [.silent] }

abbrev Result := Host.Outcome State Fault Refusal

def Result.is (o : Result) (p : State → Bool) : Bool :=
  match o with
  | .next t => p t
  | .fault _ => false
  | .refused _ => false

/-- The last completion record handed over. -/
def State.last (s : State) : Option Completion := s.completions.getLast?

def okWith (d : Half) : Option Completion := some { status := .ok, data := d }

/-- The bytes of the buffer that are not 0, by address. -/
def State.lit (s : State) : List Host.Cell := s.fb.filter fun c => c.2 ≠ 0

/-- Equal bytes at consecutive addresses. -/
def span (first last : Nat) (b : Byte) : List Host.Cell := (List.range (last + 1 - first)).map fun i => (first + i, b)

/-- A drawing command leaves exactly these bytes lit, and completes OK. -/
def paints (i : Instr) (s : State) (cells : List Host.Cell) : Bool :=
  Result.is (exec i s) fun t => decide (State.lit t = cells ∧ State.last t = okWith 0)

/-! ## One step per command -/

/-- F2's corner on the small panel: last byte, most significant bit. -/
theorem test_setPixel_corner : paints (.setPixel 16 32 true) start [(63, 0x80)] = true := by decide +kernel

/-- F4: off the panel nothing changes and the record is OK. -/
theorem test_setPixel_off_panel : paints (.setPixel (-32768) 32767 true) start [] = true := by decide +kernel

theorem test_getPixel_reads : Result.is (exec (.getPixel 5 6) { start with fb := [(4, 0x20)] })
    (fun t => decide (State.last t = okWith 1)) = true := by decide

/-- X2: column 17 of 16. -/
theorem test_getPixel_range : Result.is (exec (.getPixel 17 1) start)
    (fun t => decide (State.last t = some { status := .range, data := 0 } ∧ t.flags = start.flags)) = true := by decide

theorem test_clearBuffer : Result.is (exec .clearBuffer { dimmed with fb := [(7, 0xAA)] })
    (fun t => decide (t.fb = zeros 64 ∧ t.trace = [] ∧ t.pstate = .dim)) = true := by decide +kernel

/-- X4's prefix: refused at chunk 1, the whole buffer already cleared. -/
theorem test_clearScreen_refused : Result.is (exec .clearScreen (State.refusing start 3))
    (fun t => decide (State.last t = some { status := .busErr, data := 0 } ∧ t.fb = zeros 64 ∧
      t.trace = [.cmd (.setColumnAddress 0 15), .cmd (.setPageRange 0 3), .data (List.replicate 16 0)])) = true := by
  decide +kernel

/-- X2 and Program A word 8: the last byte, and the first index out of range. -/
theorem test_rdByte : Result.is (exec (.rdByte 63) { start with fb := [(63, 0xF1)] })
      (fun t => decide (State.last t = okWith 0xF1)) = true ∧
    Result.is (exec (.rdByte 64) start) (fun t => decide (State.last t = some { status := .range, data := 0 })) = true := by
  decide

/-- H3: seven of ten pixels on the panel. -/
theorem test_hLine_clipped : paints (.hLine (-2) 5 10) panel (span 0 6 0x10) = true := by decide +kernel

/-- V1: across a page boundary. -/
theorem test_vLine_pages : paints (.vLine 2 7 4) panel [(1, 0xC0), (129, 0x03)] = true := by decide +kernel

/-- B2: the endpoints of B1 swapped. -/
theorem test_line_swapped : paints (.line 8 4 1 1) panel
    [(0, 1), (1, 1), (2, 2), (3, 2), (4, 4), (5, 4), (6, 8), (7, 8)] = true := by decide +kernel

/-- B3: a steep line. -/
theorem test_line_steep : paints (.line 1 1 4 8) panel [(0, 0x03), (1, 0x0C), (2, 0x30), (3, 0xC0)] = true := by
  decide +kernel

/-- Q1. -/
theorem test_rect : paints (.rect 2 2 5 3) panel [(1, 0x0E), (2, 0x0A), (3, 0x0A), (4, 0x0A), (5, 0x0E)] = true := by
  decide +kernel

/-- Q10. -/
theorem test_square : paints (.square 10 10 4) panel [(137, 0x1E), (138, 0x12), (139, 0x12), (140, 0x1E)] = true := by
  decide +kernel

/-- Q14: clipped at the origin. -/
theorem test_fillRect_clipped : paints (.fillRect 0 0 3 3) panel (span 0 1 0x03) = true := by decide +kernel

/-- Q18. -/
theorem test_fillSquare : paints (.fillSquare 3 7 4) panel (span 2 5 0xC0 ++ span 130 133 0x03) = true := by decide +kernel

/-- O4. -/
theorem test_circle_3 : paints (.circle 10 10 3) panel
    ([(7, 0x80)] ++ span 8 10 0x40 ++ [(11, 0x80), (134, 0x07), (135, 0x08)] ++ span 136 138 0x10
      ++ [(139, 0x08), (140, 0x07)]) = true := by decide +kernel

/-- O2. -/
theorem test_circle_1 : paints (.circle 10 10 1) panel [(136, 0x02), (137, 0x05), (138, 0x02)] = true := by decide +kernel

/-- O12. -/
theorem test_fillCircle_3 : paints (.fillCircle 10 10 3) panel
    ([(7, 0x80)] ++ span 8 10 0xC0 ++ [(11, 0x80), (134, 0x07), (135, 0x0F)] ++ span 136 138 0x1F
      ++ [(139, 0x0F), (140, 0x07)]) = true := by decide +kernel

/-- T5. -/
theorem test_tri : paints (.tri 2 2 7 2 2 7) panel
    [(1, 0x7E), (2, 0x22), (3, 0x12), (4, 0x0A), (5, 0x06), (6, 0x02)] = true := by decide +kernel

/-- T6: odd sizes, the halves truncate. -/
theorem test_triBox_odd : paints (.triBox 10 6 7 5) panel
    [(6, 0x80), (7, 0xC0), (8, 0xB0), (9, 0x88), (10, 0xB0), (11, 0xC0), (12, 0x80)] = true := by decide +kernel

/-- T9: truncating division. -/
theorem test_fillTri_truncates : paints (.fillTri 10 2 4 10 16 10) panel
    ([(5, 0x80), (6, 0xE0), (7, 0xF0), (8, 0xF8), (9, 0xFE), (10, 0xF8), (11, 0xF0), (12, 0xE0), (13, 0x80), (131, 0x02)]
      ++ span 132 142 0x03 ++ [(143, 0x02)]) = true := by decide +kernel

/-- T15: vertices out of order. -/
theorem test_fillTri_order : paints (.fillTri 4 9 10 4 2 2) panel
    ([(1, 0x1E)] ++ span 2 5 0xFC ++ [(6, 0x78), (7, 0x38), (8, 0x18), (9, 0x08), (131, 0x01)]) = true := by decide +kernel

/-- Y8 in small (Program B, word 16, from Sleep): the wake, then the frame. -/
theorem test_sendBuffer_wakes : Result.is (exec .sendBuffer { asleep with fb := span 0 63 0x02 })
    (fun t => decide (t.pstate = .on ∧ t.contrast = 3 ∧ t.timer = .armed .dimPhase 0 ∧
      t.trace = [.cmd .displayOn, .cmd (.setContrast 1), .cmd (.setContrast 2), .cmd (.setContrast 3),
        .cmd (.setColumnAddress 0 15), .cmd (.setPageRange 0 3)] ++ List.replicate 4 (.data (List.replicate 16 2)))) = true := by
  decide +kernel

/-- G1's byte `89`: luminances 255, 12 and 1 in rows 0, 3 and 7; every old byte is gone. -/
theorem test_displayImage_packs : Result.is
    (exec .displayImage { start with fb := span 0 63 0xFF, canvas := [(0, 255), (48, 12), (112, 1)] })
    (fun t => decide (State.lit t = [(0, 0x89)] ∧ t.trace.length = 6)) = true := by decide +kernel

/-- K8's target and K3's steps: 100 to 102. -/
theorem test_setContrast_fades : Result.is (exec (.setContrast 40) { start with contrast := 100 })
    (fun t => decide (t.contrast = 102 ∧ t.trace = [.cmd (.setContrast 101), .cmd (.setContrast 102)])) = true := by
  decide +kernel

/-- X5: refused at 2, `contrast` holds 2. -/
theorem test_setContrast_refused : Result.is (exec (.setContrast 0) (State.refusing start 2))
    (fun t => decide (t.contrast = 2 ∧ t.trace = [.cmd (.setContrast 4), .cmd (.setContrast 3)] ∧ t.flags.busErrSeen = true ∧
      State.last t = some { status := .busErr, data := 0 })) = true := by decide +kernel

/-- X10: refused at the second command of INITSEQ. -/
theorem test_init_refused : Result.is (exec .init (State.refusing turnedOff 1))
    (fun t => decide (t.pstate = .off ∧ t.trace = [.cmd (.other 0)] ∧ t.timer = .stopped)) = true := by decide

/-- X10, second INIT. -/
theorem test_init_turns_on : Result.is (exec .init turnedOff)
    (fun t => decide (t.pstate = .on ∧ t.contrast = 5 ∧ t.timer = .armed .dimPhase 0 ∧ t.trace.length = 3)) = true := by decide

/-- Y6. -/
theorem test_release : Result.is (exec .release dimmed)
    (fun t => decide (t.pstate = .off ∧ t.timer = .stopped ∧ t.contrast = 0 ∧ t.trace = [])) = true := by decide

/-- Program B word 7, Program C word 11. -/
theorem test_rdReg : Result.is (exec (.rdReg 9) dimmed) (fun t => decide (State.last t = okWith 3)) = true ∧
    Result.is (exec (.rdReg 13) start) (fun t => decide (State.last t = some { status := .range, data := 0 })) = true := by
  decide

/-- X1: an illegal word in Off is ILLEGAL, not BADSTATE. -/
theorem test_illegal_first : Result.is (step (State.withFetchWord turnedOff 128 0x10000001000300020005000000000000))
    (fun t => decide (State.last t = some { status := .illegal, data := 0 } ∧ t.flags.illegalSeen = true)) = true := by decide

/-- Y3: no sleep phase, so the fire leaves the timer stopped. -/
theorem test_fire_dims : Result.is (step (State.before { start with cfg := { small with sleepSeconds := 0 } } .fire))
    (fun t => decide (t.pstate = .dim ∧ t.contrast = 0 ∧ t.preDim = 5 ∧ t.timer = .stopped ∧ t.completions = [])) = true := by
  decide +kernel

/-- X9: refused at DisplayOff: still Dim, the timer stopped. -/
theorem test_fire_refused : Result.is (step (State.before (State.refusing dimmed 0) .fire))
    (fun t => decide (t.pstate = .dim ∧ t.timer = .stopped ∧ t.flags.busErrSeen = true ∧ t.trace = [])) = true := by decide

/-! ## Witnesses: the hypotheses of the obligations can be met -/

theorem witness_DecodeOfEncode : (Instr.fillTri (-32768) 32767 0 (-1) 1 32767).wellFormed = true := by decide

theorem witness_IllegalWord : IllegalWord 0x06000000000000000000000000000000#128 ∧
    IllegalWord 0x01000002000100010000000000000000#128 ∧ IllegalWord 0x10000001000300020005000000000000#128 ∧
    IllegalWord 0x12000000000100010008000400010000#128 ∧ ¬ IllegalWord 0x01000001000100010000000000000000#128 ∧
    State.Usable failed := by
  unfold IllegalWord
  decide +kernel

theorem witness_StepRuns : decode 0x30000000000000000000000000000000#128 = some .sendBuffer ∧
    decodeTableWord 128 0x30000000000000000000000000000000 = some .sendBuffer := by decide

theorem witness_EnvironmentEvents : start.inputs = [] ∧ State.Usable start ∧ start.timer = .armed .dimPhase 0 ∧
    asleep.timer = .stopped := by decide

theorem witness_ResetValues : State.IsReset { State.resetOf small 7 with now := 3, device := [.refuse] } := ⟨small, 7, rfl⟩

/-- One configuration outside each of the items of R7, next to one that is admitted. -/
theorem witness_InadmissibleConfig :
    ([{ small with rows := 33 }, { small with columns := 0 }, { small with columns := 15 }, { small with columns := 16384 },
      { small with dimSeconds := 65536 }, { small with sleepSeconds := 65536 },
      { small with dimSeconds := 0, sleepSeconds := 1 }] : List Config).all (fun c => !admitted c) = true ∧
    ([{ small with rows := 64 }, { small with columns := 4 }, { small with columns := 16380 },
      { small with dimSeconds := 65535 }, { small with sleepSeconds := 65535 }, { small with dimSeconds := 0, sleepSeconds := 0 },
      { small with sleepSeconds := 0 }] : List Config).all admitted = true := by decide

theorem witness_InadmissibleConfig_hypothesis :
    ¬ (((33 = 32 ∨ 33 = 64) ∧ (1 ≤ 16 ∧ 16 * ((33 + 7) / 8) % 16 = 0) ∧ 16 * ((33 + 7) / 8) ≤ 65535 ∧
      (45 ≤ 65535 ∧ 60 ≤ 65535 ∧ ¬ (45 = 0 ∧ 0 < 60))) : Prop) ∧
    ({ start with cfg := { small with rows := 33 } } : State).timer = .armed .dimPhase 0 := by decide

/-- Each branch of `Admit()`: illegal, RDREG, FATAL, INIT outside Off, another command in Off, INIT in Off, another in On. -/
theorem witness_AdmissionOrder : State.Usable start ∧ State.Usable turnedOff ∧ decode 0x06#128 = none ∧
    failed.flags.fatal = true ∧ State.Usable failed ∧ start.flags.fatal = false ∧ start.pstate ≠ .off ∧
    turnedOff.pstate = .off ∧ turnedOff.flags.fatal = false ∧ (∀ n, Instr.sendBuffer ≠ .rdReg n) ∧
    (Instr.init = .init ↔ turnedOff.pstate = .off) ∧ (Instr.sendBuffer = .init ↔ start.pstate = .off) := by
  refine ⟨by decide, by decide, by decide, by decide, by decide, by decide, by decide, by decide, by decide, ?_, ?_, ?_⟩
  · intro n h; cases h
  · decide
  · decide

theorem witness_AfterFatal : State.Usable failed ∧ failed.flags.fatal = true ∧ failed.timer = .armed .dimPhase 0 := by decide

theorem witness_Hang_first : State.Ready (State.silentAt start 5) ∧ (State.silentAt start 5).pstate = .on ∧
    5 < (frameTransfers (State.silentAt start 5)).length ∧ 0 < (frameTransfers (State.silentAt start 0)).length ∧
    (State.silentAt start 5).device = List.replicate 5 .accept ++ .silent :: [] := by decide +kernel

theorem witness_Hang_exec : Result.is (exec .sendBuffer (State.silentAt start 0)) (fun t => t.hung) = true ∧
    Result.is (step (State.before (State.silentAt start 0) .fire)) (fun t => t.hung) = true := by decide +kernel

theorem witness_Hang_after : admitted stuck.cfg = true ∧ stuck.hung = true ∧ stuck.timer = .armed .dimPhase 0 := by decide

/-- Ready in each of the three states, with the corners of the panel and the points just outside. -/
theorem witness_Ready : State.Ready start ∧ State.Ready dimmed ∧ State.Ready asleep ∧ State.Ready panel := by decide

theorem witness_OnPanel : OnPanel small 1 1 ∧ OnPanel small 16 32 ∧ ¬ OnPanel small 0 1 ∧ ¬ OnPanel small 17 1 ∧
    ¬ OnPanel small 1 0 ∧ ¬ OnPanel small 1 33 := by decide

theorem witness_PixelReadBack :
    Result.is (exec .clearScreen start)
      (fun t => decide (t.completions = start.completions ++ [{ status := .ok, data := 0 }])) = true ∧
    Result.is (exec .clearBuffer start) (fun _ => true) = true ∧
    Result.is (exec (.setPixel 16 32 true) start) (fun _ => true) = true ∧
    Result.is (exec (.setPixel 17 32 true) start) (fun _ => true) = true := by decide +kernel

/-- Two pixels of one byte, and two of different bytes. -/
theorem witness_SetPixelsCommute : State.Ready start ∧ State.MemInv start ∧ ((1 : Int), (1 : Int)) ≠ (1, 8) ∧
    ((1 : Int), (1 : Int)) ≠ (16, 32) := by decide +kernel

/-- The premises of every `Draws`: the device accepts what the activity reset sends, in On, Dim and Sleep. -/
theorem witness_Draws : State.Ready start ∧ State.Accepts start (wakeTransfers start).length ∧
    State.Ready dimmed ∧ State.Accepts dimmed (wakeTransfers dimmed).length ∧
    State.Ready asleep ∧ State.Accepts asleep (wakeTransfers asleep).length := by decide +kernel

theorem witness_CircleScenario : State.Ready { panel with fb := [(447, 0)] } ∧ panel.cfg.columns = 128 ∧ panel.cfg.rows = 64 ∧
    State.Accepts panel (wakeTransfers panel).length ∧ State.pixel { panel with fb := [(447, 0)] } 64 32 = some false := by
  decide +kernel

/-- Vertices given out of order, two of them on one row. -/
theorem witness_FillTri : (2 : Int) ≤ 2 ∧ (2 : Int) ≤ 7 ∧
    List.Perm [((5 : Int), (7 : Int)), (2, 2), (9, 2)] [(2, 2), (9, 2), (5, 7)] := by decide

theorem witness_ActivityRestoresOn : (Instr.hLine 1 1 1).isActivity = true ∧ Instr.sendBuffer.isActivity = true ∧
    (Instr.hLine 1 1 1).sendsFrame = false ∧ State.Ready asleep ∧
    Result.is (exec (.hLine 1 1 1) asleep)
      (fun t => decide (t.completions = asleep.completions ++ [{ status := .ok, data := 0 }])) = true := by decide +kernel

theorem witness_OtherCommands : (Instr.rdByte 0).isActivity = false ∧ Result.is (exec (.rdByte 0) dimmed) (fun _ => true) = true ∧
    (Instr.setContrast 0).isActivity = false ∧ Result.is (exec (.setContrast 0) dimmed) (fun _ => true) = true := by
  decide +kernel

/-- Refused at the last transfer of the fade from Dim; in Sleep at DisplayOn and at the last transfer. -/
theorem witness_ActivityResetBusError :
    State.Ready (State.refusing dimmed 2) ∧ 2 < (wakeTransfers dimmed).length ∧ State.RefusesAfter (State.refusing dimmed 2) 2 [] ∧
    State.Ready (State.refusing asleep 0) ∧ 0 < (wakeTransfers asleep).length ∧ State.RefusesAfter (State.refusing asleep 0) 0 [] ∧
    State.Ready (State.refusing asleep 3) ∧ 3 < (wakeTransfers asleep).length ∧
    State.RefusesAfter (State.refusing asleep 3) 3 [] := by decide +kernel

/-- A device that accepts exactly one frame after the wake. -/
theorem witness_Frame : State.Ready (State.refusing asleep 10) ∧
    State.Accepts (State.refusing asleep 10) ((wakeTransfers asleep).length + (2 + 16 * ((32 + 7) / 8) / 16)) := by decide +kernel

theorem witness_SetContrast : State.Ready start ∧ State.Accepts start (fadeTransfers 5 (target small 100)).length ∧
    State.Ready (State.refusing start 4) ∧ 4 < (fadeTransfers 5 (target small 0)).length ∧
    State.RefusesAfter (State.refusing start 4) 4 [] := by decide +kernel

theorem witness_Target : (0 ≤ 100 ∧ 0 ∉ [10, 30, 50, 70, 90]) ∧ (100 ≤ 100 ∧ 100 ∉ [10, 30, 50, 70, 90]) := by decide

theorem witness_FadeLaw : Result.is (exec (.setContrast 0) start)
    (fun t => decide (t.completions = start.completions ++ [{ status := .ok, data := 0 }])) = true := by decide +kernel

/-- Refused at the first and at the last transfer of the frame, after the wake. -/
theorem witness_FrameBusError : State.Ready (State.refusing asleep 4) ∧ 0 < (frameTransfers asleep).length ∧
    State.RefusesAfter (State.refusing asleep 4) ((wakeTransfers asleep).length + 0) [] ∧ 5 < (frameTransfers asleep).length ∧
    State.RefusesAfter (State.refusing asleep 9) ((wakeTransfers asleep).length + 5) [] := by decide +kernel

theorem witness_OnlyFrames : (Instr.setContrast 0).sendsFrame = false ∧
    Result.is (exec (.setContrast 0) start) (fun _ => true) = true ∧
    Result.is (step (State.before start .fire)) (fun _ => true) = true := by decide +kernel

theorem witness_Init : State.Usable turnedOff ∧ turnedOff.flags.fatal = false ∧ turnedOff.pstate = .off ∧
    State.Accepts turnedOff turnedOff.cfg.initSeq.length ∧ 2 < turnedOff.cfg.initSeq.length ∧
    State.RefusesAfter (State.refusing turnedOff 2) 2 [] := by decide

/-- The timer transition in each power state, the armed timer in Sleep and Off being a state no run reaches. -/
theorem witness_IdleTransition : State.Usable start ∧ start.timer = .armed .dimPhase 0 ∧ start.flags.fatal = false ∧
    State.Accepts start (fadeTransfers start.contrast 0).length ∧ State.Usable dimmed ∧ dimmed.timer = .armed .sleepPhase 0 ∧
    State.Accepts dimmed 1 ∧ failed.timer = .armed .dimPhase 0 ∧ asleep.timer = .stopped ∧
    State.Usable { start with pstate := .sleep } ∧ State.Usable { start with pstate := .off } := by
  decide +kernel

theorem witness_IdleTransitionBusError : State.RefusesAfter (State.refusing start 4) 4 [] ∧
    4 < (fadeTransfers (State.refusing start 4).contrast 0).length ∧ State.RefusesAfter (State.refusing dimmed 0) 0 [] ∧
    State.Usable (State.refusing start 4) ∧ (State.refusing start 4).timer = .armed .dimPhase 0 := by decide +kernel

theorem witness_Inv : State.Inv start ∧ State.Inv dimmed ∧ State.Inv asleep ∧
    Result.is (step (State.before start .fire)) (fun _ => true) = true := by
  refine ⟨⟨?_, by decide +kernel, by decide⟩, ⟨?_, by decide +kernel, by decide⟩, ⟨?_, by decide +kernel, by decide⟩,
    by decide +kernel⟩
  · constructor <;> simp [start, State.resetOf, small]
  · constructor <;> simp [dimmed, start, State.resetOf, small]
  · constructor <;> simp [asleep, start, State.resetOf]

theorem witness_DimmedContrast : (start.pstate = .dim ∨ start.pstate = .sleep → start.contrast = 0) ∧
    (dimmed.pstate = .dim ∨ dimmed.pstate = .sleep → dimmed.contrast = 0) ∧
    Result.is (step (State.before start .fire))
      (fun t => decide (t.flags.busErrSeen = false ∧ t.hung = false ∧ t.pstate = .dim)) = true ∧
    Result.is (step (State.before dimmed .fire))
      (fun t => decide (t.flags.busErrSeen = false ∧ t.hung = false ∧ t.pstate = .sleep)) = true := by decide +kernel

/-- A step from each kind of state the clauses speak of: flags set, each status raised, into and out of each power state. -/
theorem witness_FlagsAreSticky :
    Result.is (step (State.before { failed with flags := { busErrSeen := true, fatal := true, illegalSeen := true } }
      (.command (encode .sendBuffer)))) (fun t => decide (State.last t = some { status := .fatal, data := 0 })) = true ∧
    Result.is (step (State.before (State.refusing start 0) (.command (encode .sendBuffer))))
      (fun t => decide (State.last t = some { status := .busErr, data := 0 })) = true ∧
    Result.is (step (State.before start (.command 0)))
      (fun t => decide (State.last t = some { status := .illegal, data := 0 })) = true ∧
    Result.is (step (State.before turnedOff (.command (encode .sendBuffer))))
      (fun t => decide (State.last t = some { status := .badState, data := 0 })) = true ∧
    Result.is (step (State.before start (.command (encode (.rdByte 64)))))
      (fun t => decide (State.last t = some { status := .range, data := 0 })) = true ∧
    Result.is (step (State.before start .reset)) (fun _ => true) = true := by decide +kernel

theorem witness_PowerState :
    Result.is (step (State.before dimmed (.command (encode .release)))) (fun t => decide (t.pstate = .off)) = true ∧
    Result.is (step (State.before turnedOff (.command (encode .init)))) (fun t => decide (t.pstate = .on)) = true ∧
    Result.is (step (State.before start .fire)) (fun t => decide (t.pstate = .dim)) = true ∧
    Result.is (step (State.before dimmed .fire)) (fun t => decide (t.pstate = .sleep)) = true := by decide +kernel

/-- A step by each kind of event: none to come, a word, a fire, a canvas, a time (all but reset), and reset itself. -/
theorem witness_HistoryOnlyGrows :
    Result.is (step start) (fun _ => true) = true ∧
    Result.is (step (State.before start (.command (encode .sendBuffer)))) (fun t => decide (t.trace.length = 6)) = true ∧
    Result.is (step (State.before start .fire)) (fun t => decide (t.trace.length = 5)) = true ∧
    Result.is (step (State.before start (.present [(0, 1)]))) (fun t => decide (t.trace = [])) = true ∧
    Result.is (step (State.before start (.clock 1))) (fun t => decide (t.trace = [])) = true ∧
    Result.is (step (State.before stuck .reset)) (fun t => decide (t.inputs = [])) = true := by decide +kernel

/-- Due exactly at 45 s (DimPhase) and at 60 s (SleepPhase); not due a moment before. -/
theorem witness_Timed : start.timer = .armed .dimPhase 0 ∧ start.hung = false ∧ dueTime start = some 45 ∧
    dueTime dimmed = some 60 ∧ timedEnabled .fire { start with now := 45 } = true ∧ timedEnabled .fire { start with now := 44 } = false ∧
    timedEnabled (.clock 45) start = true ∧ timedEnabled (.clock 46) start = false := by decide +kernel

theorem witness_IdleTimeline : admitted Config.standard = true ∧ Config.standard.dimSeconds = 45 ∧
    Config.standard.sleepSeconds = 60 := by decide

end Sys2Proof.Tests
end

section
/-! PROOFS. The statements of 00_scope.md: inadmissible configurations are refused (R7), every command ends once or hangs
(R11, 60_exceptions.md R187, R191), and the configuration and the histories (R6, R9, 20_memory.md R58). -/

namespace Sys2Proof.Machine

/-! ## Configurations that are not admitted (00_scope.md R7) -/

/-- `admitted` is the four items of 00_scope.md R7, with FBLEN written out (R6). -/
theorem admitted_iff (c : Config) : admitted c = true ↔
    (c.rows = 32 ∨ c.rows = 64) ∧
      (1 ≤ c.columns ∧ c.columns * ((c.rows + 7) / 8) % 16 = 0) ∧
      c.columns * ((c.rows + 7) / 8) ≤ 65535 ∧
      (c.dimSeconds ≤ 65535 ∧ c.sleepSeconds ≤ 65535 ∧ ¬ (c.dimSeconds = 0 ∧ 0 < c.sleepSeconds)) := by
  simp only [admitted, Bool.and_eq_true, decide_eq_true_eq, gt_iff_lt, and_assoc]
  rfl

theorem guarded_refused {s : State} (k : State → State) (h : ¬ admitted s.cfg = true) :
    guarded s k = .refused .configNotAdmitted := by
  unfold guarded
  rw [if_neg h]

theorem exec_refused {s : State} (i : Instr) (h : ¬ admitted s.cfg = true) :
    exec i s = .refused .configNotAdmitted := by
  obtain ⟨body, e⟩ := exec_runs i
  rw [e]
  exact guarded_refused _ h

theorem handOver_refused {s : State} (w : Word) (h : ¬ admitted s.cfg = true) :
    handOver w s = .refused .configNotAdmitted := by
  unfold handOver
  split
  · exact exec_refused _ h
  · exact guarded_refused _ h

theorem timerFires_refused {s : State} {p : TimerPhase} {t0 : Rat} (h : ¬ admitted s.cfg = true)
    (ht : s.timer = .armed p t0) : timerFires s = .refused .configNotAdmitted := by
  unfold timerFires
  rw [ht]
  exact guarded_refused _ h

/-- Settles O9: every operation of either agent runs under `guarded`, which looks at the configuration first. -/
theorem inadmissibleConfigRefused : Obligations.InadmissibleConfigRefused := by
  intro s hs
  have h : ¬ admitted s.cfg = true := fun ha => hs ((admitted_iff s.cfg).1 ha)
  exact ⟨fun i => exec_refused i h, fun w => handOver_refused w h, fun _ _ ht => timerFires_refused h ht⟩

/-! ## One record or a hang (00_scope.md R11, 60_exceptions.md R187, R191) -/

theorem exec_usable (i : Instr) {s : State} (h : s.Usable) : ∃ t, exec i s = .next t := by
  obtain ⟨body, e⟩ := exec_runs i
  exact ⟨_, (e s).trans (guarded_usable _ h)⟩

/-- From `s` to `t`: if the one new record is a refusal or FATAL, that record is the only change. -/
def PreciseRefusal (s t : State) : Prop :=
  ∀ c : Completion, t.completions = s.completions ++ [c] → c.status.isRefusal = true ∨ c.status = .fatal →
    t = s.complete c.status 0

theorem PreciseRefusal.complete (s : State) (st : Status) : PreciseRefusal s (s.complete st 0) := by
  intro c hc _
  obtain rfl : (⟨st, 0⟩ : Completion) = c := by simpa using hc
  rfl

/-- A record that is neither a refusal nor FATAL may come with any other change. -/
theorem PreciseRefusal.of_status {s u : State} {st : Status} {d : Half} (hu : u.completions = s.completions)
    (hr : st.isRefusal = false) (hf : st ≠ .fatal) : PreciseRefusal s (u.complete st d) := by
  intro c hc hst
  obtain rfl : (⟨st, d⟩ : Completion) = c := by simpa [hu] using hc
  rcases hst with h | h
  · rw [hr] at h; cases h
  · exact absurd h hf

/-- A bus procedure ends in OK, in BUSERR, or in a hang with no record. -/
theorem PreciseRefusal.finish {s : State} {r : Ran} (h : r.st.completions = s.completions) :
    PreciseRefusal s r.finish := by
  unfold Ran.finish
  split
  · exact .of_status h rfl (by decide)
  · exact .of_status h rfl (by decide)
  · intro c hc
    simp [h] at hc

theorem PreciseRefusal.command {a : Admission} {body : State → State} {s t : State} (h : runCommand a body s = .next t)
    (hb : PreciseRefusal s (body s)) : PreciseRefusal s t := by
  obtain ⟨-, ⟨st, -, rfl⟩ | ⟨-, rfl⟩⟩ := runCommand_next h
  · exact .complete s st
  · exact hb

theorem Ran.andThen_completions {s : State} {r : Ran} {f : State → Ran} (h : r.st.completions = s.completions)
    (k : ∀ u, (f u).st.completions = u.completions) : (r.andThen f).st.completions = s.completions := by
  unfold Ran.andThen
  split
  · exact (k _).trans h
  · exact h
  · exact h

theorem Tail.completions {f : State → Ran} (hf : Tail f) (s : State) : (f s).st.completions = s.completions := by
  obtain ⟨fb, hw⟩ := hf.write s
  exact hw.completions

theorem activityReset_completions (s : State) : (activityReset s).st.completions = s.completions :=
  (activityReset_cases s).1.completions

/-- Every command refuses precisely (60_exceptions.md R187). -/
theorem exec_preciseRefusal {i : Instr} {s t : State} (h : exec i s = .next t) : PreciseRefusal s t := by
  by_cases hi : i.isActivity = true
  · obtain ⟨f, hf, -, e⟩ := activity_form hi
    rw [e] at h
    exact .command h (.finish (Ran.andThen_completions (activityReset_completions s) hf.completions))
  · cases i
    case setPixel x y on =>
      change execSetPixel x y on s = _ at h
      exact .command h (.of_status (by rw [State.setPixel_eq]) rfl (by decide))
    case getPixel x y =>
      change execGetPixel x y s = _ at h
      refine .command h ?_
      split
      · exact .complete s .range
      · exact .of_status rfl rfl (by decide)
    case clearBuffer =>
      change execClearBuffer s = _ at h
      exact .command h (.of_status rfl rfl (by decide))
    case rdByte idx =>
      change execRdByte idx s = _ at h
      refine .command h ?_
      split
      · exact .complete s .range
      · exact .of_status rfl rfl (by decide)
    case setContrast pct =>
      change execSetContrast pct s = _ at h
      exact .command h (.finish (fadeTo_frame _ s).completions)
    case init =>
      change execInit s = _ at h
      refine .command h (.finish (Ran.andThen_completions (busCmds_frame _ s).completions fun u => ?_))
      rw [restartTimer_eq, going_st]
    case release =>
      change execRelease s = _ at h
      exact .command h (.of_status rfl rfl (by decide))
    case rdReg n =>
      change execRdReg n s = _ at h
      refine .command h ?_
      split
      · exact .complete s .range
      · exact .of_status rfl rfl (by decide)
    all_goals exact absurd rfl hi

/-- Settles O12: a usable state runs the command, `summary_exec` says how it ends, `exec_preciseRefusal` that a refusal
changes nothing else. -/
theorem everyCommandEndsOnce : Obligations.EveryCommandEndsOnce := by
  intro i s hs
  obtain ⟨t, h⟩ := exec_usable i hs
  refine ⟨t, h, ?_⟩
  rcases (summary_exec h).completes with ⟨hh, c, hc, hill, hbus, -, hdata⟩ | ⟨hh, hc, -⟩
  · exact .inl ⟨hh, c, hc, hill, hdata, hbus, exec_preciseRefusal h c hc⟩
  · exact .inr ⟨hh, hc⟩

/-! ## Configuration and histories (00_scope.md R6, R9, 20_memory.md R58) -/

/-- From `s` to `t` the configuration and the event list stay, and trace and records only grow. -/
structure Grows (s t : State) : Prop where
  cfg : t.cfg = s.cfg
  inputs : t.inputs = s.inputs
  trace : s.trace <+: t.trace
  completions : s.completions <+: t.completions

theorem OpFrame.grows {s t : State} (h : OpFrame s t) : Grows s t :=
  ⟨h.cfg, h.inputs, h.trace, by rw [h.completions]⟩

theorem Summary.grows {s t : State} (h : Summary s t) : Grows s t := by
  refine ⟨h.kept.cfg, h.kept.inputs, h.trace, ?_⟩
  rcases h.completes with ⟨-, c, hc, -⟩ | ⟨-, hc, -⟩
  · exact ⟨[c], hc.symm⟩
  · rw [hc]

theorem handOver_grows {s t : State} {w : Word} (h : handOver w s = .next t) : Grows s t := by
  obtain ⟨i, -, hi⟩ | ⟨-, -, rfl⟩ := handOver_cases h
  · exact (summary_exec hi).grows
  · exact ⟨rfl, rfl, List.prefix_rfl, List.prefix_append _ _⟩

theorem timerFires_grows {s t : State} (h : timerFires s = .next t) : Grows s t := by
  obtain ⟨-, -, rfl⟩ := timerFires_next h
  exact (idleFire_frame s).grows

/-- One step: reset, or the head of the event list is gone and the rest of the state has grown. -/
theorem step_grows {s t : State} (h : step s = .next t) :
    (∃ rest, s.inputs = .reset :: rest ∧ t.cfg = s.cfg ∧ t.inputs = rest) ∨ Grows { s with inputs := s.inputs.tail } t := by
  obtain ⟨hi, rfl⟩ | ⟨w, rest, hi, hw⟩ | ⟨rest, hi, hf⟩ | ⟨c, rest, hi, rfl⟩ | ⟨c, rest, hi, rfl⟩ | ⟨rest, hi, rfl⟩ :=
    step_cases h
  · exact .inr ⟨rfl, by rw [hi]; rfl, List.prefix_rfl, List.prefix_rfl⟩
  · rw [hi]; exact .inr (handOver_grows hw)
  · rw [hi]; exact .inr (timerFires_grows hf)
  · rw [hi]; exact .inr ⟨rfl, rfl, List.prefix_rfl, List.prefix_rfl⟩
  · rw [hi]; exact .inr ⟨rfl, rfl, List.prefix_rfl, List.prefix_rfl⟩
  · exact .inl ⟨rest, hi, rfl, rfl⟩

/-- Settles O53, from what one step does to the histories (`step_grows`). -/
theorem historyOnlyGrows : Obligations.HistoryOnlyGrows := by
  intro s t h
  obtain ⟨rest, hi, hc, ht⟩ | g := step_grows h
  · exact ⟨hc, by rw [ht, hi]; rfl, fun hr => absurd hi (hr rest)⟩
  · exact ⟨g.cfg, g.inputs, fun _ => ⟨g.trace, g.completions⟩⟩

end Sys2Proof.Machine
end

section
/-! PROOFS. The statements of 10_state.md: what the environment's events do (R34), the values of reset (R37,
70_reset_and_hazards.md R201), the invariant at reset and over every step (R35 items 1 to 4 and 6, R23, 60_exceptions.md
R177), and the contrast in Dim and Sleep (R35 item 5, 60_exceptions.md R182). -/

namespace Sys2Proof.Machine

/-! ## The invariant (10_state.md R23, R35, 60_exceptions.md R177) -/

/-- The invariant looks at these fields only. -/
theorem State.Inv.congr {s t : State} (h : s.Inv) (hcfg : t.cfg = s.cfg) (hfb : t.fb = s.fb) (hp : t.pstate = s.pstate)
    (ht : t.timer = s.timer) (hfl : t.flags.fatal = s.flags.fatal) (hx : t.faultX = s.faultX)
    (hy : t.faultY = s.faultY) : t.Inv := by
  obtain ⟨hpow, hmem, hfatal⟩ := h
  exact ⟨hpow.congr hp ht hcfg, hmem.congr hfb hcfg, by rwa [State.NeverFatal, hfl, hx, hy]⟩

/-- A command keeps the invariant: `Summary` has its three parts. -/
theorem Summary.inv {s t : State} (h : Summary s t) (hs : s.Inv) : t.Inv := by
  obtain ⟨hpow, hmem, hfatal⟩ := hs
  exact ⟨h.power hpow, h.mem hmem, by rwa [State.NeverFatal, h.kept.fatal, h.kept.faultX, h.kept.faultY]⟩

/-- A word handed over keeps the invariant, an illegal one too (30_encoding.md R82). -/
theorem handOver_inv {s t : State} {w : Word} (h : handOver w s = .next t) (hs : s.Inv) : t.Inv := by
  obtain ⟨i, -, hi⟩ | ⟨-, -, rfl⟩ := handOver_cases h
  · exact (summary_exec hi).inv hs
  · exact hs.congr rfl rfl rfl rfl rfl rfl rfl

/-- The timer transition keeps the invariant, also when the device refuses or never answers (60_exceptions.md R186). -/
theorem timerFires_inv {s t : State} (h : timerFires s = .next t) (hs : s.Inv) : t.Inv := by
  obtain ⟨-, harmed, rfl⟩ := timerFires_next h
  obtain ⟨hpow, hmem, hfatal⟩ := hs
  have hf := idleFire_frame s
  exact ⟨idleFire_power hpow harmed, hmem.congr hf.fb hf.cfg,
    by rwa [State.NeverFatal, hf.fatal, hf.faultX, hf.faultY]⟩

/-! ## Reset (10_state.md R37, 70_reset_and_hazards.md R200, R201) -/

/-- A state right after reset is `resetOf` but for the environment's inputs. -/
theorem State.IsReset.exists_eq {s : State} (h : s.IsReset) : ∃ cfg epoch i d c n,
    s = { State.resetOf cfg epoch with inputs := i, device := d, canvas := c, now := n } := by
  obtain ⟨cfg, epoch, e⟩ := h
  exact ⟨cfg, epoch, s.inputs, s.device, s.canvas, s.now, by rw [← e]⟩

theorem resetBlock_isReset (s : State) : (resetBlock s).IsReset := ⟨s.cfg, s.epoch + 1, rfl⟩

theorem State.IsReset.powerInv {s : State} (h : s.IsReset) : s.PowerInv := by
  obtain ⟨cfg, epoch, i, d, c, n, rfl⟩ := h.exists_eq
  constructor <;> simp

theorem State.IsReset.inv {s : State} (h : s.IsReset) : s.Inv := by
  have hpow := h.powerInv
  obtain ⟨cfg, epoch, i, d, c, n, rfl⟩ := h.exists_eq
  exact ⟨hpow, ⟨rfl, rfl⟩, rfl, rfl, rfl⟩

/-! ## The invariant over a step -/

/-- Settles O48, by the event the step takes: a word, a fire, a change of one input, or reset. -/
theorem everyStepKeepsInvariant : Obligations.EveryStepKeepsInvariant := by
  intro s t hs h
  have popped : ∀ rest, State.Inv { s with inputs := rest } := fun _ => hs.congr rfl rfl rfl rfl rfl rfl rfl
  obtain ⟨-, rfl⟩ | ⟨w, rest, -, hw⟩ | ⟨rest, -, hf⟩ | ⟨c, rest, -, rfl⟩ | ⟨c, rest, -, rfl⟩ | ⟨rest, -, rfl⟩ :=
    step_cases h
  · exact hs
  · exact handOver_inv hw (popped rest)
  · exact timerFires_inv hf (popped rest)
  · exact hs.congr rfl rfl rfl rfl rfl rfl rfl
  · exact hs.congr rfl rfl rfl rfl rfl rfl rfl
  · exact (resetBlock_isReset _).inv

/-- Settles O49: after reset the block is Off, the timer stopped, the buffer unwritten and nothing faulted. -/
theorem resetMeetsInvariant : Obligations.ResetMeetsInvariant := fun _ h => h.inv

/-- Settles O8: `resetBlock` is `resetOf` with the environment's inputs kept. -/
theorem resetValues : Obligations.ResetValues := by
  refine ⟨fun s => ⟨resetBlock s, rfl, resetBlock_isReset s, rfl⟩, ⟨Config.standard, 0, rfl⟩, fun s h => ?_⟩
  obtain ⟨cfg, epoch, i, d, c, n, rfl⟩ := h.exists_eq
  exact ⟨rfl, rfl, rfl, rfl, rfl, rfl, rfl, rfl⟩

/-! ## The environment's events (10_state.md R34) -/

theorem step_of_no_inputs {s : State} (h : s.inputs = []) : step s = .next s := by
  unfold step nextEvent
  rw [h]

theorem timerFires_stopped {s : State} (h : s.timer = .stopped) : timerFires s = .refused .fireNotEnabled := by
  unfold timerFires
  rw [h]

/-- Settles O7, event by event (`step_before`); time never runs back because the model takes the later of the two. -/
theorem environmentEvents : Obligations.EnvironmentEvents := by
  intro s
  refine ⟨step_of_no_inputs, fun c => step_before s (.present c), fun t => ?_, fun p t0 hu ht => ?_, fun ht => ?_⟩
  · rw [step_before, onEvent, max_comm, max_def]
  · rw [step_fire, timerFires_armed hu ht]
  · rw [step_fire, timerFires_stopped ht]

/-! ## Contrast in Dim and Sleep (10_state.md R35 item 5, 60_exceptions.md R182) -/

/-- 10_state.md R35 item 5, extended to Sleep as 60_exceptions.md R182 says. -/
def State.DimmedZero (s : State) : Prop := s.pstate = .dim ∨ s.pstate = .sleep → s.contrast = 0

theorem State.DimmedZero.congr {s t : State} (h : s.DimmedZero) (hp : t.pstate = s.pstate)
    (hc : t.contrast = s.contrast) : t.DimmedZero := by
  rwa [State.DimmedZero, hp, hc]

theorem State.DimmedZero.of_awake {s : State} (h : s.pstate = .on ∨ s.pstate = .off) : s.DimmedZero := by
  rintro (hd | hd) <;> simp [hd] at h

/-- `DimmedZero` where an operation has met no bus error and no hang: one that stops short may leave a half-made fade
(60_exceptions.md R186, R187, R191). -/
def State.DimmedZeroIfDone (s : State) : Prop := s.flags.busErrSeen = false → s.hung = false → s.DimmedZero

/-- A procedure that left no bus error and no hang went on to its end. -/
theorem Ran.Tells.going_of_clear {s : State} {r : Ran} (h : Ran.Tells s r) (hs : s.hung = false)
    (hb : r.st.flags.busErrSeen = false) (hh : r.st.hung = false) : r.how = .going := by
  cases hr : r.how with
  | going => rfl
  | busError => simp [h.busError hr] at hb
  | hung => simp [(h.hung hs).1 hr] at hh

/-- A command whose bus procedure keeps `DimmedZero` when it runs to its end. -/
theorem State.DimmedZeroIfDone.finish {s : State} {r : Ran} (hs : s.hung = false) (ht : Ran.Tells s r)
    (hr : r.how = .going → r.st.DimmedZero) : r.finish.DimmedZeroIfDone := by
  have done : r.st.DimmedZeroIfDone := fun hb hh => hr (ht.going_of_clear hs hb hh)
  unfold Ran.finish
  split <;> exact done

/-- From the body of a command to the command: one that `Admit()` ends only adds its record. -/
theorem State.DimmedZeroIfDone.command {a : Admission} {body : State → State} {s t : State}
    (h : runCommand a body s = .next t) (hs : s.DimmedZero)
    (hb : s.Usable → admitStatus a s = none → (body s).DimmedZeroIfDone) : t.DimmedZeroIfDone := by
  obtain ⟨hu, ⟨st, -, rfl⟩ | ⟨ha, rfl⟩⟩ := runCommand_next h
  · exact fun _ _ => hs
  · exact hb hu ha

/-- An activity reset that goes on leaves On, and its command stays there. -/
theorem State.DimmedZeroIfDone.activity {s : State} {f : State → Ran} (hu : s.Usable) (hp : s.pstate ≠ .off) (hf : Tail f) :
    ((activityReset s).andThen f).finish.DimmedZeroIfDone := by
  obtain ⟨-, ht, -⟩ := activityReset_cases s
  refine .finish hu.2 (ht.andThen hf.tells) fun hg => ?_
  obtain ⟨hgo, -⟩ := Ran.going_of_andThen hg
  rw [activityReset_of_going hp hgo, going_andThen]
  obtain ⟨fb, hw⟩ := hf.write s.afterActivity
  exact .of_awake (.inl hw.pstate)

/-- INIT that goes on leaves On (45_system.md R166). -/
theorem execInit_dimmedZero {s t : State} (h : execInit s = .next t) (hs : s.DimmedZero) : t.DimmedZeroIfDone := by
  unfold execInit at h
  refine .command h hs fun hu _ => .finish hu.2 ((busCmds_tells _ s).andThen fun u => ?_) fun hg => ?_
  · rw [restartTimer_eq]
    exact ⟨by simp, fun hn => by simp [hn], fun _ => rfl⟩
  · obtain ⟨hgo, -⟩ := Ran.going_of_andThen hg
    rw [Ran.eq_going hgo, going_andThen, going_st, restartTimer_eq]
    exact .of_awake (.inl rfl)

/-- Every command but SETCONTRAST: activity and INIT end in On, RELEASE in Off, the rest leave power and contrast. -/
theorem exec_dimmedZero {i : Instr} {s t : State} (hne : ∀ pct, i ≠ .setContrast pct) (h : exec i s = .next t)
    (hs : s.DimmedZero) : t.DimmedZeroIfDone := by
  by_cases hi : i.isActivity = true
  · obtain ⟨f, hf, -, e⟩ := activity_form hi
    rw [e] at h
    exact .command h hs fun hu ha => .activity hu (admitStatus_none_running ha).2 hf
  · cases i
    case setPixel x y on =>
      change execSetPixel x y on s = _ at h
      exact .command h hs fun _ _ _ _ => hs.congr (by rw [State.setPixel_eq]; rfl) (by rw [State.setPixel_eq]; rfl)
    case getPixel x y =>
      change execGetPixel x y s = _ at h
      refine .command h hs fun _ _ _ _ => ?_
      split <;> exact hs
    case clearBuffer =>
      change execClearBuffer s = _ at h
      exact .command h hs fun _ _ _ _ => hs
    case rdByte idx =>
      change execRdByte idx s = _ at h
      refine .command h hs fun _ _ _ _ => ?_
      split <;> exact hs
    case setContrast pct => exact absurd rfl (hne pct)
    case init => exact execInit_dimmedZero h hs
    case release =>
      change execRelease s = _ at h
      exact .command h hs fun _ _ _ _ => .of_awake (.inr rfl)
    case rdReg n =>
      change execRdReg n s = _ at h
      refine .command h hs fun _ _ _ _ => ?_
      split <;> exact hs
    all_goals exact absurd rfl hi

/-- The timer transition that goes on fades to 0 before Dim, and enters Sleep with the contrast of Dim (60_exceptions.md
R183). -/
theorem idleFire_dimmedZero {s : State} (hs : s.DimmedZero) :
    (idleFire s).how = .going → (idleFire s).st.DimmedZero := by
  unfold idleFire
  dsimp only
  split
  · exact fun _ => hs
  · split
    · intro hg
      obtain ⟨hfade, -⟩ := Ran.going_of_andThen hg
      rw [fadeTo_of_going hfade]
      exact fun _ => rfl
    · rename_i hp
      intro hg
      obtain ⟨hbus, -⟩ := Ran.going_of_andThen hg
      rw [busCmd, busTransfer_accepted _ (accepts_of_busTransfer hbus)]
      exact fun _ => hs (.inl hp)
    · exact fun _ => hs
    · exact fun _ => hs

theorem timerFires_dimmedZero {s t : State} (h : timerFires s = .next t) (hs : s.DimmedZero) : t.DimmedZeroIfDone := by
  obtain ⟨hu, -, rfl⟩ := timerFires_next h
  exact fun hb hh => idleFire_dimmedZero hs ((idleFire_tells s).going_of_clear hu.2 hb hh)

theorem handOver_dimmedZero {s t : State} {w : Word} (hne : ∀ pct, decode w ≠ some (.setContrast pct))
    (h : handOver w s = .next t) (hs : s.DimmedZero) : t.DimmedZeroIfDone := by
  obtain ⟨i, hd, hi⟩ | ⟨-, -, rfl⟩ := handOver_cases h
  · exact exec_dimmedZero (fun pct e => hne pct (hd.trans (congrArg some e))) hi hs
  · exact fun _ _ => hs

/-- Settles O50, by the event the step takes. -/
theorem dimmedContrastIsZero : Obligations.DimmedContrastIsZero := by
  intro s t hs h hb hh hne
  obtain ⟨-, rfl⟩ | ⟨w, rest, hi, hw⟩ | ⟨rest, -, hf⟩ | ⟨c, rest, -, rfl⟩ | ⟨c, rest, -, rfl⟩ | ⟨rest, -, rfl⟩ :=
    step_cases h
  · exact hs
  · exact handOver_dimmedZero (fun pct => hne w rest pct hi) hw hs hb hh
  · exact timerFires_dimmedZero hf hs hb hh
  · exact hs
  · exact hs
  · exact State.DimmedZero.of_awake (.inr rfl)

end Sys2Proof.Machine
end

section
/-! PROOFS. The statement of 20_memory.md: which operations hand the device bytes of the frame buffer (R64), and that the
timer transition leaves the buffer (60_exceptions.md R183). -/

namespace Sys2Proof.Machine

/-- From the body of a command to the command: one that `Admit()` ends sends nothing. -/
theorem CmdsOnly.command {a : Admission} {body : State → State} {s t : State} (h : runCommand a body s = .next t)
    (hb : CmdsOnly s (body s)) : CmdsOnly s t := by
  obtain ⟨-, ⟨st, -, rfl⟩ | ⟨-, rfl⟩⟩ := runCommand_next h
  · exact .of_eq rfl
  · exact hb

/-- An activity command that sends no frame sends what its activity reset sends (`activity_form`); of the rest only
SETCONTRAST and INIT use the bus. -/
theorem exec_cmdsOnly {i : Instr} {s t : State} (hi : i.sendsFrame = false) (h : exec i s = .next t) : CmdsOnly s t := by
  by_cases ha : i.isActivity = true
  · obtain ⟨f, -, hf, e⟩ := activity_form ha
    rw [e] at h
    refine .command h (cmdsOnly_finish ((cmdsOnly_activityReset s).andThen fun u => ?_))
    obtain ⟨fb, hfb⟩ := hf hi u
    rw [hfb]
    exact .of_eq rfl
  · cases i
    case setPixel x y on =>
      change execSetPixel x y on s = _ at h
      exact .command h (.of_eq (by rw [State.setPixel_eq]; rfl))
    case getPixel x y =>
      change execGetPixel x y s = _ at h
      exact .command h (.of_eq (by split <;> rfl))
    case clearBuffer =>
      change execClearBuffer s = _ at h
      exact .command h (.of_eq rfl)
    case rdByte idx =>
      change execRdByte idx s = _ at h
      exact .command h (.of_eq (by split <;> rfl))
    case setContrast pct =>
      change execSetContrast pct s = _ at h
      exact .command h (cmdsOnly_finish (cmdsOnly_fadeTo _ s))
    case init =>
      change execInit s = _ at h
      refine .command h (cmdsOnly_finish ((cmdsOnly_busCmds _ s).andThen fun u => .of_eq ?_))
      rw [going_st, restartTimer_eq]
    case release =>
      change execRelease s = _ at h
      exact .command h (.of_eq rfl)
    case rdReg n =>
      change execRdReg n s = _ at h
      exact .command h (.of_eq (by split <;> rfl))
    all_goals exact absurd rfl ha

/-- Settles O41: a command by its form (`exec_cmdsOnly`), the timer transition by its frame and `cmdsOnly_idleFire`. -/
theorem onlyFramesCarryData : Obligations.OnlyFramesCarryData := by
  refine ⟨fun i s t hi h => exec_cmdsOnly hi h, fun s t h => ?_⟩
  rw [step_fire] at h
  obtain ⟨-, -, rfl⟩ := timerFires_next h
  exact ⟨(idleFire_frame s).fb, cmdsOnly_idleFire s⟩

end Sys2Proof.Machine
end

section
/-! PROOFS. The statements of 30_encoding.md: the decoder against the encoder (R70 to R76), the illegal words (R82, R83),
the completion record (R80), and the step that runs the decoded instruction. -/

namespace Sys2Proof

open Machine

/-! ## The decoder reads back what the encoder writes (R70 to R76) -/

theorem opcOf_encode (i : Instr) : opcOf (encode i) = opcode i := by
  cases i <;> exact (Laws.OpcodeField.of_pack ..).1

theorem mbzOf_encode (i : Instr) : mbzOf (encode i) = 0 := by
  cases i <;> exact (Laws.OpcodeField.of_pack ..).2

theorem unusedZero_encode (i : Instr) : (formatOf i).unusedZero (encode i) := by
  cases i <;> simp [formatOf, Format.unusedZero, encode, pack_eq, ← onBit_eq_zero]

theorem onOf_fields (opc : Byte) (mbz : BitVec 23) (on : Bool) (a b c d e f : Half) :
    onOf (fields opc mbz (BitVec.ofBool on) a b c d e f) = on := by
  rw [onOf_eq, onBit_fields]
  cases on <;> rfl

/-- The row of an instruction's opcode reads its operands back from its slots (R72, R74). -/
theorem opcodeRow_encode {i : Instr} (h : i.wellFormed = true) :
    opcodeRow (opcode i) (encode i) = some (formatOf i, i) := by
  cases i <;> simp only [Instr.wellFormed, Bool.and_eq_true] at h <;>
    simp [opcodeRow, opcode, formatOf, encode, pack_eq, onOf_fields, sext_signedSlot, zext_unsignedSlot, h]

/-- Settles O1: the row of the opcode gives the instruction back, and its must-be-zero fields are zero. -/
theorem decodeOfEncodeIsIdentity : Obligations.DecodeOfEncodeIsIdentity := by
  intro i h
  refine decode_eq_some.2 ⟨formatOf i, ?_, mbzOf_encode i, unusedZero_encode i⟩
  rw [opcOf_encode]
  exact opcodeRow_encode h

/-! ## A word that decodes is the word of its instruction (R71 to R76) -/

/-- The opcode and the format of a row of the opcode map (R74) are those of its instruction. -/
theorem opcodeRow_eq_some {opc : Byte} {w : Word} {fmt : Format} {i : Instr} (h : opcodeRow opc w = some (fmt, i)) :
    opcode i = opc ∧ formatOf i = fmt := by
  unfold opcodeRow at h
  split at h
  all_goals cases h
  all_goals
    rename_i hopc
    exact ⟨BitVec.eq_of_toNat_eq hopc.symm, rfl⟩

/-- The encoder writes the fields that a row reads: the word itself, once the fields outside its format are zero. -/
theorem encode_of_opcodeRow {w : Word} {fmt : Format} {i : Instr} (h : opcodeRow (opcOf w) w = some (fmt, i))
    (hm : mbzOf w = 0) (hu : fmt.unusedZero w) : encode i = w := by
  have hw := fields_eta w
  rw [hm, ← ofBool_onOf, ← (opcodeRow_eq_some h).1] at hw
  unfold opcodeRow at h
  split at h
  all_goals cases h
  all_goals
    simp only [Format.unusedZero] at hu
    simp only [hu] at hw
    simp only [encode, signedSlot_sext, unsignedSlot_zext]
    exact hw

/-- Settles O2: one row of the opcode map and the zero fields of its format determine the whole word (`fields_eta`). -/
theorem encodeOfDecodeIsIdentity : Obligations.EncodeOfDecodeIsIdentity := by
  intro w i h
  obtain ⟨fmt, hrow, hmbz, hunused⟩ := decode_eq_some.1 h
  exact ⟨encode_of_opcodeRow hrow hmbz hunused, wellFormed_of_decode h⟩

/-! ## Illegal words (R82, R83) -/

theorem toNat_opcOf (w : Word) : (opcOf w).toNat = w.toNat / 2 ^ 120 := by
  have := w.isLt
  rw [opcOf, BitVec.extractLsb'_toNat, Nat.shiftRight_eq_div_pow]
  omega

theorem mbzOf_eq_zero {w : Word} : mbzOf w = 0 ↔ w.toNat / 2 ^ 97 % 2 ^ 23 = 0 := by
  rw [← BitVec.toNat_inj, mbzOf, BitVec.extractLsb'_toNat, Nat.shiftRight_eq_div_pow]
  rfl

theorem onOf_eq_true {w : Word} : onOf w = true ↔ w.toNat / 2 ^ 96 % 2 = 1 := by
  rw [onOf, BitVec.getLsbD, Nat.testBit_eq_decide_div_mod_eq, decide_eq_true_eq]

/-- The bits below `n + 16` are zero when the slot at `n` and the bits below it are. -/
theorem mod_two_pow_add_sixteen (w : Word) (n : Nat) :
    w.toNat % 2 ^ (n + 16) = 0 ↔ w.extractLsb' n 16 = 0 ∧ w.toNat % 2 ^ n = 0 := by
  have h : (w.extractLsb' n 16).toNat = w.toNat / 2 ^ n % 2 ^ 16 := by
    rw [BitVec.extractLsb'_toNat, Nat.shiftRight_eq_div_pow]
  rw [← BitVec.toNat_inj, h, Nat.pow_add, Nat.mod_mul, Nat.add_eq_zero_iff, Nat.mul_eq_zero, and_comm]
  simp

/-- How many operand slots, from A on, a format uses (R73). -/
def Format.slots : Format → Nat
  | .z => 0
  | .u1 | .s1 => 1
  | .p | .xy => 2
  | .s3 => 3
  | .s4 | .q => 4
  | .t => 6

/-- The zero fields of a format as R82 says them: `ON` outside format P, and every bit below the slots in use. -/
theorem Format.unusedZero_iff (w : Word) (fmt : Format) :
    fmt.unusedZero w ↔ (fmt ≠ .p → onOf w = false) ∧ w.toNat % 2 ^ (96 - 16 * fmt.slots) = 0 := by
  have f : w.toNat % 2 ^ 16 = 0 ↔ slotF w = 0 ∧ w.toNat % 2 ^ 0 = 0 := mod_two_pow_add_sixteen w 0
  have e : w.toNat % 2 ^ 32 = 0 ↔ slotE w = 0 ∧ w.toNat % 2 ^ 16 = 0 := mod_two_pow_add_sixteen w 16
  have d : w.toNat % 2 ^ 48 = 0 ↔ slotD w = 0 ∧ w.toNat % 2 ^ 32 = 0 := mod_two_pow_add_sixteen w 32
  have c : w.toNat % 2 ^ 64 = 0 ↔ slotC w = 0 ∧ w.toNat % 2 ^ 48 = 0 := mod_two_pow_add_sixteen w 48
  have b : w.toNat % 2 ^ 80 = 0 ↔ slotB w = 0 ∧ w.toNat % 2 ^ 64 = 0 := mod_two_pow_add_sixteen w 64
  have a : w.toNat % 2 ^ 96 = 0 ↔ slotA w = 0 ∧ w.toNat % 2 ^ 80 = 0 := mod_two_pow_add_sixteen w 80
  cases fmt <;> simp [Format.unusedZero, Format.slots, a, b, c, d, e, f, -Nat.reducePow, Nat.mod_one]

/-- A row of the map has one of the 23 opcodes, and its format is the one R82 reads off the opcode. -/
theorem format_of_opcode (i : Instr) :
    (opcode i).toNat ∈ legalOpcodes ∧ slotsUsed (opcode i).toNat = (formatOf i).slots ∧
      ((opcode i).toNat = 0x01 ↔ formatOf i = .p) := by
  cases i <;> simp [opcode, formatOf, legalOpcodes, slotsUsed, Format.slots]

/-- Each of the 23 opcodes has a row of the map. -/
theorem opcodeRow_ne_none (w : Word) : ∀ n ∈ legalOpcodes, opcodeRow (BitVec.ofNat 8 n) w ≠ none := by
  simp [legalOpcodes, opcodeRow]

/-- An opcode without a row is none of the 23 (R83). -/
theorem opcodeRow_eq_none {opc : Byte} {w : Word} (h : opcodeRow opc w = none) : opc.toNat ∉ legalOpcodes := by
  intro hmem
  have := opcodeRow_ne_none w opc.toNat hmem
  rw [BitVec.ofNat_toNat, BitVec.setWidth_eq] at this
  exact this h

theorem decode_of_no_row {w : Word} (h : opcodeRow (opcOf w) w = none) : decode w = none := by
  simp only [decode, decodeOr, h, Except.toOption]

/-- Of a word with a row, the decoder rejects a must-be-zero field that is not zero (R75, R76). -/
theorem decode_eq_none_of_row {w : Word} {fmt : Format} {i : Instr} (h : opcodeRow (opcOf w) w = some (fmt, i)) :
    decode w = none ↔ ¬ (mbzOf w = 0 ∧ fmt.unusedZero w) := by
  rw [← mask_iff]
  simp only [decode, decodeOr, h]
  split <;> simp [Except.toOption, *]

theorem decode_eq_none_iff_illegalWord (w : Word) : decode w = none ↔ IllegalWord w := by
  unfold IllegalWord
  rw [← toNat_opcOf, ← onOf_eq_true, Ne, ← mbzOf_eq_zero]
  cases hrow : opcodeRow (opcOf w) w with
  | none => exact iff_of_true (decode_of_no_row hrow) (.inl (opcodeRow_eq_none hrow))
  | some row =>
    obtain ⟨fmt, i⟩ := row
    obtain ⟨hopc, rfl⟩ := opcodeRow_eq_some hrow
    obtain ⟨hlegal, hslots, hp⟩ := format_of_opcode i
    rw [hopc] at hlegal hslots hp
    have hzero := Format.unusedZero_iff w (formatOf i)
    rw [← hslots, Ne, ← hp, ← Bool.not_eq_true] at hzero
    rw [decode_eq_none_of_row hrow, hzero]
    tauto

end Sys2Proof

namespace Sys2Proof.Machine

theorem handOver_of_decode {w : Word} {i : Instr} (h : decode w = some i) (s : State) : handOver w s = exec i s := by
  rw [handOver, h]

/-- The whole effect of an illegal word (R82). -/
theorem handOver_illegal {w : Word} {s : State} (h : decode w = none) (hs : s.Usable) :
    handOver w s = .next (s.noteIllegal.complete .illegal 0) := by
  rw [handOver, h]
  exact guarded_usable _ hs

/-- Settles O4: R82's two reasons are the decoder's (`decode_eq_none_iff_illegalWord`), and a word it rejects runs
`illegalWord` (`handOver_illegal`). -/
theorem illegalWordsExactly : Obligations.IllegalWordsExactly := by
  intro w
  refine ⟨decode_eq_none_iff_illegalWord w, fun hw s hs => ?_⟩
  rw [step_command, handOver_illegal ((decode_eq_none_iff_illegalWord w).2 hw) hs]
  rfl

/-- Settles O3: nine closed words, each read by running the decoder. -/
theorem specWordsDecode : Obligations.SpecWordsDecode := by
  unfold Obligations.SpecWordsDecode
  decide

/-! ## The completion record (R80, 60_exceptions.md R175) -/

theorem toNat_completion_bits (c : Completion) : c.bits.toNat = c.status.code.toNat * 65536 + c.data.toNat := by
  rw [Completion.bits, BitVec.toNat_append, ← Nat.shiftLeft_add_eq_or_of_lt c.data.isLt, Nat.shiftLeft_eq]

/-- Settles O5: the code is appended above the data (`toNat_completion_bits`); the six codes are the definition's. -/
theorem completionRecordBits : Obligations.CompletionRecordBits :=
  ⟨toNat_completion_bits, rfl, rfl, rfl, rfl, rfl, rfl⟩

/-! ## The step (R70, 45_system.md R165) -/

theorem tableWord_toNat (w : Word) : tableWord 128 w.toNat = w := by
  rw [tableWord, Nat.mod_eq_of_lt w.isLt, BitVec.ofNat_toNat, BitVec.setWidth_eq]

theorem withFetchWord_toNat (s : State) (w : Word) : s.withFetchWord 128 w.toNat = s.before (.command w) := by
  rw [State.withFetchWord, tableWord_toNat, State.before]

/-- Settles O6: both states have the same event in front (`withFetchWord_toNat`), and a step hands that word over. -/
theorem stepRunsDecodedInstruction : Obligations.StepRunsDecodedInstruction := by
  intro s w i h
  rw [withFetchWord_toNat, step_command, handOver_of_decode h, and_self]

end Sys2Proof.Machine
end

section
/-! PROOFS. The statements of 40_framebuffer.md: what SETPIXEL, GETPIXEL, CLEARBUFFER, CLEARSCREEN and RDBYTE do (R90 to
R95), and the laws the spec derives from them (R96). -/

namespace Sys2Proof.Machine

/-! ## The commands in a ready state (R91 to R95) -/

theorem exec_setPixel {s : State} (h : s.Ready) (x y : Int) (on : Bool) :
    exec (.setPixel x y on) s = .next ((s.setPixel x y on).complete .ok 0) := by
  change execSetPixel x y on s = _
  exact runCommand_ready _ h

theorem exec_clearBuffer {s : State} (h : s.Ready) : exec .clearBuffer s = .next ((zeroFill s).complete .ok 0) := by
  change execClearBuffer s = _
  exact runCommand_ready _ h

theorem exec_clearScreen {s : State} (h : s.Ready) :
    exec .clearScreen s = .next ((activityReset s).andThen fun s => transmit (zeroFill s)).finish := by
  change execClearScreen s = _
  exact runCommand_ready _ h

/-- Bit `k` of a byte, alone in the data of a completion record (R92). -/
theorem setWidth_ushiftRight_and_one (v : Byte) (k : Nat) :
    ((v >>> k) &&& 1#8).setWidth 16 = if v.getLsbD k then (1 : Half) else 0 := by
  have hbit : (v >>> k) &&& 1#8 = if v.getLsbD k then 1#8 else 0#8 := by
    rw [BitVec.and_one_eq_setWidth_ofBool_getLsbD, BitVec.getLsbD_ushiftRight, Nat.add_zero]
    cases v.getLsbD k <;> rfl
  rw [hbit]
  cases v.getLsbD k <;> rfl

theorem exec_getPixel_of_offPanel {s : State} (h : s.Ready) {x y : Int} (hp : ¬ OnPanel s.cfg x y) :
    exec (.getPixel x y) s = .next (s.complete .range 0) := by
  change execGetPixel x y s = _
  rw [execGetPixel, runCommand_ready _ h, pixelAddr_eq_none.2 hp]

theorem exec_getPixel_of_pixel {s : State} (h : s.Ready) {x y : Int} {v : Bool} (hv : s.pixel x y = some v) :
    exec (.getPixel x y) s = .next (s.complete .ok (if v then 1 else 0)) := by
  obtain ⟨⟨i, b⟩, ha, rfl⟩ := Option.map_eq_some_iff.1 hv
  change execGetPixel x y s = _
  rw [execGetPixel, runCommand_ready _ h, ha]
  dsimp only
  rw [setWidth_ushiftRight_and_one]

/-- Settles O15: the pixel GETPIXEL looks up is the addressed bit (`pixelAddr_of_onPanel`). -/
theorem getPixelReadsOneBit : Obligations.GetPixelReadsOneBit := fun _ _ _ h =>
  ⟨exec_getPixel_of_offPanel h, fun hp => exec_getPixel_of_pixel h (State.pixel_of_addr (pixelAddr_of_onPanel hp))⟩

/-- Settles O17: a byte index is in the buffer exactly below FBLEN, written out (00_scope.md R6). -/
theorem rdByteReadsOneByte : Obligations.RdByteReadsOneByte := by
  intro s idx h
  change execRdByte idx s = .next (if idx < fbLen s.cfg then _ else _)
  rw [execRdByte, runCommand_ready _ h]
  by_cases hi : idx < fbLen s.cfg
  · simp only [byteAddr, if_pos hi, BitVec.ofNat_toNat]
  · simp only [byteAddr, if_neg hi]

/-! ## The pixel write as a byte write (R90) -/

/-- The byte SETPIXEL writes: `v` with bit `b` set or cleared. -/
def setBit (v : Byte) (b : Nat) (on : Bool) : Byte := if on then v ||| bitMask b else v &&& ~~~ bitMask b

theorem State.setPixel_of_addr {s : State} {x y : Int} {i b : Nat} (h : pixelAddr s.cfg x y = some (i, b)) (on : Bool) :
    s.setPixel x y on = s.writeByte i (setBit (s.readByte i) b on) := by
  unfold State.setPixel
  rw [h]
  cases on <;> rfl

theorem State.setPixel_of_offPanel {s : State} {x y : Int} (h : ¬ OnPanel s.cfg x y) (on : Bool) :
    s.setPixel x y on = s := by
  unfold State.setPixel
  rw [pixelAddr_eq_none.2 h]

/-- Settles O14: on the panel SETPIXEL is one byte write at an index below FBLEN (`pixelAddr_index_lt`). -/
theorem setPixelWritesOneBit : Obligations.SetPixelWritesOneBit := by
  intro s x y on h
  refine ⟨fun hp => by rw [exec_setPixel h, State.setPixel_of_offPanel hp], fun hp => ?_⟩
  have ha := pixelAddr_of_onPanel hp
  refine ⟨_, by rw [exec_setPixel h, State.setPixel_of_addr ha]; rfl, pixelAddr_index_lt ha,
    s.readByte_writeByte_same _ _, fun a hne => ?_⟩
  exact (s.readByte_writeByte _ _ _).trans (if_neg hne.symm)

/-! ## Clearing (R93, R94) -/

theorem readByte_zeroFill (s : State) (a : Nat) :
    (zeroFill s).readByte a = if a < fbLen s.cfg then 0 else s.readByte a :=
  s.readByte_sweepBytes _ a

/-- Settles O16: CLEARBUFFER is the zero fill and its record. -/
theorem clearBufferZeroesAll : Obligations.ClearBufferZeroesAll := fun s h =>
  ⟨(zeroFill s).fb, exec_clearBuffer h, readByte_zeroFill s⟩

/-- The chunks of a frame lie below FBLEN, so a zero fill leaves each of them zero. -/
theorem chunk_zeroFill {s : State} {k : Nat} (hk : k < fbLen s.cfg / 16) :
    (zeroFill s).chunk k = List.replicate 16 0 := by
  refine List.eq_replicate_iff.2 ⟨by simp [State.chunk], fun b hb => ?_⟩
  obtain ⟨j, hj, rfl⟩ := List.mem_map.1 hb
  have := List.mem_range.1 hj
  rw [readByte_zeroFill, if_pos (by omega)]

/-- The frame after a zero fill: the addressing pair, then chunks of zeros (R94, 44_transmission.md R152). -/
theorem frameTransfers_zeroFill (s : State) :
    frameTransfers (zeroFill s) =
      [.cmd (.setColumnAddress 0 (s.cfg.columns - 1)), .cmd (.setPageRange 0 (if s.cfg.rows > 32 then 7 else 3))]
        ++ List.replicate (fbLen s.cfg / 16) (.data (List.replicate 16 0)) := by
  have hdata : (List.range (fbLen s.cfg / 16)).map (fun k => Transfer.data ((zeroFill s).chunk k)) =
      List.replicate (fbLen s.cfg / 16) (.data (List.replicate 16 0)) := by
    refine List.eq_replicate_iff.2 ⟨by simp, fun t ht => ?_⟩
    obtain ⟨k, hk, rfl⟩ := List.mem_map.1 ht
    rw [chunk_zeroFill (List.mem_range.1 hk)]
  exact congrArg _ hdata

/-- Settles O34: the activity reset and the transmission each run in their accepted form; what is sent is the frame of the
zero fill (`frameTransfers_zeroFill`). -/
theorem clearScreenSendsZeros : Obligations.ClearScreenSendsZeros := by
  intro s h ha
  obtain ⟨hwake, hframe⟩ := State.accepts_add.1 ha
  have hsend : transmit (zeroFill s.afterActivity) = _ := transmit_accepted hframe
  refine ⟨(zeroFill s).fb, ?_, readByte_zeroFill s⟩
  rw [exec_clearScreen h, activityReset_accepted h.2.2 hwake, going_andThen, hsend, frameTransfers_zeroFill]
  rfl

/-! ## Reading back (R96, P1 and P2) -/

/-- A ready state that runs a command other than RELEASE to its record is ready again. -/
theorem State.Ready.exec {s t : State} {i : Instr} (h : s.Ready) (hi : i ≠ .release) (he : exec i s = .next t)
    (hc : t.completions ≠ s.completions) : t.Ready := by
  obtain ⟨⟨hadmitted, -⟩, hfatal, hpower⟩ := h
  have hsum := summary_exec he
  have hhung : t.hung = false := by
    rcases hsum.completes with ⟨hh, -⟩ | ⟨-, hsame, -⟩
    · exact hh
    · exact absurd hsame hc
  have hp : t.pstate ≠ .off := by
    rcases exec_pstate he with e | ⟨-, -, e⟩ | ⟨e, -⟩ | ⟨-, -, e⟩
    · rw [e]; exact hpower
    · rw [e]; decide
    · exact absurd e hi
    · rw [e]; decide
  exact ⟨⟨hsum.kept.cfg ▸ hadmitted, hhung⟩, hsum.kept.fatal.trans hfatal, hp⟩

theorem ready_setPixel {s : State} (h : s.Ready) (x y : Int) (on : Bool) :
    State.Ready ((s.setPixel x y on).complete .ok 0) :=
  h.exec (by simp) (exec_setPixel h x y on) (by rw [State.setPixel_eq]; simp)

/-- CLEARSCREEN completing OK ran the zero fill, and the transmission after it changed no byte. -/
theorem readByte_of_clearScreen_ok {s t : State} (h : s.Ready) (he : exec .clearScreen s = .next t)
    (hc : t.completions = s.completions ++ [{ status := .ok, data := 0 }]) {a : Nat} (ha : a < fbLen s.cfg) :
    t.readByte a = 0 := by
  rw [exec_clearScreen h] at he
  obtain rfl := Host.Outcome.next.inj he
  have hgo := going_of_finish_ok
    (Ran.andThen_completions (activityReset_completions s) fun u => (transmit_frame (zeroFill u)).completions) hc
  obtain ⟨hreset, hsend⟩ := Ran.going_of_andThen hgo
  have hframe := transmit_frame (zeroFill (activityReset s).st)
  rw [Ran.eq_going hreset, going_andThen, Ran.eq_going hsend, going_finish]
  calc (transmit (zeroFill (activityReset s).st)).st.readByte a
    _ = (zeroFill (activityReset s).st).readByte a := State.readByte_congr hframe.fb hframe.epoch a
    _ = 0 := by rw [readByte_zeroFill, (activityReset_cases s).1.cfg, if_pos ha]

/-- Either clearing command leaves a ready state whose buffer is all zeros. -/
theorem zeroed_of_clear {s t : State} (h : s.Ready) (ht : exec .clearBuffer s = .next t ∨
      (exec .clearScreen s = .next t ∧ t.completions = s.completions ++ [{ status := .ok, data := 0 }])) :
    t.Ready ∧ t.cfg = s.cfg ∧ ∀ a < fbLen t.cfg, t.readByte a = 0 := by
  rcases ht with he | ⟨he, hc⟩
  · obtain rfl := Host.Outcome.next.inj ((exec_clearBuffer h).symm.trans he)
    exact ⟨h.exec (by decide) he (by simp [zeroFill]), rfl, fun a ha => (readByte_zeroFill s a).trans (if_pos ha)⟩
  · have hcfg := (summary_exec he).kept.cfg
    exact ⟨h.exec (by decide) he (by simp [hc]), hcfg, fun a ha => readByte_of_clearScreen_ok h he hc (hcfg ▸ ha)⟩

theorem pixel_of_zeroed {s : State} (hz : ∀ a < fbLen s.cfg, s.readByte a = 0) {x y : Int} (hp : OnPanel s.cfg x y) :
    s.pixel x y = some false := by
  have ha := pixelAddr_of_onPanel hp
  rw [State.pixel_of_addr ha, hz _ (pixelAddr_index_lt ha), Option.some_inj]
  exact BitVec.getLsbD_zero

/-- Settles O18: a clearing command leaves a ready state of zero bytes, SETPIXEL one whose pixel is the value written
(`State.pixel_setPixel`), and GETPIXEL reads the pixel. -/
theorem pixelReadBackLaws : Obligations.PixelReadBackLaws := by
  intro s h
  constructor
  · intro t ht x y hp
    obtain ⟨hr, hcfg, hz⟩ := zeroed_of_clear h ht
    rw [← hcfg] at hp
    exact exec_getPixel_of_pixel hr (pixel_of_zeroed hz hp)
  · intro x y on t he
    obtain rfl := Host.Outcome.next.inj ((exec_setPixel h x y on).symm.trans he)
    refine ⟨fun hp => exec_getPixel_of_pixel (ready_setPixel h x y on) ?_, fun hp a => ?_⟩
    · exact (s.pixel_setPixel x y on x y).trans (if_pos ⟨rfl, rfl, hp⟩)
    · rw [State.setPixel_of_offPanel hp]
      rfl

/-! ## SETPIXEL commutes and repeats (R96) -/

theorem getLsbD_setBit {b k : Nat} (hb : b < 8) (hk : k < 8) (v : Byte) (on : Bool) :
    (setBit v b on).getLsbD k = if k = b then on else v.getLsbD k := by
  have hm := getLsbD_bitMask (k := k) hb
  cases on
  · rw [setBit, if_neg Bool.false_ne_true, BitVec.getLsbD_and, BitVec.getLsbD_not, hm]
    by_cases h : k = b <;> simp [h, hk]
  · rw [setBit, if_pos rfl, BitVec.getLsbD_or, hm]
    by_cases h : k = b <;> simp [h]

theorem setBit_comm {b b' : Nat} (hb : b < 8) (hb' : b' < 8) (hne : b ≠ b') (v : Byte) (on on' : Bool) :
    setBit (setBit v b on) b' on' = setBit (setBit v b' on') b on := by
  refine BitVec.eq_of_getLsbD_eq fun k hk => ?_
  simp only [getLsbD_setBit hb hk, getLsbD_setBit hb' hk]
  by_cases h : k = b
  · simp [h, hne]
  · simp [h]

theorem setBit_setBit {b : Nat} (hb : b < 8) (v : Byte) (on : Bool) : setBit (setBit v b on) b on = setBit v b on := by
  refine BitVec.eq_of_getLsbD_eq fun k hk => ?_
  simp only [getLsbD_setBit hb hk]
  by_cases h : k = b <;> simp [h]

theorem Memory.write_comm {m : Memory} (h : m.wf = true) {i j : Nat} (hne : i ≠ j) (v w : Byte) :
    (m.write i v).write j w = (m.write j w).write i v := by
  refine Memory.ext (Memory.wf_write _ _ _ (Memory.wf_write _ _ _ h)) (Memory.wf_write _ _ _ (Memory.wf_write _ _ _ h))
    fun k => ?_
  simp only [Memory.read?_write]
  by_cases hi : i = k
  · subst hi
    simp [hne.symm]
  · simp [hi]

theorem Memory.write_write {m : Memory} (h : m.wf = true) (i : Nat) (v w : Byte) :
    (m.write i v).write i w = m.write i w := by
  refine Memory.ext (Memory.wf_write _ _ _ (Memory.wf_write _ _ _ h)) (Memory.wf_write _ _ _ h) fun k => ?_
  simp only [Memory.read?_write]
  by_cases hi : i = k <;> simp [hi]

theorem State.writeByte_comm {s : State} (h : s.fb.wf = true) {i j : Nat} (hne : i ≠ j) (v w : Byte) :
    (s.writeByte i v).writeByte j w = (s.writeByte j w).writeByte i v :=
  congrArg (fun m => { s with fb := m }) (Memory.write_comm h hne v w)

theorem State.writeByte_writeByte {s : State} (h : s.fb.wf = true) (i : Nat) (v w : Byte) :
    (s.writeByte i v).writeByte i w = s.writeByte i w :=
  congrArg (fun m => { s with fb := m }) (Memory.write_write h i v w)

/-- Two pixels in different bytes are two byte writes that commute; in one byte they are different bits of it, for
different pixels have different addresses (`pixelAddr_inj`). -/
theorem State.setPixel_comm {s : State} (h : s.fb.wf = true) {x y x' y' : Int} (hne : (x, y) ≠ (x', y')) (on on' : Bool) :
    (s.setPixel x y on).setPixel x' y' on' = (s.setPixel x' y' on').setPixel x y on := by
  by_cases hp : OnPanel s.cfg x y
  case neg => rw [setPixel_of_offPanel hp, setPixel_of_offPanel (s := s.setPixel x' y' on') (by simpa using hp)]
  by_cases hp' : OnPanel s.cfg x' y'
  case neg => rw [setPixel_of_offPanel hp', setPixel_of_offPanel (s := s.setPixel x y on) (by simpa using hp')]
  obtain ⟨i, b, ha⟩ : ∃ i b, pixelAddr s.cfg x y = some (i, b) := ⟨_, _, pixelAddr_of_onPanel hp⟩
  obtain ⟨i', b', ha'⟩ : ∃ i b, pixelAddr s.cfg x' y' = some (i, b) := ⟨_, _, pixelAddr_of_onPanel hp'⟩
  rw [setPixel_of_addr ha, setPixel_of_addr ha', setPixel_of_addr (s := s.writeByte _ _) ha,
    setPixel_of_addr (s := s.writeByte _ _) ha']
  by_cases hi : i = i'
  · subst hi
    have hb : b ≠ b' := by
      rintro rfl
      obtain ⟨rfl, rfl⟩ := pixelAddr_inj ha ha'
      exact hne rfl
    simp only [readByte_writeByte_same, writeByte_writeByte h,
      setBit_comm (pixelAddr_bit_lt ha) (pixelAddr_bit_lt ha') hb]
  · rw [readByte_writeByte, if_neg hi, readByte_writeByte, if_neg (Ne.symm hi), writeByte_comm h hi]

theorem State.setPixel_setPixel {s : State} (h : s.fb.wf = true) (x y : Int) (on : Bool) :
    (s.setPixel x y on).setPixel x y on = s.setPixel x y on := by
  by_cases hp : OnPanel s.cfg x y
  · have ha := pixelAddr_of_onPanel hp
    rw [setPixel_of_addr ha, setPixel_of_addr (s := s.writeByte _ _) ha, readByte_writeByte_same, writeByte_writeByte h,
      setBit_setBit (pixelAddr_bit_lt ha)]
  · rw [setPixel_of_offPanel hp, setPixel_of_offPanel hp]

/-- The record of a command does not touch what a pixel write does. -/
theorem State.setPixel_complete (s : State) (st : Status) (d : Half) (x y : Int) (on : Bool) :
    (s.complete st d).setPixel x y on = (s.setPixel x y on).complete st d := by
  by_cases hp : OnPanel s.cfg x y
  · have ha := pixelAddr_of_onPanel hp
    rw [setPixel_of_addr ha, setPixel_of_addr (s := s.complete st d) ha]
    rfl
  · rw [setPixel_of_offPanel hp, setPixel_of_offPanel (s := s.complete st d) hp]

/-- Two SETPIXELs in a row are the two pixel writes, then the two records. -/
theorem exec_setPixel_setPixel {s t u : State} (h : s.Ready) {x y x' y' : Int} {on on' : Bool}
    (ht : exec (.setPixel x y on) s = .next t) (hu : exec (.setPixel x' y' on') t = .next u) :
    u = (((s.setPixel x y on).setPixel x' y' on').complete .ok 0).complete .ok 0 := by
  obtain rfl := Host.Outcome.next.inj ((exec_setPixel h x y on).symm.trans ht)
  rw [exec_setPixel (ready_setPixel h x y on), State.setPixel_complete] at hu
  exact (Host.Outcome.next.inj hu).symm

/-- Settles O19: SETPIXEL is a pixel write and its record; distinct pixel writes commute (`State.setPixel_comm`), and one
repeated is itself (`State.setPixel_setPixel`). -/
theorem setPixelsCommute : Obligations.SetPixelsCommute := by
  intro s h hm x y x' y' on on'
  refine ⟨fun hne t u t' u' ht hu ht' hu' => ?_, fun t u ht hu => ?_⟩
  · rw [exec_setPixel_setPixel h ht hu, exec_setPixel_setPixel h ht' hu', State.setPixel_comm hm.1 hne]
  · rw [exec_setPixel_setPixel h ht hu, State.setPixel_setPixel hm.1]
    obtain rfl := Host.Outcome.next.inj ((exec_setPixel h x y on).symm.trans ht)
    rfl

end Sys2Proof.Machine
end

section
/-! PROOFS. The statements of 41_rasterizer_lines_rects.md: spans, rectangles, boxes and lines (R102 to R110), the
triangles made of lines (42_rasterizer_circles_triangles.md R125, R126), and the count, endpoints and symmetry of a line
(R106). A command that draws turns its point list on (`draws_of_mem`); Laws/Raster.lean knows each list as a set. -/

namespace Sys2Proof.Machine

/-! ## Commands that plot a list of points (R102 to R110, R125, R126) -/

/-- Settles O20: the points of the two spans, with the fixed coordinate named first. -/
theorem hLineVLineSpans : Obligations.HLineVLineSpans := by
  intro x y n
  constructor
  · refine draws_of_mem (pts := hSpan x y n) (fun _ => rfl) fun u v => ?_
    rw [mem_hSpan, ← and_assoc, and_comm]
  · exact draws_of_mem (pts := vSpan x y n) (fun _ => rfl) fun _ _ => mem_vSpan

/-- RECT and SQUARE draw one outline: the box and its border in one conjunction (R107, R108). -/
theorem mem_rectOf_border (x y : Int) (w h : Nat) (i j : Int) :
    (i, j) ∈ rectOf x y w h ↔ x ≤ i ∧ i < x + w ∧ y ≤ j ∧ j < y + h ∧
      (i = x ∨ i = x + w - 1 ∨ j = y ∨ j = y + h - 1) := by
  simp only [mem_rectOf, and_assoc]

/-- Settles O21: SQUARE is RECT with equal sides. -/
theorem rectSquareOutline : Obligations.RectSquareOutline := fun x y w h =>
  ⟨draws_of_mem (pts := rectOf x y w h) (fun _ => rfl) (mem_rectOf_border x y w h),
    draws_of_mem (pts := rectOf x y w w) (fun _ => rfl) (mem_rectOf_border x y w w)⟩

/-- Settles O22: FILLSQUARE is FILLRECT with equal sides. -/
theorem fillRectSquareBox : Obligations.FillRectSquareBox := fun x y w h =>
  ⟨draws_of_mem (pts := fillRectOf x y w h) (fun _ => rfl) fun _ _ => mem_fillRectOf,
    draws_of_mem (pts := fillRectOf x y w w) (fun _ => rfl) fun _ _ => mem_fillRectOf⟩

/-- Settles O23: the fast paths and the walk plot the line's set (`mem_lineOf`). -/
theorem linePlotsBresenhamSet : Obligations.LinePlotsBresenhamSet := fun x0 y0 x1 y1 =>
  draws_of_mem (pts := lineOf x0 y0 x1 y1) (fun _ => rfl) fun _ _ => mem_lineOf

/-- The vertices of TRIBOX are halved as naturals or as integers alike (R126). -/
theorem mem_triBoxOf {cx cy : Int} {w h : Nat} {u v : Int} :
    (u, v) ∈ triBoxOf cx cy w h ↔
      TriSet cx (cy - (h : Int) / 2) (cx - (w : Int) / 2) (cy + (h : Int) / 2) (cx + (w : Int) / 2)
        (cy + (h : Int) / 2) u v := by
  unfold triBoxOf
  rw [mem_triOf]
  push_cast
  rfl

/-- Settles O28: each triangle is its three lines (`mem_triOf`), TRIBOX by its vertices (`mem_triBoxOf`). -/
theorem trianglesPlotThreeLines : Obligations.TrianglesPlotThreeLines :=
  ⟨fun x0 y0 x1 y1 x2 y2 => draws_of_mem (pts := triOf x0 y0 x1 y1 x2 y2) (fun _ => rfl) fun _ _ => mem_triOf,
    fun cx cy w h => draws_of_mem (pts := triBoxOf cx cy w h) (fun _ => rfl) fun _ _ => mem_triBoxOf⟩

/-! ## Endpoints of a line (R106 item 1) -/

/-- No short-axis step at the start: the error starts at half the long span. -/
theorem minorSteps_start {long short : Int} (h : 0 ≤ long) : minorSteps long short 0 = 0 := by
  unfold minorSteps
  rcases h.eq_or_lt with rfl | hpos
  · exact Int.ediv_zero _
  · exact Int.ediv_eq_zero_of_lt (by omega) (by omega)

/-- All short-axis steps are made at the end. -/
theorem minorSteps_end {long short : Int} (h0 : 0 ≤ short) (h : short ≤ long) : minorSteps long short long = short := by
  unfold minorSteps
  rcases (h0.trans h).eq_or_lt with rfl | hpos
  · rw [Int.ediv_zero]
    omega
  · rw [show long * short + long - 1 - long / 2 = long - 1 - long / 2 + long * short by ring,
      Int.add_mul_ediv_left _ _ hpos.ne', Int.ediv_eq_zero_of_lt (by omega) (by omega), zero_add]

theorem flatLine_start {x0 y0 x1 y1 : Int} (h : x0 ≤ x1) : FlatLine x0 y0 x1 y1 x0 y0 :=
  ⟨le_rfl, h, by rw [sub_self, minorSteps_start (by omega), mul_zero, add_zero]⟩

theorem flatLine_end {x0 y0 x1 y1 : Int} (h : x0 ≤ x1) (hd : (y1 - y0).natAbs ≤ (x1 - x0).natAbs) :
    FlatLine x0 y0 x1 y1 x1 y1 := by
  refine ⟨h, le_rfl, ?_⟩
  rw [minorSteps_end (by omega) (by omega)]
  split <;> omega

/-- The first endpoint is in the line's set, whichever end the walk starts from. -/
theorem lineSet_left (x0 y0 x1 y1 : Int) : LineSet x0 y0 x1 y1 x0 y0 := by
  unfold LineSet
  split_ifs with hflat hx hy
  · exact flatLine_start hx
  · exact flatLine_end (by omega) (by omega)
  · exact flatLine_start hy
  · exact flatLine_end (by omega) (by omega)

/-! ## Symmetry (R106 item 2) -/

/-- The walk starts from the endpoint that is smaller along the long axis, and the long axis does not depend on the
order of the endpoints. -/
theorem lineSet_comm (x0 y0 x1 y1 x y : Int) : LineSet x0 y0 x1 y1 x y ↔ LineSet x1 y1 x0 y0 x y := by
  unfold LineSet
  rw [← Int.natAbs_neg (y1 - y0), ← Int.natAbs_neg (x1 - x0), neg_sub, neg_sub]
  by_cases hflat : (y0 - y1).natAbs ≤ (x0 - x1).natAbs
  · rw [if_pos hflat, if_pos hflat]
    rcases lt_trichotomy x0 x1 with h | h | h
    · rw [if_pos h.le, if_neg h.not_ge]
    · obtain rfl : y0 = y1 := by omega
      rw [h]
    · rw [if_neg h.not_ge, if_pos h.le]
  · rw [if_neg hflat, if_neg hflat]
    rcases lt_trichotomy y0 y1 with h | h | h
    · rw [if_pos h.le, if_neg h.not_ge]
    · omega
    · rw [if_neg h.not_ge, if_pos h.le]

/-! ## Count (R106 item 1) -/

/-- A list whose points are the graph of an injective map on an interval has as many distinct points as the interval. -/
theorem card_toFinset_of_graph {l : List Point} {f : Int → Point} (hf : Function.Injective f) {a b : Int} (hab : a ≤ b)
    (hl : ∀ p, p ∈ l ↔ ∃ k, (a ≤ k ∧ k ≤ b) ∧ f k = p) : l.toFinset.card = (b - a).natAbs + 1 := by
  have hgraph : l.toFinset = (Finset.Icc a b).image f := by
    ext p
    simp only [List.mem_toFinset, Finset.mem_image, Finset.mem_Icc, hl]
  rw [hgraph, Finset.card_image_of_injective _ hf, Int.card_Icc]
  omega

/-- The row of a flat line at column `x`. -/
def flatRow (x0 y0 x1 y1 x : Int) : Int :=
  y0 + (if y0 < y1 then 1 else -1) * minorSteps (x1 - x0) ((y1 - y0).natAbs : Int) (x - x0)

theorem flatLine_iff {x0 y0 x1 y1 x y : Int} :
    FlatLine x0 y0 x1 y1 x y ↔ (x0 ≤ x ∧ x ≤ x1) ∧ y = flatRow x0 y0 x1 y1 x := and_assoc.symm

theorem card_of_flatLine {l : List Point} {x0 y0 x1 y1 : Int} (h : x0 ≤ x1)
    (hl : ∀ u v, (u, v) ∈ l ↔ FlatLine x0 y0 x1 y1 u v) : l.toFinset.card = (x1 - x0).natAbs + 1 := by
  refine card_toFinset_of_graph (f := fun x => (x, flatRow x0 y0 x1 y1 x)) (fun _ _ e => congrArg Prod.fst e) h ?_
  rintro ⟨u, v⟩
  rw [hl, flatLine_iff]
  simp only [Prod.mk.injEq]
  constructor
  · rintro ⟨hu, rfl⟩
    exact ⟨u, hu, rfl, rfl⟩
  · rintro ⟨k, hk, rfl, rfl⟩
    exact ⟨hk, rfl⟩

/-- As `card_of_flatLine`, for a steep line: a flat one transposed. -/
theorem card_of_steepLine {l : List Point} {x0 y0 x1 y1 : Int} (h : y0 ≤ y1)
    (hl : ∀ u v, (u, v) ∈ l ↔ FlatLine y0 x0 y1 x1 v u) : l.toFinset.card = (y1 - y0).natAbs + 1 := by
  have hmap : (l.map Prod.swap).toFinset = l.toFinset.image Prod.swap := by
    ext p
    simp only [List.mem_toFinset, List.mem_map, Finset.mem_image]
  rw [← Finset.card_image_of_injective l.toFinset Prod.swap_injective, ← hmap]
  refine card_of_flatLine (y0 := x0) (y1 := x1) h fun u v => ?_
  rw [← hl v u, ← Prod.swap_prod_mk, List.mem_map_of_injective Prod.swap_injective]

/-- One point per position of the long axis. -/
theorem card_lineOf (x0 y0 x1 y1 : Int) :
    (lineOf x0 y0 x1 y1).toFinset.card = max (x1 - x0).natAbs (y1 - y0).natAbs + 1 := by
  have hl : ∀ u v, (u, v) ∈ lineOf x0 y0 x1 y1 ↔ LineSet x0 y0 x1 y1 u v := fun _ _ => mem_lineOf
  unfold LineSet at hl
  split_ifs at hl with hflat hx hy
  · rw [card_of_flatLine hx hl]
    omega
  · rw [card_of_flatLine (by omega) hl]
    omega
  · rw [card_of_steepLine hy hl]
    omega
  · rw [card_of_steepLine (by omega) hl]
    omega

/-- Settles O24: `card_lineOf` counts; the second endpoint is the first one of the line in the other order
(`lineSet_comm`). -/
theorem lineEndpointsCountSymmetry : Obligations.LineEndpointsCountSymmetry := by
  intro x0 y0 x1 y1
  refine ⟨card_lineOf x0 y0 x1 y1, mem_lineOf.2 (lineSet_left x0 y0 x1 y1), ?_, ?_⟩
  · exact mem_lineOf.2 ((lineSet_comm ..).2 (lineSet_left x1 y1 x0 y0))
  · rintro ⟨u, v⟩
    rw [mem_lineOf, mem_lineOf, lineSet_comm]

end Sys2Proof.Machine
end

section
/-! PROOFS. The statements of 42_rasterizer_circles_triangles.md: circle, disc and filled triangle (R120, R122, R128), and
DOC0's scenario (R121). A command that draws turns its point list on (`draws_of_mem`); Laws/Raster.lean knows each list as
a set. The scenario is read off the circle's set, pixel by pixel. -/

namespace Sys2Proof.Machine

/-! ## Circles and filled triangles (R120, R122, R128) -/

/-- Settles O25: the midpoint walk plots the circle's set (`mem_circleOf`). -/
theorem circlePlotsMidpointSet : Obligations.CirclePlotsMidpointSet := fun cx cy r =>
  draws_of_mem (pts := circleOf cx cy r) (fun _ => rfl) fun _ _ => mem_circleOf

/-- Settles O26: the diameter and the helper's spans are the disc's set (`mem_fillCircleOf`). -/
theorem fillCirclePlotsDisc : Obligations.FillCirclePlotsDisc := fun cx cy r =>
  draws_of_mem (pts := fillCircleOf cx cy r) (fun _ => rfl) fun _ _ => mem_fillCircleOf

/-- Settles O29: the three swaps sort the vertices, and ties do not change the set (`mem_fillTriOf`). -/
theorem fillTriPlotsScanlines : Obligations.FillTriPlotsScanlines := fun _ _ _ a b c hpq hqr hperm =>
  draws_of_mem (pts := fillTriOf a.1 a.2 b.1 b.2 c.1 c.2) (fun _ => rfl) (mem_fillTriOf hpq hqr hperm)

/-! ## Pixels after a drawing (41_rasterizer_lines_rects.md R101) -/

/-- A pixel of the panel is on or off. -/
theorem State.pixel_eq_false_iff {s : State} {x y : Int} (hp : OnPanel s.cfg x y) :
    s.pixel x y = some false ↔ s.pixel x y ≠ some true := by
  rw [State.pixel_of_addr (pixelAddr_of_onPanel hp)]
  simp

/-- After a drawing the pixels on are those that were on and those plotted, on the same panel. -/
theorem Draws.exec_pixel {i : Instr} {S : Int → Int → Prop} (hd : Draws i S) {s : State} (h : s.Ready)
    (ha : s.Accepts (wakeTransfers s).length) :
    ∃ t, exec i s = .next t ∧ t.cfg = s.cfg ∧
      ∀ x y, OnPanel s.cfg x y → (t.pixel x y = some true ↔ s.pixel x y = some true ∨ S x y) := by
  obtain ⟨fb, he, hon, -⟩ := hd s h ha
  exact ⟨_, he, rfl, hon⟩

/-- Settles O27: of the five points the four cardinal ones are on the circle of radius 16 and the centre is not. -/
theorem circleScenario : Obligations.CircleScenario := by
  intro s h hcols hrows ha hoff
  obtain ⟨t, he, hcfg, hon⟩ := (circlePlotsMidpointSet 64 32 16).exec_pixel h ha
  have onPanel : ∀ x y : Int, 1 ≤ x ∧ x ≤ 128 ∧ 1 ≤ y ∧ y ≤ 64 → OnPanel s.cfg x y := by
    intro x y hp
    rw [OnPanel, hcols, hrows]
    exact hp
  have plotted : ∀ x y : Int, 1 ≤ x ∧ x ≤ 128 ∧ 1 ≤ y ∧ y ≤ 64 → CircleSet 16 (x - 64) (y - 32) →
      t.pixel x y = some true := fun x y hp hs => (hon x y (onPanel x y hp)).2 (.inr hs)
  have centre : t.pixel 64 32 = some false := by
    have hc : OnPanel s.cfg 64 32 := onPanel 64 32 (by decide)
    rw [State.pixel_eq_false_iff (hcfg ▸ hc), Ne, hon 64 32 hc]
    simp [hoff, CircleSet]
  refine ⟨t, he, plotted _ _ ?_ ?_, plotted _ _ ?_ ?_, plotted _ _ ?_ ?_, plotted _ _ ?_ ?_, centre⟩
  all_goals simp [CircleSet]

end Sys2Proof.Machine
end

section
/-! PROOFS. The statement of 43_canvas_pack.md: DISPLAYIMAGE packs the canvas bit by bit and sends the packed frame (R140
to R142, 44_transmission.md R154). The pack is a sweep over the buffer (`readByte_packCanvas`), and the address
`col + page*columns` gives page and column back (`readByte_packCanvas_page_col`). -/

namespace Sys2Proof.Machine

/-- DISPLAYIMAGE where commands are admitted (44_transmission.md R154). -/
theorem exec_displayImage {s : State} (h : s.Ready) :
    exec .displayImage s = .next ((activityReset s).andThen fun s => transmit (packCanvas s)).finish := by
  change execDisplayImage s = _
  exact runCommand_ready _ h

/-! ## The bytes of the pack (R141, R142) -/

theorem readByte_packCanvas (s : State) (a : Nat) :
    (packCanvas s).readByte a =
      if a < fbLen s.cfg then packByte s (a / s.cfg.columns) (a % s.cfg.columns) else s.readByte a :=
  s.readByte_sweepBytes _ a

/-- The byte of a page and a column lies below FBLEN. -/
theorem page_col_lt_fbLen {c : Config} {page col : Nat} (hp : page < pages c) (hc : col < c.columns) :
    col + page * c.columns < fbLen c :=
  calc col + page * c.columns < (page + 1) * c.columns := by rw [Nat.succ_mul]; omega
    _ ≤ pages c * c.columns := Nat.mul_le_mul_right _ hp
    _ = fbLen c := Nat.mul_comm ..

theorem readByte_packCanvas_page_col {s : State} {page col : Nat} (hp : page < pages s.cfg) (hc : col < s.cfg.columns) :
    (packCanvas s).readByte (col + page * s.cfg.columns) = packByte s page col := by
  have hdiv : (col + page * s.cfg.columns) / s.cfg.columns = page := by
    rw [Nat.add_mul_div_right _ _ (Nat.zero_lt_of_lt hc), Nat.div_eq_of_lt hc, Nat.zero_add]
  have hmod : (col + page * s.cfg.columns) % s.cfg.columns = col := by
    rw [Nat.add_mul_mod_self_right, Nat.mod_eq_of_lt hc]
  rw [readByte_packCanvas, if_pos (page_col_lt_fbLen hp hc), hdiv, hmod]

/-! ## The command (44_transmission.md R154) -/

/-- Settles O35: the activity reset and the transmission each run in their accepted form; the activity reset leaves
buffer and canvas alone, so the frame is the pack of the canvas as handed over, known bit by bit (`packByte_bit`). -/
theorem displayImagePacksCanvas : Obligations.DisplayImagePacksCanvas := by
  intro s h ha
  obtain ⟨hwake, hframe⟩ := State.accepts_add.1 ha
  have hsend : transmit (packCanvas s.afterActivity) = _ := transmit_accepted hframe
  refine ⟨(packCanvas s).fb, ?_, fun page col i hp hc hi => ?_, fun a hle => ?_⟩
  · rw [exec_displayImage h, activityReset_accepted h.2.2 hwake, going_andThen, hsend]
    rfl
  · exact (congrArg (·.getLsbD i) (readByte_packCanvas_page_col hp hc)).trans (packByte_bit s page col i hi)
  · exact (readByte_packCanvas s a).trans (if_neg hle.not_gt)

end Sys2Proof.Machine
end

section
/-! PROOFS. The statements of 44_transmission.md: SENDBUFFER's frame and the frame refused at any transfer (R152 to R154),
SETCONTRAST's target and fade (R155 to R158), and the fade refused (60_exceptions.md R187). The activity reset, the
transmission and the fade each have an accepted and a refused closed form; a fade that completed OK was accepted
(`fadeTo_of_going`). -/

namespace Sys2Proof.Machine

/-! ## SENDBUFFER (R153) -/

/-- SENDBUFFER where commands are admitted. -/
theorem exec_sendBuffer {s : State} (h : s.Ready) :
    exec .sendBuffer s = .next ((activityReset s).andThen transmit).finish := by
  change execSendBuffer s = _
  exact runCommand_ready _ h

/-- Settles O33: the activity reset leaves the buffer alone, so the frame it is followed by is that of the state before. -/
theorem sendBufferSendsFrame : Obligations.SendBufferSendsFrame := by
  intro s h ha
  obtain ⟨hwake, hframe⟩ := State.accepts_add.1 ha
  have hsend : transmit s.afterActivity = _ := transmit_accepted hframe
  rw [exec_sendBuffer h, activityReset_accepted h.2.2 hwake, going_andThen, hsend]
  rfl

/-! ## A frame refused (R152, 60_exceptions.md R187) -/

/-- After the activity reset the refusal is the reset's transfers nearer. -/
theorem State.RefusesAfter.afterActivity {s : State} {k : Nat} {rest : List BusAnswer}
    (h : s.RefusesAfter ((wakeTransfers s).length + k) rest) : s.afterActivity.RefusesAfter k rest :=
  State.RefusesAfter.sending h

/-- The three commands that send a frame differ in how `f` prepares the buffer; `fb` is the buffer they send. -/
theorem activityReset_transmit_refused {s : State} {k : Nat} {rest : List BusAnswer} (f : State → State) (fb : Memory)
    (hf : f s.afterActivity = { s.afterActivity with fb := fb }) (h : s.Ready) (hk : k < (frameTransfers s).length)
    (hr : s.RefusesAfter ((wakeTransfers s).length + k) rest) :
    ((activityReset s).andThen fun s => transmit (f s)).finish =
      (State.refusedAt { s.afterActivity with fb := fb } (frameTransfers { s with fb := fb }) k rest).complete .busErr 0 := by
  have hk' : k < (frameTransfers { s.afterActivity with fb := fb }).length := by
    rw [frameTransfers_length] at hk ⊢
    exact hk
  rw [activityReset_accepted h.2.2 hr.accepts, going_andThen, hf, transmit_refused hk' hr.afterActivity]
  rfl

/-- Settles O39: one refused frame each (`activityReset_transmit_refused`); the buffer is as it was, zero filled
(`readByte_zeroFill`), or packed (`packByte_bit`). -/
theorem frameBusError : Obligations.FrameBusError := by
  intro s k rest h hk hr
  refine ⟨?_, ⟨(zeroFill s).fb, ?_, fun a ha => ?_⟩, ⟨(packCanvas s).fb, ?_, fun page col i hp hc hi => ?_⟩⟩
  · rw [exec_sendBuffer h]
    exact congrArg _ (activityReset_transmit_refused id s.fb rfl h hk hr)
  · rw [exec_clearScreen h, activityReset_transmit_refused zeroFill (zeroFill s).fb rfl h hk hr]
  · exact (readByte_zeroFill s a).trans (if_pos ha)
  · rw [exec_displayImage h, activityReset_transmit_refused packCanvas (packCanvas s).fb rfl h hk hr]
  · exact (congrArg (·.getLsbD i) (readByte_packCanvas_page_col hp hc)).trans (packByte_bit s page col i hi)

/-! ## The contrast target (R156) -/

theorem target_of_not_tie (c : Config) {p : Nat} (ht : p ∉ [10, 30, 50, 70, 90]) :
    target c p = BitVec.ofNat 8 ((p * 255 + 50) / 100) := by
  simp only [List.mem_cons, List.not_mem_nil, or_false, not_or] at ht
  obtain ⟨h10, h30, h50, h70, h90⟩ := ht
  unfold target
  split
  case h_6 => rfl
  all_goals contradiction

theorem toNat_target_of_not_tie (c : Config) {p : Nat} (hp : p ≤ 100) (ht : p ∉ [10, 30, 50, 70, 90]) :
    (target c p).toNat = (p * 255 + 50) / 100 := by
  rw [target_of_not_tie c ht, BitVec.toNat_ofNat]
  omega

/-- At a tie the target is one half above or one half below, whatever CONTRAST_TIE says. -/
theorem toNat_target_of_tie (c : Config) {p : Nat} (ht : p ∈ [10, 30, 50, 70, 90]) :
    100 * (target c p).toNat = 255 * p + 50 ∨ 100 * (target c p).toNat + 50 = 255 * p := by
  simp only [List.mem_cons, List.not_mem_nil, or_false] at ht
  obtain rfl | rfl | rfl | rfl | rfl := ht
  all_goals
    simp only [target]
    split
    · exact .inl rfl
    · exact .inr rfl

/-- Settles O37: off the ties the quotient rounds to nearest (`toNat_target_of_not_tie`), at a tie both neighbours are one
half away (`toNat_target_of_tie`). -/
theorem targetIsNearest : Obligations.TargetIsNearest := by
  refine ⟨fun c _ => toNat_target_of_not_tie c, fun c => ?_, fun c p hp => ?_⟩
  · simp only [target, apply_ite BitVec.toNat]
    exact ⟨rfl, rfl, rfl, rfl, rfl⟩
  · by_cases ht : p ∈ [10, 30, 50, 70, 90]
    · obtain h | h := toNat_target_of_tie c ht <;> omega
    · rw [toNat_target_of_not_tie c hp ht]
      omega

/-! ## SETCONTRAST (R155, R157) -/

/-- SETCONTRAST where commands are admitted. -/
theorem exec_setContrast {s : State} (h : s.Ready) (pct : Int) :
    exec (.setContrast pct) s = .next (fadeTo (target s.cfg (clampPercent pct)) s).finish := by
  change execSetContrast pct s = _
  exact runCommand_ready _ h

theorem clampPercent_eq (pct : Int) :
    clampPercent pct = if pct < 0 then 0 else if 100 < pct then 100 else pct.toNat := by
  unfold clampPercent
  split
  · omega
  · split <;> omega

/-- Settles O36: the fade in its accepted form, the clamp written as its three cases. -/
theorem setContrastFades : Obligations.SetContrastFades := by
  intro s pct h p ha
  have hp : clampPercent pct = p := clampPercent_eq pct
  rw [exec_setContrast h, hp, fadeTo_accepted _ ha, going_finish]

/-- Settles O40: the fade in its refused form. -/
theorem setContrastBusError : Obligations.SetContrastBusError := by
  intro s pct k rest h t hk hr
  rw [exec_setContrast h, fadeTo_refused t hk hr]
  rfl

/-! ## The law of the fade (R158) -/

/-- The contrast values a fade from `a` to `b` sends. -/
def fadeValues (a b : Byte) : List Byte := (List.range ((b.toNat : Int) - a.toNat).natAbs).map (fadeValue a b)

theorem fadeTransfers_eq_map_fadeValues (a b : Byte) :
    fadeTransfers a b = (fadeValues a b).map fun v => .cmd (.setContrast v) := by
  simp only [fadeTransfers, fadeValues, List.map_map, Function.comp_def]

theorem length_fadeValues (a b : Byte) : (fadeValues a b).length = ((b.toNat : Int) - a.toNat).natAbs := by
  simp [fadeValues]

/-- A value on the way from `a` to `b` as a number: no unit step wraps around. -/
theorem toNat_fadeValue {a b : Byte} {k : Nat} (hk : k < ((b.toNat : Int) - a.toNat).natAbs) :
    ((fadeValue a b k).toNat : Int) = if a < b then (a.toNat : Int) + (k + 1) else (a.toNat : Int) - (k + 1) := by
  have ha := a.isLt
  have hb := b.isLt
  simp only [fadeValue, BitVec.lt_def]
  split
  · rw [BitVec.toNat_add, BitVec.toNat_ofNat]
    omega
  · rw [BitVec.toNat_sub, BitVec.toNat_ofNat]
    omega

/-- The last value sent is the one the fade goes to. -/
theorem fadeValue_last {a b : Byte} {n : Nat} (hn : ((b.toNat : Int) - a.toNat).natAbs = n + 1) : fadeValue a b n = b := by
  have hv := toNat_fadeValue (a := a) (b := b) (k := n) (by omega)
  simp only [BitVec.lt_def] at hv
  apply BitVec.eq_of_toNat_eq
  split at hv <;> omega

theorem getLast?_fadeValues {a b v : Byte} (h : (fadeValues a b).getLast? = some v) : v = b := by
  cases hn : ((b.toNat : Int) - a.toNat).natAbs with
  | zero => simp [fadeValues, hn] at h
  | succ n =>
    have hlast : fadeValue a b n = v := by simpa [fadeValues, hn, List.range_succ] using h
    rw [← hlast, fadeValue_last hn]

/-- Settles O38: a SETCONTRAST that completed OK went on to the end of its fade (`going_of_finish_ok`), so the device took
every value of it (`fadeTo_of_going`). -/
theorem fadeLaw : Obligations.FadeLaw := by
  intro s t pct h he hok
  rw [exec_setContrast h] at he
  generalize target s.cfg (clampPercent pct) = b at he
  obtain rfl := Host.Outcome.next.inj he
  have hgo : (fadeTo b s).how = .going := going_of_finish_ok (fadeTo_frame b s).completions hok
  rw [fadeTo_of_going hgo, going_finish]
  refine ⟨fadeValues s.contrast b, congrArg (s.trace ++ ·) (fadeTransfers_eq_map_fadeValues _ _), length_fadeValues _ _,
    fun k hk => ?_, fun v => getLast?_fadeValues⟩
  have hk' : k < ((b.toNat : Int) - s.contrast.toNat).natAbs := (length_fadeValues s.contrast b) ▸ hk
  have hget : (fadeValues s.contrast b)[k] = fadeValue s.contrast b k := by simp [fadeValues]
  rw [hget]
  exact toNat_fadeValue hk'

end Sys2Proof.Machine
end

section
/-! PROOFS. The statements of 45_system.md: `Admit()` (R165), INIT accepted and refused (R166, 60_exceptions.md R187),
RELEASE (R167) and RDREG (R169, 10_state.md R31). -/

namespace Sys2Proof.Machine

/-! ## RDREG (R169, 10_state.md R31) -/

theorem exec_rdReg_of_some {s : State} (h : s.Usable) {n : Nat} {v : Half} (hv : s.reg n = some v) :
    exec (.rdReg n) s = .next (s.complete .ok v) := by
  change execRdReg n s = _
  rw [execRdReg, runCommand_admitted _ h rfl, hv]

theorem exec_rdReg_of_none {s : State} (h : s.Usable) {n : Nat} (hv : s.reg n = none) :
    exec (.rdReg n) s = .next (s.complete .range 0) := by
  change execRdReg n s = _
  rw [execRdReg, runCommand_admitted _ h rfl, hv]

theorem State.reg_of_reserved (s : State) {n : Nat} (h : 13 ≤ n) : s.reg n = none := by
  unfold State.reg
  split
  case h_14 => rfl
  all_goals omega

/-- Register 10 as a sum of its bits. -/
theorem Flags.code_eq (f : Flags) :
    f.code = BitVec.ofNat 16
      ((if f.busErrSeen then 1 else 0) + (if f.fatal then 2 else 0) + (if f.illegalSeen then 4 else 0)) := by
  obtain ⟨b, f, i⟩ := f
  revert b f i
  decide

/-- Settles O45: RDREG answers `State.reg`, whose rows are those of R31: the parameters as they are, the codes by the values
they are of, and the bytes zero-extended. -/
theorem rdRegReadsTable : Obligations.RdRegReadsTable := by
  intro s h reads
  have reg {n v : Nat} (hv : s.reg n = some (BitVec.ofNat 16 v)) : reads n v := exec_rdReg_of_some h hv
  refine ⟨reg rfl, reg rfl, reg rfl, reg ?_, reg rfl, reg rfl, reg ?_, reg ?_, reg ?_, reg ?_, reg ?_, reg ?_, reg ?_,
    fun n hn => exec_rdReg_of_none h (s.reg_of_reserved hn)⟩
  · rw [State.reg, maxPage_eq]
  · rw [State.reg]
    cases s.pstate <;> rfl
  · rw [State.reg, BitVec.ofNat_toNat]
  · rw [State.reg, BitVec.ofNat_toNat]
  · rw [State.reg]
    rcases s.timer with _ | ⟨_ | _, _⟩ <;> rfl
  · rw [State.reg, Flags.code_eq]
  · rw [State.reg, BitVec.ofNat_toNat, BitVec.setWidth_eq]
  · rw [State.reg, BitVec.ofNat_toNat, BitVec.setWidth_eq]

/-! ## Admission (R165) -/

/-- A command whose `Admit()` ends it has no other effect, whichever command it is. -/
theorem exec_ended {i : Instr} {s : State} {st : Status} (h : s.Usable) (ha : admitStatus (admissionOf i) s = some st) :
    exec i s = .next (s.complete st 0) := by
  obtain ⟨body, e⟩ := exec_runs i
  rw [e, runCommand_ended body h ha]

/-- From `s` to `t`: a new record, if there is one, has neither of the statuses `Admit()` ends a command with. -/
def PastAdmit (s t : State) : Prop :=
  ∀ c : Completion, t.completions = s.completions ++ [c] → c.status ≠ .badState ∧ c.status ≠ .fatal

theorem PastAdmit.complete {s u : State} {st : Status} {d : Half} (hu : u.completions = s.completions)
    (hst : st ≠ .badState ∧ st ≠ .fatal) : PastAdmit s (u.complete st d) := by
  intro c hc
  obtain rfl : (⟨st, d⟩ : Completion) = c := by simpa [hu] using hc
  exact hst

/-- A bus procedure ends in OK, in BUSERR, or in a hang with no record. -/
theorem PastAdmit.finish {s : State} {r : Ran} (h : r.st.completions = s.completions) : PastAdmit s r.finish := by
  unfold Ran.finish
  split
  · exact .complete h (by decide)
  · exact .complete h (by decide)
  · intro c hc
    simp [h] at hc

theorem admissionOf_of_ne {i : Instr} (hinit : i ≠ .init) (hreg : ∀ n, i ≠ .rdReg n) : admissionOf i = .whenRunning := by
  cases i with
  | init => exact absurd rfl hinit
  | rdReg n => exact absurd rfl (hreg n)
  | _ => rfl

theorem admissionOf_of_isActivity {i : Instr} (h : i.isActivity = true) : admissionOf i = .whenRunning :=
  admissionOf_of_ne (by rintro rfl; cases h) (by rintro n rfl; cases h)

/-- Every command is an admission and a body, and no body ends BADSTATE or FATAL. -/
theorem exec_runs_pastAdmit (i : Instr) :
    ∃ body, (∀ s, exec i s = runCommand (admissionOf i) body s) ∧ ∀ s, PastAdmit s (body s) := by
  by_cases hi : i.isActivity = true
  · obtain ⟨f, hf, -, e⟩ := activity_form hi
    rw [admissionOf_of_isActivity hi]
    exact ⟨_, e, fun s => .finish (Ran.andThen_completions (activityReset_completions s) hf.completions)⟩
  · cases i
    case setPixel x y on =>
      exact ⟨_, fun _ => rfl, fun s => .complete (by rw [State.setPixel_eq]) (by decide)⟩
    case getPixel x y =>
      refine ⟨_, fun _ => rfl, fun s => ?_⟩
      split
      · exact .complete rfl (by decide)
      · exact .complete rfl (by decide)
    case clearBuffer =>
      exact ⟨_, fun _ => rfl, fun s => .complete rfl (by decide)⟩
    case rdByte idx =>
      refine ⟨_, fun _ => rfl, fun s => ?_⟩
      split
      · exact .complete rfl (by decide)
      · exact .complete rfl (by decide)
    case setContrast pct =>
      exact ⟨_, fun _ => rfl, fun s => .finish (fadeTo_frame _ s).completions⟩
    case init =>
      refine ⟨_, fun _ => rfl, fun s => .finish (Ran.andThen_completions (busCmds_frame _ s).completions fun u => ?_)⟩
      rw [restartTimer_eq, going_st]
    case release =>
      exact ⟨_, fun _ => rfl, fun s => .complete rfl (by decide)⟩
    case rdReg n =>
      refine ⟨_, fun _ => rfl, fun s => ?_⟩
      split
      · exact .complete rfl (by decide)
      · exact .complete rfl (by decide)
    all_goals exact absurd rfl hi

theorem exec_admitted {i : Instr} {s : State} (h : s.Usable) (ha : admitStatus (admissionOf i) s = none) :
    ∃ t, exec i s = .next t ∧ PastAdmit s t := by
  obtain ⟨body, e, hb⟩ := exec_runs_pastAdmit i
  exact ⟨body s, by rw [e, runCommand_admitted body h ha], hb s⟩

/-- Steps 3 to 5 of R165 for a command other than RDREG: FATAL first, then INIT outside Off and the rest in Off. -/
theorem admitStatus_admissionOf {i : Instr} (hreg : ∀ n, i ≠ .rdReg n) (s : State) :
    admitStatus (admissionOf i) s =
      if s.flags.fatal then some .fatal else if (i = .init ↔ s.pstate = .off) then none else some .badState := by
  by_cases hi : i = .init
  · subst hi
    simp [admissionOf, admitStatus]
  · simp [admissionOf_of_ne hi hreg, admitStatus, hi]

/-- Settles O10: the order is `admitStatus`'s (`admitStatus_admissionOf`); what it ends is `exec_ended`, and what it lets go
on never ends BADSTATE or FATAL itself (`exec_admitted`). -/
theorem admissionOrder : Obligations.AdmissionOrder := by
  intro s hs
  refine ⟨fun w hw => handOver_illegal hw hs, fun n => ?_, fun i hi => ?_⟩
  · cases hv : s.reg n with
    | some v => exact ⟨.ok, v, .inl rfl, exec_rdReg_of_some hs hv⟩
    | none => exact ⟨.range, 0, .inr rfl, exec_rdReg_of_none hs hv⟩
  · have ha := admitStatus_admissionOf hi s
    refine ⟨fun hf => exec_ended hs (by simp [ha, hf]), fun hf => ⟨fun h1 h2 => ?_, fun h1 h2 => ?_, fun h => ?_⟩⟩
    · exact exec_ended hs (by rw [ha]; simp [hf, h1, h2])
    · exact exec_ended hs (by rw [ha]; simp [hf, h1, h2])
    · exact exec_admitted hs (by simp [ha, hf, h])

/-! ## INIT (R166) and RELEASE (R167) -/

/-- INIT where it is admitted. -/
theorem exec_init {s : State} (h : s.Usable) (hf : s.flags.fatal = false) (hp : s.pstate = .off) :
    exec .init s = .next ((busCmds s.cfg.initSeq s).andThen fun s =>
      going (restartTimer { s with contrast := s.cfg.contrastInit, pstate := .on })).finish := by
  change execInit s = _
  exact runCommand_admitted _ h (by simp [admitStatus, hf, hp])

/-- Settles O42: INITSEQ in its accepted form, then the timer as `restartTimer_eq` says. -/
theorem initTurnsOn : Obligations.InitTurnsOn := by
  intro s h hf hp ha
  rw [exec_init h hf hp, busCmds_accepted _ ha, going_andThen, restartTimer_eq, going_finish]
  rfl

/-- Settles O43: INITSEQ in its refused form; nothing after it runs. -/
theorem initBusError : Obligations.InitBusError := by
  intro s k rest h hf hp hk hr
  rw [exec_init h hf hp, busCmds_refused _ hk hr]
  rfl

/-- Settles O44: the body of RELEASE, where commands are admitted. -/
theorem releaseTurnsOff : Obligations.ReleaseTurnsOff := by
  intro s h
  change execRelease s = _
  exact runCommand_ready _ h

end Sys2Proof.Machine
end

section
/-! PROOFS. The statements of 60_exceptions.md: the flags (R176) and FATAL (R178), activity (R180 to R182), the idle timer
(R183, R185, R186, R193), the power states (R184) and hangs (R191). -/

namespace Sys2Proof.Machine

/-! ## The timer transition (R183, R186) -/

theorem idleFire_of_fatal {s : State} (h : s.flags.fatal = true) : idleFire s = going { s with timer := .stopped } := by
  simp [idleFire, State.setTimer, h]

theorem idleFire_of_resting {s : State} (h : s.pstate = .sleep ∨ s.pstate = .off) :
    idleFire s = going { s with timer := .stopped } := by
  rcases h with h | h <;> simp [idleFire, State.setTimer, h]

theorem idleFire_of_on {s : State} (hf : s.flags.fatal = false) (hp : s.pstate = .on) :
    idleFire s = (fadeTo 0 { s with timer := .stopped, preDim := s.contrast }).andThen fun u =>
      going { u with pstate := .dim, timer := if 0 < u.cfg.sleepSeconds then .armed .sleepPhase u.now else .stopped } := by
  simp [idleFire, State.setTimer, hf, hp]

theorem idleFire_of_dim {s : State} (hf : s.flags.fatal = false) (hp : s.pstate = .dim) :
    idleFire s = (busCmd .displayOff { s with timer := .stopped }).andThen fun u =>
      going { u with pstate := .sleep, timer := .stopped } := by
  simp [idleFire, State.setTimer, hf, hp]

/-- Settles O46: an armed timer runs `idleFire`, whose fade to 0 and whose DisplayOff meet an accepting device. -/
theorem idleTransition : Obligations.IdleTransition := by
  refine ⟨fun s hs t => ?_, fun s p t0 hu ht => ?_⟩
  · rw [step_fire, timerFires_stopped hs]
    exact nofun
  · rw [step_fire, timerFires_armed hu ht]
    refine ⟨fun hf => ?_, fun hf hp ha => ?_, fun hf hp ha => ?_, fun hp => ?_⟩
    · rw [idleFire_of_fatal hf, going_st]
    · have hfade := fadeTo_accepted 0 (s := { s with timer := .stopped, preDim := s.contrast }) ha
      rw [idleFire_of_on hf hp, hfade]
      rfl
    · have hoff := busTransfer_accepted (.cmd .displayOff) (s := { s with timer := .stopped }) ha
      rw [idleFire_of_dim hf hp, busCmd, hoff]
      rfl
    · rw [idleFire_of_resting hp, going_st]

/-- Settles O47: the fade to 0 and DisplayOff in their refused forms; the timer was stopped before either. -/
theorem idleTransitionBusError : Obligations.IdleTransitionBusError := by
  intro s p t0 k rest hu ht hf hr
  rw [step_fire, timerFires_armed hu ht]
  refine ⟨fun hp hk => ?_, fun hp hk => ?_⟩
  · have hfade := fadeTo_refused 0 (s := { s with timer := .stopped, preDim := s.contrast }) hk hr
    rw [idleFire_of_on hf hp, hfade]
    rfl
  · subst hk
    have hoff := busTransfer_refused_zero (.cmd .displayOff) (s := { s with timer := .stopped }) hr []
    rw [idleFire_of_dim hf hp, busCmd, hoff]
    rfl

/-- Settles O11: `Admit()` looks at FATAL before the power state (`admitStatus_admissionOf`), and so does `idleFire`. -/
theorem afterFatal : Obligations.AfterFatal := by
  intro s hu hf
  refine ⟨fun i hi => exec_ended hu ?_, fun p t0 ht => ?_⟩
  · rw [admitStatus_admissionOf hi, if_pos hf]
  · rw [step_fire, timerFires_armed hu ht, idleFire_of_fatal hf, going_st]

/-! ## Procedures as lists of transfers -/

/-- Hand over the transfers in order; stop at the first that is not accepted. -/
def busTransfers : List Transfer → State → Ran
  | [], s => going s
  | t :: ts, s => (busTransfer t s).andThen (busTransfers ts)

theorem Ran.andThen_congr {r : Ran} {f g : State → Ran} (h : f r.st = g r.st) : r.andThen f = r.andThen g := by
  unfold Ran.andThen
  rw [h]

theorem busTransfers_append (as bs : List Transfer) (s : State) :
    busTransfers (as ++ bs) s = (busTransfers as s).andThen (busTransfers bs) := by
  induction as generalizing s with
  | nil => rfl
  | cons t as ih =>
    rw [List.cons_append, busTransfers, busTransfers, Ran.andThen_assoc]
    exact Ran.andThen_congr (ih _)

theorem busCmds_eq_busTransfers (cs : List DeviceCmd) (s : State) : busCmds cs s = busTransfers (cs.map .cmd) s := by
  induction cs generalizing s with
  | nil => rfl
  | cons c cs ih => exact Ran.andThen_congr (ih _)

theorem chunkTransfers_congr {s t : State} (hf : t.fb = s.fb) (he : t.epoch = s.epoch) (n k : Nat) :
    chunkTransfers t n k = chunkTransfers s n k := by
  simp only [chunkTransfers, State.chunk, State.readByte_congr hf he]

theorem sendChunks_eq_busTransfers (n k : Nat) (s : State) :
    sendChunks n k s = busTransfers (chunkTransfers s n k) s := by
  induction n generalizing k s with
  | zero => rfl
  | succ n ih =>
    have hframe := busTransfer_frame (.data (s.chunk k)) s
    rw [sendChunks, chunkTransfers_succ, busTransfers, busData]
    refine Ran.andThen_congr ?_
    rw [ih, chunkTransfers_congr hframe.fb hframe.epoch]

/-- The transmission is the transfers of one frame (44_transmission.md R152). -/
theorem transmit_eq_busTransfers (s : State) : transmit s = busTransfers (frameTransfers s) s := by
  have hframe := busCmds_frame [.setColumnAddress 0 (s.cfg.columns - 1), .setPageRange 0 (maxPage s.cfg)] s
  rw [transmit, frameTransfers_eq, busTransfers_append]
  refine Eq.trans (Ran.andThen_congr ?_) (congrArg (Ran.andThen · _) (busCmds_eq_busTransfers [_, _] s))
  rw [sendChunks_eq_busTransfers, chunkTransfers_congr hframe.fb hframe.epoch]

theorem busTransfers_of_going {ts : List Transfer} {s : State} (h : (busTransfers ts s).how = .going) :
    busTransfers ts s = going (s.sending ts) := by
  induction ts generalizing s with
  | nil => rw [State.sending_nil]; rfl
  | cons t ts ih =>
    rw [busTransfers] at h ⊢
    obtain ⟨hfirst, hrest⟩ := Ran.going_of_andThen h
    have hsent := busTransfer_accepted t (accepts_of_busTransfer hfirst)
    rw [hsent, going_st] at hrest
    rw [hsent, going_andThen, ih hrest, State.sending_sending]
    rfl

/-- Transfer `k` is never answered (R191; that it is not in the trace is log 6). -/
theorem busTransfers_silent {ts : List Transfer} {s : State} {k : Nat} {rest : List BusAnswer} (hk : k < ts.length)
    (h : s.device = List.replicate k .accept ++ .silent :: rest) :
    busTransfers ts s =
      { st := { s with device := rest, hung := true, trace := s.trace ++ ts.take k }, how := .hung } := by
  induction ts generalizing s k with
  | nil => simp at hk
  | cons t ts ih =>
    cases k with
    | zero =>
      have hd : s.device = .silent :: rest := h
      simp [busTransfers, busTransfer, hd, Ran.andThen]
    | succ k =>
      have hd : s.device = .accept :: (List.replicate k .accept ++ .silent :: rest) := h
      rw [busTransfers, busTransfer, hd]
      dsimp only
      rw [going_andThen, ih (by simpa using hk) rfl]
      simp

/-! ## Hangs (R191) -/

theorem guarded_hung {s : State} (k : State → State) (ha : admitted s.cfg = true) (hh : s.hung = true) :
    guarded s k = .fault .deviceHung := by
  simp [guarded, ha, hh]

theorem exec_hung {s : State} (i : Instr) (ha : admitted s.cfg = true) (hh : s.hung = true) :
    exec i s = .fault .deviceHung := by
  obtain ⟨body, e⟩ := exec_runs i
  rw [e]
  exact guarded_hung _ ha hh

theorem handOver_hung {s : State} (w : Word) (ha : admitted s.cfg = true) (hh : s.hung = true) :
    handOver w s = .fault .deviceHung := by
  unfold handOver
  split
  · exact exec_hung _ ha hh
  · exact guarded_hung _ ha hh

theorem timerFires_hung {s : State} {p : TimerPhase} {t0 : Rat} (ha : admitted s.cfg = true) (hh : s.hung = true)
    (ht : s.timer = .armed p t0) : timerFires s = .fault .deviceHung := by
  unfold timerFires
  rw [ht]
  exact guarded_hung _ ha hh

theorem activityReset_of_on {s : State} (hp : s.pstate = .on) : activityReset s = going (restartTimer s) := by
  rw [activityReset, restoreOn, hp]
  rfl

/-- A frame whose transfer `k` is never answered, from On. -/
theorem exec_sendBuffer_silent {s : State} {k : Nat} {rest : List BusAnswer} (h : s.Ready) (hp : s.pstate = .on)
    (hk : k < (frameTransfers s).length) (hd : s.device = List.replicate k .accept ++ .silent :: rest) :
    exec .sendBuffer s = .next { restartTimer s with
      device := rest, hung := true, trace := s.trace ++ (frameTransfers s).take k } := by
  have hlen : k < (frameTransfers (restartTimer s)).length := by
    rw [frameTransfers_length] at hk ⊢
    rwa [restartTimer_eq]
  have hdev : (restartTimer s).device = List.replicate k .accept ++ .silent :: rest := by rwa [restartTimer_eq]
  rw [exec_sendBuffer h, activityReset_of_on hp, going_andThen, transmit_eq_busTransfers, busTransfers_silent hlen hdev]
  rw [restartTimer_eq]
  rfl

/-- A command that hangs hands over no record and sets no flag. -/
theorem exec_hangs {i : Instr} {s t : State} (h : exec i s = .next t) (hh : t.hung = true) :
    t.completions = s.completions ∧ t.flags = s.flags := by
  rcases (summary_exec h).completes with ⟨hn, -⟩ | ⟨-, hc, hf⟩
  · rw [hn] at hh; cases hh
  · exact ⟨hc, hf⟩

theorem timerFires_hangs {s t : State} (h : timerFires s = .next t) (hh : t.hung = true) :
    t.completions = s.completions ∧ t.flags = s.flags := by
  obtain ⟨hu, -, rfl⟩ := timerFires_next h
  have htells := idleFire_tells s
  refine ⟨(idleFire_frame s).completions, htells.flags ?_⟩
  rw [(htells.hung hu.2).2 hh]
  decide

/-- Settles O13: the frame as a list of transfers hangs where the answer stays out (`busTransfers_silent`), and every
operation of either agent runs under `guarded`. -/
theorem hangIsForever : Obligations.HangIsForever :=
  ⟨fun _ _ _ h hp hk hd => ⟨_, exec_sendBuffer_silent h hp hk hd, rfl, rfl⟩,
    fun _ _ _ => exec_hangs,
    fun _ _ => timerFires_hangs,
    fun _ ha hh => ⟨fun i => exec_hung i ha hh, fun w => handOver_hung w ha hh, fun _ _ ht => timerFires_hung ha hh ht⟩⟩

/-! ## Activity commands (R180 to R182) -/

/-- Activity, then a write `g` to the buffer and its frame: what OK means. -/
theorem activityReset_transmit_ok {s : State} {g : State → State} (hg : ∀ u, g u = { u with fb := (g u).fb })
    (hp : s.pstate ≠ .off)
    (hc : ((activityReset s).andThen fun u => transmit (g u)).finish.completions =
      s.completions ++ [{ status := .ok, data := 0 }]) :
    ∃ fb own, ((activityReset s).andThen fun u => transmit (g u)).finish =
      (State.sending { s.afterActivity with fb := fb } own).complete .ok 0 := by
  have hkeep (u : State) : (transmit (g u)).st.completions = u.completions := by
    rw [(transmit_frame _).completions, hg]
  have hgo := going_of_finish_ok (Ran.andThen_completions (activityReset_completions s) hkeep) hc
  obtain ⟨hreset, hsend⟩ := Ran.going_of_andThen hgo
  rw [activityReset_of_going hp hreset, going_st, transmit_eq_busTransfers] at hsend
  refine ⟨(g s.afterActivity).fb, frameTransfers (g s.afterActivity), ?_⟩
  rw [activityReset_of_going hp hreset, going_andThen, transmit_eq_busTransfers, busTransfers_of_going hsend, going_finish,
    ← hg]

/-- An activity command that completes OK: the whole activity reset, a write to the buffer, and its own transfers, of which
only the commands that send a frame have any. -/
theorem exec_activity_ok {i : Instr} {s t : State} (hi : i.isActivity = true) (h : s.Ready) (he : exec i s = .next t)
    (hc : t.completions = s.completions ++ [{ status := .ok, data := 0 }]) :
    ∃ fb own, t = (State.sending { s.afterActivity with fb := fb } own).complete .ok 0 ∧
      (i.sendsFrame = false → own = []) := by
  have hp := h.2.2
  by_cases hs : i.sendsFrame = true
  · have frame {g : State → State} (hg : ∀ u, g u = { u with fb := (g u).fb })
        (e : exec i s = .next ((activityReset s).andThen fun u => transmit (g u)).finish) :
        ∃ fb own, t = (State.sending { s.afterActivity with fb := fb } own).complete .ok 0 ∧
          (i.sendsFrame = false → own = []) := by
      obtain rfl := Host.Outcome.next.inj (e.symm.trans he)
      obtain ⟨fb, own, et⟩ := activityReset_transmit_ok hg hp hc
      exact ⟨fb, own, et, fun hn => by rw [hn] at hs; cases hs⟩
    cases i
    case clearScreen => exact frame (fun _ => rfl) (exec_clearScreen h)
    case sendBuffer => exact frame (g := id) (fun _ => rfl) (exec_sendBuffer h)
    case displayImage => exact frame (fun _ => rfl) (exec_displayImage h)
    all_goals cases hs
  · obtain ⟨f, hf, hplot, e⟩ := activity_form hi
    rw [e, runCommand_ready _ h] at he
    obtain rfl := Host.Outcome.next.inj he
    have hgo := going_of_finish_ok (Ran.andThen_completions (activityReset_completions s) hf.completions) hc
    obtain ⟨fb, efb⟩ := hplot (Bool.eq_false_of_not_eq_true hs) s.afterActivity
    refine ⟨fb, [], ?_, fun _ => rfl⟩
    rw [activityReset_of_going hp (Ran.going_of_andThen hgo).1, going_andThen, efb, going_finish, State.sending_nil]

/-- Settles O30: a command that completed OK left `afterActivity` with the buffer written and its own transfers sent. -/
theorem activityRestoresOn : Obligations.ActivityRestoresOn := by
  intro i s t hi h he hc
  obtain ⟨fb, own, rfl, hown⟩ := exec_activity_ok hi h he hc
  exact ⟨rfl, rfl, rfl, rfl, own, rfl, hown⟩

/-- An activity reset that meets a refusal is the whole command. -/
theorem exec_activity_refused {i : Instr} {s u : State} (hi : i.isActivity = true) (h : s.Ready)
    (hr : activityReset s = { st := u, how := .busError }) : exec i s = .next (u.complete .busErr 0) := by
  obtain ⟨f, -, -, e⟩ := activity_form hi
  rw [e, runCommand_ready _ h, hr, busError_andThen]
  rfl

/-- Settles O32: the refused forms of the activity reset, from Dim, at DisplayOn and in the fade after it. -/
theorem activityResetBusError : Obligations.ActivityResetBusError := by
  intro i s k rest hi h hk hr
  refine ⟨fun hp => ?_, fun hp hk0 => ?_, fun hp j hkj => ?_⟩
  · exact exec_activity_refused hi h (activityReset_refused_dim hp hk hr)
  · subst hk0
    exact exec_activity_refused hi h (activityReset_refused_sleep_zero hp hr)
  · subst hkj
    exact exec_activity_refused hi h (activityReset_refused_sleep_succ hp hk hr)

/-! ## The other commands (R180) -/

/-- From `s` to `t`: a write to the buffer and a record, nothing else. -/
def WritesOnly (s t : State) : Prop := ∃ fb st d, t = State.complete { s with fb := fb } st d

theorem WritesOnly.complete (s : State) (st : Status) (d : Half) : WritesOnly s (s.complete st d) := ⟨s.fb, st, d, rfl⟩

/-- From the body of a command to the command: one that `Admit()` ends only adds its record. -/
theorem WritesOnly.command {a : Admission} {body : State → State} {s t : State} (h : runCommand a body s = .next t)
    (hb : WritesOnly s (body s)) : WritesOnly s t := by
  obtain ⟨-, ⟨st, -, rfl⟩ | ⟨-, rfl⟩⟩ := runCommand_next h
  · exact .complete s st 0
  · exact hb

/-- Outside the activity class only INIT, RELEASE and SETCONTRAST do more than write to the buffer and complete. -/
theorem exec_writesOnly {i : Instr} {s t : State} (ha : i.isActivity = false) (hinit : i ≠ .init) (hrel : i ≠ .release)
    (hcon : ∀ p, i ≠ .setContrast p) (h : exec i s = .next t) : WritesOnly s t := by
  cases i
  case setPixel x y on =>
    change execSetPixel x y on s = _ at h
    exact .command h ⟨_, .ok, 0, by rw [State.setPixel_eq]⟩
  case getPixel x y =>
    change execGetPixel x y s = _ at h
    refine .command h ?_
    split
    · exact .complete s _ _
    · exact .complete s _ _
  case clearBuffer =>
    change execClearBuffer s = _ at h
    exact .command h ⟨_, .ok, 0, rfl⟩
  case rdByte idx =>
    change execRdByte idx s = _ at h
    refine .command h ?_
    split
    · exact .complete s _ _
    · exact .complete s _ _
  case rdReg n =>
    change execRdReg n s = _ at h
    refine .command h ?_
    split
    · exact .complete s _ _
    · exact .complete s _ _
  case setContrast p => exact absurd rfl (hcon p)
  case init => exact absurd rfl hinit
  case release => exact absurd rfl hrel
  all_goals cases ha

/-- The end of a bus procedure adds a record and leaves the power state. -/
theorem Ran.finish_power (r : Ran) :
    r.finish.pstate = r.st.pstate ∧ r.finish.timer = r.st.timer ∧ r.finish.preDim = r.st.preDim := by
  unfold Ran.finish
  split <;> exact ⟨rfl, rfl, rfl⟩

/-- SETCONTRAST is no activity (44_transmission.md R155): its fade moves the contrast alone. -/
theorem exec_setContrast_power {p : Int} {s t : State} (h : exec (.setContrast p) s = .next t) :
    t.pstate = s.pstate ∧ t.timer = s.timer ∧ t.preDim = s.preDim := by
  change execSetContrast p s = _ at h
  obtain ⟨-, ⟨st, -, rfl⟩ | ⟨-, rfl⟩⟩ := runCommand_next h
  · exact ⟨rfl, rfl, rfl⟩
  · have hframe := fadeTo_frame (target s.cfg (clampPercent p)) s
    obtain ⟨hp, ht, hd⟩ := (fadeTo (target s.cfg (clampPercent p)) s).finish_power
    exact ⟨hp.trans hframe.pstate, ht.trans hframe.timer, hd.trans hframe.preDim⟩

/-- Settles O31: SETCONTRAST by its fade, the rest by `exec_writesOnly`. -/
theorem otherCommandsKeepPower : Obligations.OtherCommandsKeepPower := by
  intro i s t ha hinit hrel h
  by_cases hcon : ∃ p, i = .setContrast p
  · obtain ⟨p, rfl⟩ := hcon
    obtain ⟨hp, ht, hd⟩ := exec_setContrast_power h
    exact ⟨hp, ht, hd, fun hne => absurd rfl (hne p)⟩
  · obtain ⟨fb, st, d, rfl⟩ := exec_writesOnly ha hinit hrel (not_exists.1 hcon) h
    exact ⟨rfl, rfl, rfl, fun _ => ⟨rfl, rfl, rfl, rfl⟩⟩

/-! ## Flags (R176) -/

/-- Every flag of `f` is set in `g`. -/
structure Flags.Kept (f g : Flags) : Prop where
  busErrSeen : f.busErrSeen = true → g.busErrSeen = true
  fatal : f.fatal = true → g.fatal = true
  illegalSeen : f.illegalSeen = true → g.illegalSeen = true

theorem Flags.Kept.refl (f : Flags) : f.Kept f := ⟨id, id, id⟩

theorem handOver_flags {s t : State} {w : Word} (h : handOver w s = .next t) : s.flags.Kept t.flags := by
  obtain ⟨i, -, hi⟩ | ⟨-, -, rfl⟩ := handOver_cases h
  · have hsum := summary_exec hi
    exact ⟨hsum.busErr, hsum.kept.fatal.trans, hsum.kept.illegalSeen.trans⟩
  · exact ⟨id, id, fun _ => rfl⟩

theorem timerFires_flags {s t : State} (h : timerFires s = .next t) : s.flags.Kept t.flags := by
  obtain ⟨-, -, rfl⟩ := timerFires_next h
  have hframe := idleFire_frame s
  exact ⟨hframe.busErr, hframe.fatal.trans, hframe.illegalSeen.trans⟩

theorem step_flags {s t : State} (h : step s = .next t) (hr : ∀ rest, s.inputs ≠ .reset :: rest) :
    s.flags.Kept t.flags := by
  obtain ⟨-, rfl⟩ | ⟨w, rest, -, hw⟩ | ⟨rest, -, hf⟩ | ⟨c, rest, -, rfl⟩ | ⟨c, rest, -, rfl⟩ | ⟨rest, hi, -⟩ := step_cases h
  · exact .refl _
  · exact handOver_flags (s := { s with inputs := rest }) hw
  · exact timerFires_flags (s := { s with inputs := rest }) hf
  · exact .refl _
  · exact .refl _
  · exact absurd hi (hr rest)

theorem fatal_of_admitStatus {a : Admission} {s : State} (h : admitStatus a s = some .fatal) : s.flags.fatal = true := by
  by_contra hf
  cases a <;> simp [admitStatus, hf] at h

/-- No body ends FATAL (`exec_runs_pastAdmit`): the record comes from `Admit()`, which looked at the flag. -/
theorem exec_fatal {i : Instr} {s t : State} {c : Completion} (h : exec i s = .next t)
    (hc : t.completions = s.completions ++ [c]) (hst : c.status = .fatal) : s.flags.fatal = true := by
  obtain ⟨body, e, hbody⟩ := exec_runs_pastAdmit i
  rw [e] at h
  obtain ⟨-, ⟨st, ha, rfl⟩ | ⟨-, rfl⟩⟩ := runCommand_next h
  · obtain rfl : (⟨st, 0⟩ : Completion) = c := by simpa using hc
    obtain rfl : st = .fatal := hst
    exact fatal_of_admitStatus ha
  · exact absurd hst (hbody s c hc).2

/-- What the status of a record says of the flags before and after. -/
structure Completion.Flagged (c : Completion) (f g : Flags) : Prop where
  busErr : c.status = .busErr → g.busErrSeen = true
  illegal : c.status = .illegal → g.illegalSeen = true
  fatal : c.status = .fatal → g.fatal = true
  refused : c.status = .badState ∨ c.status = .range → g = f

theorem exec_flagged {i : Instr} {s t : State} {c : Completion} (h : exec i s = .next t)
    (hc : t.completions = s.completions ++ [c]) : c.Flagged s.flags t.flags := by
  have hsum := summary_exec h
  rcases hsum.completes with ⟨-, c', hc', hill, hbus, hflags, -⟩ | ⟨-, hnone, -⟩
  · obtain rfl : c' = c := by simpa [hc] using hc'.symm
    refine ⟨hbus, fun e => absurd e hill, fun e => hsum.kept.fatal.trans (exec_fatal h hc e), fun e => hflags fun eb => ?_⟩
    simp [eb] at e
  · simp [hnone] at hc

theorem handOver_flagged {s t : State} {w : Word} {c : Completion} (h : handOver w s = .next t)
    (hc : t.completions = s.completions ++ [c]) : c.Flagged s.flags t.flags := by
  obtain ⟨i, -, hi⟩ | ⟨-, -, rfl⟩ := handOver_cases h
  · exact exec_flagged hi hc
  · obtain rfl : (⟨.illegal, 0⟩ : Completion) = c := by simpa using hc
    exact ⟨nofun, fun _ => rfl, nofun, by simp⟩

/-- Settles O51: `step_flags` keeps the flags, `handOver_flagged` ties them to the status, reset clears them. -/
theorem flagsAreSticky : Obligations.FlagsAreSticky := by
  refine ⟨fun s t h hr => ?_, fun s t w c h hc => ?_, fun s t h => ?_⟩
  · obtain ⟨hb, hf, hi⟩ := step_flags h hr
    exact ⟨hb, hf, hi⟩
  · obtain ⟨hb, hi, hf, hr⟩ := handOver_flagged h hc
    exact ⟨hb, hi, hf, hr⟩
  · rw [step_before, onEvent] at h
    obtain rfl := Host.Outcome.next.inj h
    rfl

/-! ## Power states (R184) -/

/-- The moves of the power state (R184): none, or by reset, INIT, RELEASE, activity and the two timer transitions. -/
inductive PowerMove (s t : State) : Prop
  | stays (ht : t.pstate = s.pstate)
  | reset {rest : List Event} (hi : s.inputs = .reset :: rest) (ht : t.pstate = .off)
  | init {w : Word} {rest : List Event} (hi : s.inputs = .command w :: rest) (hd : decode w = some .init)
      (hs : s.pstate = .off) (ht : t.pstate = .on)
  | release {w : Word} {rest : List Event} (hi : s.inputs = .command w :: rest) (hd : decode w = some .release)
      (ht : t.pstate = .off)
  | activity (hs : s.pstate ≠ .off) (ht : t.pstate = .on)
  | dims {rest : List Event} (hi : s.inputs = .fire :: rest) (hs : s.pstate = .on) (ht : t.pstate = .dim)
  | sleeps {rest : List Event} (hi : s.inputs = .fire :: rest) (hs : s.pstate = .dim) (ht : t.pstate = .sleep)

theorem powerMove_handOver {s t : State} {w : Word} {rest : List Event} (hi : s.inputs = .command w :: rest)
    (h : handOver w { s with inputs := rest } = .next t) : PowerMove s t := by
  obtain ⟨i, hd, he⟩ | ⟨-, -, rfl⟩ := handOver_cases h
  · rcases exec_pstate he with ht | ⟨rfl, hs, ht⟩ | ⟨rfl, ht⟩ | ⟨-, hs, ht⟩
    · exact .stays ht
    · exact .init hi hd hs ht
    · exact .release hi hd ht
    · exact .activity hs ht
  · exact .stays rfl

theorem powerMove_timerFires {s t : State} {rest : List Event} (hi : s.inputs = .fire :: rest)
    (h : timerFires { s with inputs := rest } = .next t) : PowerMove s t := by
  obtain ⟨-, -, rfl⟩ := timerFires_next h
  rcases idleFire_pstate { s with inputs := rest } with ht | ⟨hs, ht⟩ | ⟨hs, ht⟩
  · exact .stays ht
  · exact .dims hi hs ht
  · exact .sleeps hi hs ht

theorem step_powerMove {s t : State} (h : step s = .next t) : PowerMove s t := by
  obtain ⟨-, rfl⟩ | ⟨w, rest, hi, hw⟩ | ⟨rest, hi, hf⟩ | ⟨c, rest, -, rfl⟩ | ⟨c, rest, -, rfl⟩ | ⟨rest, hi, rfl⟩ :=
    step_cases h
  · exact .stays rfl
  · exact powerMove_handOver hi hw
  · exact powerMove_timerFires hi hf
  · exact .stays rfl
  · exact .stays rfl
  · exact .reset hi rfl

/-- Settles O52, move by move (`step_powerMove`). -/
theorem powerStateTransitions : Obligations.PowerStateTransitions := by
  intro s t h
  cases step_powerMove h with
  | stays ht => simp +contextual [ht]
  | reset hi ht => simp [hi, ht]
  | init hi hd hs ht => simp [hi, hd, hs, ht]
  | release hi hd ht => simp [hi, hd, ht]
  | activity hs ht => simp [hs, ht]
  | dims hi hs ht => simp [hi, hs, ht]
  | sleeps hi hs ht => simp [hi, hs, ht]

/-! ## The timed model (R185) -/

theorem timedStep_before (e : Event) (s : State) :
    timedStep (s.before e) = if timedEnabled e s then step (s.before e) else .refused .notDue := by
  cases e <;> rfl

theorem timedEnabled_fire {s : State} {p : TimerPhase} {t0 : Rat} (ht : s.timer = .armed p t0) (hh : s.hung = false) :
    timedEnabled .fire s = decide (s.now = t0 + interval s.cfg p) := by
  simp [timedEnabled, dueTime, ht, hh]

theorem timedEnabled_clock {s : State} {p : TimerPhase} {t0 : Rat} (ht : s.timer = .armed p t0) (hh : s.hung = false)
    (t : Rat) : timedEnabled (.clock t) s = decide (max s.now t ≤ t0 + interval s.cfg p) := by
  simp [timedEnabled, dueTime, ht, hh]

/-- Settles O54: `timedStep` is `step` where `timedEnabled` says so, and that compares with the due time for a fire and for
the clock only. -/
theorem timedFireExactlyWhenDue : Obligations.TimedFireExactlyWhenDue := by
  intro s p t0 ht hh due
  have hdue : t0 + interval s.cfg p = due := by cases p <;> rfl
  have hfire : timedEnabled .fire s = decide (s.now = due) := by rw [timedEnabled_fire ht hh, hdue]
  have hclock (t : Rat) : timedEnabled (.clock t) s = decide (max s.now t ≤ due) := by
    rw [timedEnabled_clock ht hh, hdue]
  simp only [timedStep_before, hfire, hclock, decide_eq_true_eq]
  refine ⟨fun h => if_pos h, fun h => if_neg h, fun t hn hle => if_pos (max_le hn hle), fun t hlt => if_neg fun hle => ?_,
    fun w => rfl, fun c => rfl, rfl⟩
  exact absurd ((le_max_right s.now t).trans hle) (not_le.2 hlt)

/-! ## P6 as a timeline (R193) -/

/-! ### An accepting device and what wakes it -/

/-- A device whose answers are used up accepts (log 5). -/
theorem State.accepts_of_no_answers {s : State} (h : s.device = []) (n : Nat) : s.Accepts n := by
  simp [State.Accepts, h]

theorem State.afterActivity_of_restored {s : State} (hp : s.pstate ≠ .on) (hd : 0 < s.cfg.dimSeconds) :
    s.afterActivity = State.sending
      { s with pstate := .on, contrast := s.preDim, timer := .armed .dimPhase s.now } (wakeTransfers s) := by
  rw [State.afterActivity, if_neg hp, if_pos (.inl hd)]

theorem wakeTransfers_of_dim {s : State} (hp : s.pstate = .dim) :
    wakeTransfers s = fadeTransfers s.contrast s.preDim := by
  rw [wakeTransfers, hp]

theorem wakeTransfers_of_sleep {s : State} (hp : s.pstate = .sleep) :
    wakeTransfers s = .cmd .displayOn :: fadeTransfers s.contrast s.preDim := by
  rw [wakeTransfers, hp]

/-! ### Runs of the timed model -/

theorem timedRun_succ {s t : State} (h : timedStep s = .next t) (n : Nat) :
    timedCore.run (n + 1) s = timedCore.run n t := by
  have hstep : timedCore.step s = .next t := h
  simp only [Host.Core.run, hstep]

theorem timedRun_trans {s t u : State} {m n : Nat} (h : timedCore.run m s = .next t) (k : timedCore.run n t = .next u) :
    timedCore.run (m + n) s = .next u := by
  induction m generalizing s with
  | zero =>
    obtain rfl := Host.Outcome.next.inj h
    rwa [Nat.zero_add]
  | succ m ih =>
    cases hs : timedStep s with
    | next v =>
      rw [timedRun_succ hs] at h
      rw [Nat.succ_add, timedRun_succ hs]
      exact ih h
    | fault r => simp [Host.Core.run, show timedCore.step s = .fault r from hs] at h
    | refused r => simp [Host.Core.run, show timedCore.step s = .refused r from hs] at h

theorem timedStep_of_inputs {s : State} {e : Event} {rest : List Event} (hin : s.inputs = e :: rest)
    (he : timedEnabled e s = true) : timedStep s = onEvent e { s with inputs := rest } := by
  simp [timedStep, step, nextEvent, hin, he]

/-- Time passes to `t`, then an event takes place. -/
theorem timedRun_clock_then {s u : State} {t : Rat} {e : Event} {rest : List Event}
    (hin : s.inputs = .clock t :: e :: rest) (hnow : s.now ≤ t) (hclock : timedEnabled (.clock t) s = true)
    (he : timedEnabled e { s with now := t, inputs := e :: rest } = true)
    (hu : onEvent e { s with now := t, inputs := rest } = .next u) : timedCore.run 2 s = .next u := by
  have htold : timedStep s = .next { s with now := t, inputs := e :: rest } := by
    rw [timedStep_of_inputs hin hclock, onEvent, max_eq_right hnow]
  rw [timedRun_succ htold, timedRun_succ ((timedStep_of_inputs rfl he).trans hu)]
  rfl

theorem interval_nonneg (c : Config) (p : TimerPhase) : 0 ≤ interval c p := by
  cases p
  · exact Nat.cast_nonneg _
  · exact Nat.cast_nonneg _

/-- Time passes from the arming of the timer to its due time, then it fires. -/
theorem timedRun_fire {s u : State} {p : TimerPhase} {t : Rat} {rest : List Event}
    (hin : s.inputs = .clock t :: .fire :: rest) (ht : s.timer = .armed p s.now) (hh : s.hung = false)
    (hdue : t = s.now + interval s.cfg p) (hu : step (State.before { s with now := t, inputs := rest } .fire) = .next u) :
    timedCore.run 2 s = .next u := by
  have hnow : s.now ≤ t := by
    rw [hdue]
    exact le_add_of_nonneg_right (interval_nonneg _ _)
  refine timedRun_clock_then hin hnow ?_ ?_ hu
  · rw [timedEnabled_clock ht hh, ← hdue, max_eq_right hnow, decide_eq_true le_rfl]
  · rw [timedEnabled_fire (s := { s with now := t, inputs := .fire :: rest }) ht hh]
    exact decide_eq_true hdue

theorem onEvent_command {i : Instr} (hi : i.wellFormed = true) (s : State) :
    onEvent (.command (encode i)) s = exec i s := by
  rw [onEvent, handOver_of_decode (decodeOfEncodeIsIdentity i hi)]

/-- Time passes, then the host hands over a command. -/
theorem timedRun_command {s u : State} {i : Instr} {t : Rat} {rest : List Event}
    (hin : s.inputs = .clock t :: .command (encode i) :: rest) (hi : i.wellFormed = true) (hnow : s.now ≤ t)
    (hclock : timedEnabled (.clock t) s = true) (hu : exec i { s with now := t, inputs := rest } = .next u) :
    timedCore.run 2 s = .next u :=
  timedRun_clock_then hin hnow hclock rfl ((onEvent_command hi _).trans hu)

/-! ### The rows -/

/-- What R193's table shows of a state, and what its next row needs: the clock, the frame SENDBUFFER would send, and the
events to come. -/
structure Row where
  pstate : PowerState
  contrast : Byte
  preDim : Byte
  timer : Timer
  trace : List Transfer
  now : Rat
  frame : List Transfer
  events : List Event

/-- The row a state is in. -/
def State.row (s : State) : Row := ⟨s.pstate, s.contrast, s.preDim, s.timer, s.trace, s.now, frameTransfers s, s.inputs⟩

/-- What every state of the schedule has: the configuration, nothing failed or hanging, and a device that accepts. -/
structure State.Calm (c : Config) (s : State) : Prop where
  cfg : s.cfg = c
  hung : s.hung = false
  fatal : s.flags.fatal = false
  device : s.device = []

/-- The schedule of `s0` is in row `r` after `n` events. -/
def Reaches (c : Config) (s0 : State) (n : Nat) (r : Row) : Prop :=
  ∃ s, timedCore.run n s0 = .next s ∧ s.Calm c ∧ s.row = r

section
variable {c : Config} {s0 : State} {n : Nat} {k v : Byte} {tr frame : List Transfer} {now t : Rat} {events : List Event}

/-- INIT right after reset (45_system.md R166). -/
theorem Reaches.init (hc : admitted c = true) (hd : 0 < c.dimSeconds)
    (h : Reaches c s0 n ⟨.off, k, v, .stopped, tr, now, frame, .command (encode .init) :: events⟩) :
    Reaches c s0 (n + 1)
      ⟨.on, c.contrastInit, v, .armed .dimPhase now, tr ++ c.initSeq.map .cmd, now, frame, events⟩ := by
  obtain ⟨s, hrun, hcalm, hrow⟩ := h
  obtain ⟨hp, -, rfl, -, rfl, rfl, rfl, hin⟩ := Row.mk.inj hrow
  obtain ⟨rfl, hh, hf, hdev⟩ := hcalm
  have hinit := initTurnsOn { s with inputs := events } ⟨hc, hh⟩ hf hp (State.accepts_of_no_answers hdev _)
  rw [if_pos (Or.inl hd)] at hinit
  have hstep := (timedStep_of_inputs hin rfl).trans ((onEvent_command rfl _).trans hinit)
  exact ⟨_, timedRun_trans hrun (timedRun_succ hstep 0), ⟨rfl, hh, hf, by simp [hdev]⟩, rfl⟩

/-- The fire that dims (R183). -/
theorem Reaches.dims (hc : admitted c = true) (hs : 0 < c.sleepSeconds) (hdue : t = now + c.dimSeconds)
    (h : Reaches c s0 n ⟨.on, k, v, .armed .dimPhase now, tr, now, frame, .clock t :: .fire :: events⟩) :
    Reaches c s0 (n + 2) ⟨.dim, 0, k, .armed .sleepPhase t, tr ++ fadeTransfers k 0, t, frame, events⟩ := by
  obtain ⟨s, hrun, hcalm, hrow⟩ := h
  obtain ⟨hp, rfl, -, ht, rfl, rfl, rfl, hin⟩ := Row.mk.inj hrow
  obtain ⟨rfl, hh, hf, hdev⟩ := hcalm
  obtain ⟨-, hdims, -⟩ := idleTransition.2 { s with now := t, inputs := events } .dimPhase s.now ⟨hc, hh⟩ ht
  have hstep := hdims hf hp (State.accepts_of_no_answers hdev _)
  rw [if_pos hs] at hstep
  exact ⟨_, timedRun_trans hrun (timedRun_fire hin ht hh hdue hstep), ⟨rfl, hh, hf, by simp [hdev]⟩, rfl⟩

/-- The fire that puts to sleep (R183). -/
theorem Reaches.sleeps (hc : admitted c = true) (hdue : t = now + c.sleepSeconds)
    (h : Reaches c s0 n ⟨.dim, k, v, .armed .sleepPhase now, tr, now, frame, .clock t :: .fire :: events⟩) :
    Reaches c s0 (n + 2) ⟨.sleep, k, v, .stopped, tr ++ [.cmd .displayOff], t, frame, events⟩ := by
  obtain ⟨s, hrun, hcalm, hrow⟩ := h
  obtain ⟨hp, rfl, rfl, ht, rfl, rfl, rfl, hin⟩ := Row.mk.inj hrow
  obtain ⟨rfl, hh, hf, hdev⟩ := hcalm
  obtain ⟨-, -, hsleeps, -⟩ := idleTransition.2 { s with now := t, inputs := events } .sleepPhase s.now ⟨hc, hh⟩ ht
  have hstep := hsleeps hf hp (State.accepts_of_no_answers hdev _)
  exact ⟨_, timedRun_trans hrun (timedRun_fire hin ht hh hdue hstep), ⟨rfl, hh, hf, by simp [hdev]⟩, rfl⟩

/-- SENDBUFFER from Sleep (R182, 44_transmission.md R153). -/
theorem Reaches.sends (hc : admitted c = true) (hd : 0 < c.dimSeconds) (hnow : now ≤ t)
    (h : Reaches c s0 n ⟨.sleep, k, v, .stopped, tr, now, frame, .clock t :: .command (encode .sendBuffer) :: events⟩) :
    Reaches c s0 (n + 2) ⟨.on, v, v, .armed .dimPhase t, tr ++ .cmd .displayOn :: fadeTransfers k v ++ frame, t, frame,
      events⟩ := by
  obtain ⟨s, hrun, hcalm, hrow⟩ := h
  obtain ⟨hp, rfl, rfl, ht, rfl, rfl, rfl, hin⟩ := Row.mk.inj hrow
  obtain ⟨rfl, hh, hf, hdev⟩ := hcalm
  have hready : State.Ready { s with now := t, inputs := events } := ⟨⟨hc, hh⟩, hf, by simp [hp]⟩
  have hexec := sendBufferSendsFrame _ hready (State.accepts_of_no_answers hdev _)
  rw [State.afterActivity_of_restored (by simp [hp]) (by exact hd), wakeTransfers_of_sleep (by exact hp)] at hexec
  have hclock : timedEnabled (.clock t) s = true := by simp [timedEnabled, dueTime, ht]
  exact ⟨_, timedRun_trans hrun (timedRun_command hin rfl hnow hclock hexec), ⟨rfl, hh, hf, by simp [hdev]⟩, rfl⟩

/-- A rasterizer command from Dim, before the sleep threshold (R182, 41_rasterizer_lines_rects.md R100): it sends nothing of
its own. -/
theorem Reaches.draws {i : Instr} {S : Int → Int → Prop} (hdraw : Draws i S) (hi : i.wellFormed = true)
    (hc : admitted c = true) (hd : 0 < c.dimSeconds) (hnow : now ≤ t) (hdue : t ≤ now + c.sleepSeconds)
    (h : Reaches c s0 n ⟨.dim, k, v, .armed .sleepPhase now, tr, now, frame, .clock t :: .command (encode i) :: events⟩) :
    ∃ frame', Reaches c s0 (n + 2) ⟨.on, v, v, .armed .dimPhase t, tr ++ fadeTransfers k v, t, frame', events⟩ := by
  obtain ⟨s, hrun, hcalm, hrow⟩ := h
  obtain ⟨hp, rfl, rfl, ht, rfl, rfl, rfl, hin⟩ := Row.mk.inj hrow
  obtain ⟨rfl, hh, hf, hdev⟩ := hcalm
  have hready : State.Ready { s with now := t, inputs := events } := ⟨⟨hc, hh⟩, hf, by simp [hp]⟩
  obtain ⟨fb, hexec, -⟩ := hdraw _ hready (State.accepts_of_no_answers hdev _)
  rw [State.afterActivity_of_restored (by simp [hp]) (by exact hd), wakeTransfers_of_dim (by exact hp)] at hexec
  have hclock : timedEnabled (.clock t) s = true := by
    rw [timedEnabled_clock ht hh, max_eq_right hnow]
    exact decide_eq_true hdue
  exact ⟨frameTransfers { s with fb := fb }, _, timedRun_trans hrun (timedRun_command hin hi hnow hclock hexec),
    ⟨rfl, hh, hf, by simp [hdev]⟩, rfl⟩

end

/-- Settles O55: from the state after reset, row after row by `Reaches.init` to `Reaches.draws`; each fire stands at its due
time, and HLINE's word comes before the sleep threshold. -/
theorem idleTimeline : Obligations.IdleTimeline := by
  intro c epoch hc hdim hsleep s0 v after down up r0 r2 r3
  have hd : 0 < c.dimSeconds := by omega
  have hs : 0 < c.sleepSeconds := by omega
  have shows {n : Nat} {r : Row} (h : Reaches c s0 n r) (hv : 1 < n → r.preDim = v) :
      after n r.pstate r.contrast r.timer r.trace := by
    obtain ⟨s, hrun, -, rfl⟩ := h
    exact ⟨s, hrun, rfl, rfl, hv, rfl, rfl⟩
  have h0 : Reaches c s0 0 ⟨.off, _, _, .stopped, [], 0, frameTransfers s0, s0.inputs⟩ :=
    ⟨s0, rfl, ⟨rfl, rfl, rfl, rfl⟩, rfl⟩
  have h1 := h0.init hc hd
  have h3 := h1.dims hc hs (by rw [hdim]; norm_num)
  have h5 := h3.sleeps hc (by rw [hsleep]; norm_num)
  have h7 := h5.sends hc hd (by norm_num)
  have h9 := h7.dims hc hs (by rw [hdim]; norm_num)
  obtain ⟨frame, h11⟩ := h9.draws (hLineVLineSpans 1 1 4).1 rfl hc hd (by norm_num) (by rw [hsleep]; norm_num)
  have h13 := h11.dims hc hs (by rw [hdim]; norm_num)
  have e : r2 ++ .cmd .displayOn :: up ++ frameTransfers s0 = r3 := by rw [List.append_cons]
  rw [← e]
  exact ⟨shows h1 (fun h => absurd h (lt_irrefl 1)), shows h3 fun _ => rfl, shows h5 fun _ => rfl, shows h7 fun _ => rfl,
    shows h9 fun _ => rfl, shows h11 fun _ => rfl, shows h13 fun _ => rfl⟩

end Sys2Proof.Machine
end
